-- ==== Sys2Proof/Word.lean ====
section
/-! DEFINITION. The word types of the block (spec/00_scope.md R8): unsigned words whose arithmetic wraps
at their width. `+`, `^^^`, `&&&`, `~~~`, `>>>`, `rotateRight` and `rotateLeft` of `BitVec` are R8's
`+`, `⊕`, `∧`, `¬`, `>>`, `rotr` and `rotl`. -/

namespace Sys2Proof

/-- One byte of the buffer memory or of a byte string. -/
abbrev Byte := BitVec 8

/-- `u32` of R8: a descriptor word, a register, a SHA-256, Salsa or permutation word. -/
abbrev Word := BitVec 32

/-- `u64` of R8: a SHA-512 word, a data nonce, a hash count. -/
abbrev Word64 := BitVec 64

end Sys2Proof
end

