-- ==== Sys2Proof/Machine/Bytes.lean ====
section
/-! DEFINITION. Byte strings and words (spec/00_scope.md R7, R9; spec/20_memory.md R32): the one place where a
byte order is decided. A byte string is a list whose head is the byte at the lowest address. -/

namespace Sys2Proof.Machine

/-- The number a byte string is, its first byte least significant. -/
def leNat : List Byte → Nat
  | [] => 0
  | b :: bs => b.toNat + 256 * leNat bs

/-- The number a byte string is, its first byte most significant (`BE256` of R113 on 32 bytes). -/
def beNat (bs : List Byte) : Nat := leNat bs.reverse

/-- The `n` low bytes of a number, least significant first. -/
def leBytes : Nat → Nat → List Byte
  | 0, _ => []
  | n + 1, v => BitVec.ofNat 8 v :: leBytes n (v / 256)

/-- The `n` low bytes of a number, most significant first. -/
def beBytes (n v : Nat) : List Byte := (leBytes n v).reverse

/-- `LE32`, `LE64` (R9): a word from its bytes, first byte least significant. -/
def leWord (w : Nat) (bs : List Byte) : BitVec w := BitVec.ofNat w (leNat bs)

/-- `BE32`, `BE64` (R9): a word from its bytes, first byte most significant. -/
def beWord (w : Nat) (bs : List Byte) : BitVec w := BitVec.ofNat w (beNat bs)

/-- The first `count` consecutive `size`-byte pieces of a byte string. -/
def chunks (size : Nat) : Nat → List Byte → List (List Byte)
  | 0, _ => []
  | count + 1, bs => bs.take size :: chunks size count (bs.drop size)

/-- `LE32s` (R9): the first `count` little-endian 32-bit words of a byte string. -/
def le32s (count : Nat) (bs : List Byte) : List Word := (chunks 4 count bs).map (leWord 32)

/-- `BE32s`, `BE64s` (R9): the first `count` big-endian words of `size` bytes. -/
def beWords (w size count : Nat) (bs : List Byte) : List (BitVec w) :=
  (chunks size count bs).map (beWord w)

/-- `le32s` of a word list (R9): the words joined into bytes, little-endian. -/
def le32sBytes (ws : List Word) : List Byte := ws.flatMap fun v => leBytes 4 v.toNat

/-- `be32s`, `be64s` of a word list (R9): the words of `size` bytes joined, big-endian. -/
def beWordsBytes {w : Nat} (size : Nat) (ws : List (BitVec w)) : List Byte :=
  ws.flatMap fun v => beBytes size v.toNat

/-- `0x00^n` (R7). -/
def zeros (n : Nat) : List Byte := List.replicate n 0

/-- `⊕` of two byte strings of one length, byte by byte. -/
def xorBytes (xs ys : List Byte) : List Byte := List.zipWith (· ^^^ ·) xs ys

end Sys2Proof.Machine
end

