-- ==== Sys2Proof/Config.lean ====
section
/-! DEFINITION. The implementation parameters of spec/00_scope.md R5, fixed for the life of the block (R6),
and the free values of the model. -/

namespace Sys2Proof

/-- Parameter `TARGET_ORDER` (R5, R113): which digest byte is the most significant one when a digest is
compared with a target. -/
inductive TargetOrder where
  | byte0First    -- 0: digest byte 0 is most significant
  | byte31First   -- 1: digest byte 31 is most significant
deriving DecidableEq, Repr

/-- The parameters of R5. `memBytes`, `regBase` and `hostBmBase` are OPEN in the spec: a statement about
every state is a statement about every value of them. -/
structure Config where
  /-- `MEM_BYTES`: the size of the buffer memory in bytes. -/
  memBytes : Nat
  /-- `HAS_SHA512`: the option of R2. -/
  hasSha512 : Bool
  /-- `SALSA_DOUBLE_ROUNDS`: double rounds of the stream-cipher core (R95). -/
  salsaDoubleRounds : Nat
  /-- `TARGET_ORDER`. -/
  targetOrder : TargetOrder
  /-- `REG_BASE`: host address of the register window. -/
  regBase : Nat
  /-- `HOST_BM_BASE`: host address of the host port onto the buffer memory. -/
  hostBmBase : Nat
  /-- `HOST_ORDERED`: host accesses take effect in program order (R44). -/
  hostOrdered : Bool
deriving DecidableEq, Repr

/-- This hardware's parameters: the values R5 fixes (SHA-512 present, 8 double rounds, target order 0,
host ordered). DESIGN CHOICE (log 2): the OPEN ones take `MEM_BYTES` = 65536 (the size the spec's vectors use),
the port at host address 0 and the window at 0x80000000, above the largest buffer memory R5 allows. -/
def Config.default : Config :=
  { memBytes := 65536
    hasSha512 := true
    salsaDoubleRounds := 8
    targetOrder := .byte0First
    regBase := 0x80000000
    hostBmBase := 0
    hostOrdered := true }

/-- FREE VALUE (log 4): the bytes a command interrupted by a reset leaves in the regions it writes are *any
value* (R133, U2). The step applies this constant to a counter of the state, so each such byte is its own
unconstrained value; nothing in Lean can evaluate it. -/
opaque Config.freeByte : Nat → Byte

/-- FREE VALUE (log 21): what the host port reads at a `BM` address whose byte is unwritten; *no document says what it
holds* (R28). The read applies this constant to a count of the occasions on which such contents may change and to the
address, so the byte is the same at every read until it is written (R36, R49); nothing in Lean can evaluate it. -/
opaque Config.unwrittenByte : Nat → Nat → Byte

end Sys2Proof
end

