-- ==== Sys2Proof/Syntax.lean ====
section
/-! DEFINITION. The command set of spec/30_encoding.md: one constructor per row of spec/opcode_table.json, with
the operand words of R53 in ascending word order. A `*_LO`, `*_HI` pair is one 64-bit operand (R52). -/

namespace Sys2Proof

/-- One command of the block (R53, R55). -/
inductive Instr where
  | halt
  | nop
  | sha256Iv (dst : Word)
  | sha256Compress (dst state block : Word)
  | sha256 (dst src len : Word)
  | sha256d (dst src len : Word)
  | sha512Iv (dst : Word)
  | sha512Compress (dst state block : Word)
  | sha512 (dst src len : Word)
  | hmacSha256 (dst key keyLen msg msgLen : Word)
  | pbkdf2Sha256 (dst dkLen pwd pwdLen salt saltLen iter : Word)
  | salsaCore (dst src : Word)
  | blockmix (dst src r : Word)
  | romix (blk v n r : Word)
  | scrypt (dst dkLen pwd pwdLen salt saltLen n r p work : Word)
  | permIv (dst : Word)
  | permCompress (dst cv block : Word) (ctr : Word64) (blen flags : Word)
  | permHash (dst src len : Word)
  | mineSha256d (res hdr target start stop : Word)
  | minePerm (res data dlen diff : Word) (start stop : Word64)
deriving DecidableEq, Repr

/-- The assembler's one pseudo-instruction (R59): the boundary function `hashScrypt`, with
"password = salt = input" and a 32-byte result. -/
abbrev Instr.hashScrypt (dst src len n r p work : Word) : Instr :=
  .scrypt dst 32 src len src len n r p work

end Sys2Proof
end

