-- ==== Sys2Proof/WellFormed.lean ====
section
/-! DEFINITION. What a legal parameter choice is (spec/00_scope.md R5) and which commands a block with given
parameters has (spec/30_encoding.md R56). Every 32-bit value of an operand word is legal (R54: value checks
belong to the command's rule), so an instruction is ill-formed only where the option it needs is absent. -/

namespace Sys2Proof

/-- `MEM_BYTES` is a multiple of 64 between 4096 and 2^31 (R5). -/
def Config.memBytesOk (c : Config) : Bool :=
  c.memBytes % 64 == 0 && 4096 ≤ c.memBytes && c.memBytes ≤ 2 ^ 31

/-- `SALSA_DOUBLE_ROUNDS` is 1 to 15 (R5). -/
def Config.roundsOk (c : Config) : Bool :=
  1 ≤ c.salsaDoubleRounds && c.salsaDoubleRounds ≤ 15

/-- DEDUCED (log 8): the platform places the 64-byte window at a word boundary and apart from the host port, so
that every host address means at most one of the two (R17, R139). -/
def Config.placementOk (c : Config) : Bool :=
  c.regBase % 4 == 0 &&
    (c.regBase + 64 ≤ c.hostBmBase || c.hostBmBase + c.memBytes ≤ c.regBase)

/-- The legal parameter choices (R5, with the placement of log 8). -/
def Config.wf (c : Config) : Bool :=
  c.memBytesOk && c.roundsOk && c.placementOk

/-- The commands of the option `SHA512` (R56): opcodes 0x18, 0x19 and 0x1A. -/
def Instr.needsSha512 : Instr → Bool
  | .sha512Iv _ => true
  | .sha512Compress _ _ _ => true
  | .sha512 _ _ _ => true
  | .halt | .nop | .sha256Iv _ | .sha256Compress _ _ _ | .sha256 _ _ _ | .sha256d _ _ _
  | .hmacSha256 _ _ _ _ _ | .pbkdf2Sha256 _ _ _ _ _ _ _ | .salsaCore _ _ | .blockmix _ _ _
  | .romix _ _ _ _ | .scrypt _ _ _ _ _ _ _ _ _ _ | .permIv _ | .permCompress _ _ _ _ _ _
  | .permHash _ _ _ | .mineSha256d _ _ _ _ _ | .minePerm _ _ _ _ _ _ => false

/-- The command exists on a block with these parameters (R56). -/
def Instr.wf (c : Config) (i : Instr) : Bool :=
  !i.needsSha512 || c.hasSha512

end Sys2Proof
end

