-- ==== Sys2Proof/Decode.lean ====
section
/-! DEFINITION. From the bytes of a descriptor to a command and back (spec/30_encoding.md R50 to R57,
spec/40_control.md R62). Decoding is total: a byte string that is no command is rejected by name. -/

namespace Sys2Proof

/-- Why a byte string is no command. -/
inductive DecodeError where
  /-- It is not 64 bytes long (R50); the engine's fetch never gives such a string. -/
  | truncated
  /-- `w[0][7:0]` is unassigned, or needs an absent option (R56: `ERR_OPCODE`). -/
  | opcode (value : BitVec 8)
  /-- `w[0][31:8]` (index 0) or the unused word of this index is not 0 (R51, R54: `ERR_RESERVED`). -/
  | reserved (index : Nat)
deriving DecidableEq, Repr

/-- `HI·2^32 + LO` (R52). -/
def pair64 (lo hi : Word) : Word64 := BitVec.ofNat 64 (hi.toNat * 2 ^ 32 + lo.toNat)

/-- The command an assigned opcode makes of the descriptor words (R53). -/
def commandOf (op : Nat) (w : Nat → Word) : Option Instr :=
  match op with
  | 0x01 => some .halt
  | 0x02 => some .nop
  | 0x10 => some (.sha256Iv (w 1))
  | 0x11 => some (.sha256Compress (w 1) (w 2) (w 3))
  | 0x12 => some (.sha256 (w 1) (w 2) (w 3))
  | 0x13 => some (.sha256d (w 1) (w 2) (w 3))
  | 0x18 => some (.sha512Iv (w 1))
  | 0x19 => some (.sha512Compress (w 1) (w 2) (w 3))
  | 0x1A => some (.sha512 (w 1) (w 2) (w 3))
  | 0x20 => some (.hmacSha256 (w 1) (w 2) (w 3) (w 4) (w 5))
  | 0x21 => some (.pbkdf2Sha256 (w 1) (w 2) (w 3) (w 4) (w 5) (w 6) (w 7))
  | 0x28 => some (.salsaCore (w 1) (w 2))
  | 0x29 => some (.blockmix (w 1) (w 2) (w 3))
  | 0x2A => some (.romix (w 1) (w 2) (w 3) (w 4))
  | 0x2B => some (.scrypt (w 1) (w 2) (w 3) (w 4) (w 5) (w 6) (w 7) (w 8) (w 9) (w 10))
  | 0x30 => some (.permIv (w 1))
  | 0x31 => some (.permCompress (w 1) (w 2) (w 3) (pair64 (w 4) (w 5)) (w 6) (w 7))
  | 0x32 => some (.permHash (w 1) (w 2) (w 3))
  | 0x40 => some (.mineSha256d (w 1) (w 2) (w 3) (w 4) (w 5))
  | 0x41 => some (.minePerm (w 1) (w 2) (w 3) (w 4) (pair64 (w 5) (w 6)) (pair64 (w 7) (w 8)))
  | _ => none

/-- The opcode of a command (R55). -/
def opcodeOf : Instr → Word
  | .halt => 0x01
  | .nop => 0x02
  | .sha256Iv _ => 0x10
  | .sha256Compress _ _ _ => 0x11
  | .sha256 _ _ _ => 0x12
  | .sha256d _ _ _ => 0x13
  | .sha512Iv _ => 0x18
  | .sha512Compress _ _ _ => 0x19
  | .sha512 _ _ _ => 0x1A
  | .hmacSha256 _ _ _ _ _ => 0x20
  | .pbkdf2Sha256 _ _ _ _ _ _ _ => 0x21
  | .salsaCore _ _ => 0x28
  | .blockmix _ _ _ => 0x29
  | .romix _ _ _ _ => 0x2A
  | .scrypt _ _ _ _ _ _ _ _ _ _ => 0x2B
  | .permIv _ => 0x30
  | .permCompress _ _ _ _ _ _ => 0x31
  | .permHash _ _ _ => 0x32
  | .mineSha256d _ _ _ _ _ => 0x40
  | .minePerm _ _ _ _ _ _ => 0x41

/-- The low and high words of a 64-bit operand, in word order (R52). -/
def split64 (v : Word64) : List Word := [v.extractLsb' 0 32, v.extractLsb' 32 32]

/-- The used operand words of a command, from word 1 on (R53). -/
def operandWords : Instr → List Word
  | .halt => []
  | .nop => []
  | .sha256Iv dst => [dst]
  | .sha256Compress dst state block => [dst, state, block]
  | .sha256 dst src len => [dst, src, len]
  | .sha256d dst src len => [dst, src, len]
  | .sha512Iv dst => [dst]
  | .sha512Compress dst state block => [dst, state, block]
  | .sha512 dst src len => [dst, src, len]
  | .hmacSha256 dst key keyLen msg msgLen => [dst, key, keyLen, msg, msgLen]
  | .pbkdf2Sha256 dst dkLen pwd pwdLen salt saltLen iter =>
    [dst, dkLen, pwd, pwdLen, salt, saltLen, iter]
  | .salsaCore dst src => [dst, src]
  | .blockmix dst src r => [dst, src, r]
  | .romix blk v n r => [blk, v, n, r]
  | .scrypt dst dkLen pwd pwdLen salt saltLen n r p work =>
    [dst, dkLen, pwd, pwdLen, salt, saltLen, n, r, p, work]
  | .permIv dst => [dst]
  | .permCompress dst cv block ctr blen flags => [dst, cv, block] ++ split64 ctr ++ [blen, flags]
  | .permHash dst src len => [dst, src, len]
  | .mineSha256d res hdr target start stop => [res, hdr, target, start, stop]
  | .minePerm res data dlen diff start stop =>
    [res, data, dlen, diff] ++ split64 start ++ split64 stop

/-- The lowest index from `first` to 15 whose word is not 0 (R54: the first one is reported). -/
def firstNonzero (ws : List Word) (first : Nat) : Option Nat :=
  (List.range 16).find? fun k => first ≤ k && ws.getD k 0 != 0

/-- R62 on the sixteen words of a descriptor: the opcode first, then `w[0][31:8]`, then the unused words in
ascending order. -/
def decodeWords (c : Config) (ws : List Word) : Except DecodeError Instr :=
  let w0 := ws.getD 0 0
  let op := w0.extractLsb' 0 8
  match commandOf op.toNat (fun k => ws.getD k 0) with
  | none => .error (.opcode op)
  | some i =>
    if !i.wf c then .error (.opcode op)
    else if w0.extractLsb' 8 24 != 0 then .error (.reserved 0)
    else match firstNonzero ws ((operandWords i).length + 1) with
      | some k => .error (.reserved k)
      | none => .ok i

/-- R50, R62: a descriptor is exactly 64 bytes, sixteen little-endian words. -/
def decode (c : Config) (bs : List Byte) : Except DecodeError Instr :=
  if bs.length = 64 then decodeWords c (Machine.le32s 16 bs) else .error .truncated

/-- The sixteen words of a command: the opcode, the used words, and 0 in every unused one (R51, R54). -/
def encodeWords (i : Instr) : List Word :=
  let used := opcodeOf i :: operandWords i
  used ++ List.replicate (16 - used.length) 0

/-- The 64 bytes of a command (R50). -/
def encode (i : Instr) : List Byte := Machine.le32sBytes (encodeWords i)

/-- The descriptor whose first `nbits` bits are `w`, numbered as spec/opcode_table.json numbers them (bit 0 is
the least significant bit of word 0), and whose other bits are 0: its 64 bytes as `BM` stores them. -/
def tableWordBytes (nbits w : Nat) : List Byte := Machine.leBytes 64 (w % 2 ^ nbits)

/-- What the decoder reads from such a descriptor on this hardware (`Config.default`). -/
def decodeTableWord (nbits w : Nat) : Option Instr :=
  (decode .default (tableWordBytes nbits w)).toOption

end Sys2Proof
end

