-- ==== Sys2Proof/Machine/State.lean ====
section
/-! DEFINITION. The state of the block as plain data (spec/10_state.md R13 to R31), what a command's regions,
faults and host accesses are, and the state after power-on reset. -/

namespace Sys2Proof.Machine

/-- `mode` (R15), visible as `STATUS.BUSY`. -/
inductive Mode where
  | idle
  | running
deriving DecidableEq, Repr

/-- The class of a memory region of a command (spec/20_memory.md R37). -/
inductive RegionClass where
  | input      -- I: read only
  | output     -- O: written only
  | inout      -- IO: read, then overwritten with the result
  | scratch    -- S: working set, written with its final content, never read from the snapshot
deriving DecidableEq, Repr

/-- A region `(wa, addr, len, class)` of a command (R34, spec/40_control.md R63): `wa` is the descriptor word
that holds the address. -/
structure Region where
  wa   : Nat
  addr : Nat
  len  : Nat
  cls  : RegionClass
deriving DecidableEq, Repr

/-- The causes of a fault of the block (spec/60_exceptions.md R121), codes 1 to 7. -/
inductive Cause where
  | fetchAlign
  | fetchBounds
  | opcode
  | reserved
  | param
  | bounds
  | overlap
deriving DecidableEq, Repr

/-- What `raise Fault(cause, info)` carries (spec/00_scope.md R10, spec/60_exceptions.md R120). -/
structure Trap where
  cause : Cause
  info  : Word
deriving DecidableEq, Repr

/-- One `check(cond, cause, info)` of a command's rule (spec/00_scope.md R10). -/
structure Check where
  ok    : Bool
  cause : Cause
  info  : Word
deriving DecidableEq, Repr

/-- What a nonce search returns (spec/45_mine.md R115). -/
structure SearchResult where
  found : Bool
  nonce : Word64
  count : Word64
deriving DecidableEq, Repr

/-- The registers of the window (R16); offsets 0x34 to 0x3C are `reserved`. -/
inductive Reg where
  | id | cfg | memSize | ctrl | status | cp | errCause | errInfo
  | resFound | resNonceLo | resNonceHi | resCountLo | resCountHi | reserved
deriving DecidableEq, Repr

/-- What happens next (log 5): the engine takes its step, or the host or the platform acts on the block between
two engine steps (spec/60_exceptions.md R125). A host access names a host address and a width in bytes. -/
inductive Move where
  | engine
  | powerOn
  | read (addr width : Nat)
  | write (addr width : Nat) (value : Word)
deriving DecidableEq, Repr

/-- The buffer memory `BM` (R27): the written bytes, as (address, byte) pairs. -/
abbrev Memory := List Host.Cell

/-- What an address that the list does not hold reads as: the byte is *unwritten* and has no value (R28, R49). -/
def Memory.unlisted : Option Byte := none

/-- The one canonical form: addresses strictly rising (an unlisted byte has no value, so no entry can equal it). -/
abbrev Memory.wf (m : Memory) : Prop := m.Pairwise fun x y => x.1 < y.1

/-- Why a step has no next state. -/
inductive Fault where
  /-- The engine: a descriptor fetch or a command's snapshot read touches a `BM` byte nothing has written. The chip
  reads some value no document fixes, and the spec has a model record a fault (spec/20_memory.md R49,
  spec/93_implementation_defined.md U1, spec/92_eei_decisions.md D48; log 3). Safe. -/
  | unwrittenByte
deriving DecidableEq, Repr

/-- Why a step is given no meaning. -/
inductive Refusal where
  /-- An arm of `exec` whose instruction has no meaning yet. Safe. No arm raises it now. -/
  | notModelled (mnemonic : String)
  /-- The host: a register access that is not an aligned 32-bit access (R17, spec/70_reset_and_hazards.md R135, U4).
  Safe. -/
  | windowAccess
  /-- The host: a port access to `BM` while `STATUS.BUSY = 1` (R135, U3). Safe. -/
  | portWhileBusy
  /-- The host: a port access that is not one byte wide (R36 gives the port single bytes only; log 8). Safe. -/
  | portWidth
  /-- The host: an access at a host address that is neither in the window nor in the port, so no access of the block
  (R139; log 8). Safe. -/
  | notTheBlock
  /-- The host: any access on a platform whose `HOST_ORDERED` is false, for which the spec promises nothing (R44, U16;
  log 9). Safe. -/
  | hostUnordered
deriving DecidableEq, Repr

/-- The state of one block. The first group is the spec's `(mode, regs, BM)` of R13, with each field that software
reads under one home: `STATUS`, `CTRL`, `ID`, `CFG` and `MEMSIZE` are views computed from it (Machine/Flags.lean). The
second group is the model's own. -/
structure State where
  /-- `mode` (R15). -/
  mode : Mode
  /-- `CTRL.IE` (R21). -/
  ie : Bool
  /-- `STATUS.DONE` (R22). -/
  done : Bool
  /-- `CP` (R23). -/
  cp : Word
  /-- `ERR_CAUSE[3:0]` (R24); bits 31:4 read 0. -/
  errCause : BitVec 4
  /-- `ERR_INFO` (R24). -/
  errInfo : Word
  /-- `RES_FOUND` bit 0 (R25); bits 31:1 read 0. -/
  resFound : Bool
  /-- `RES_NONCE_LO` (R25). -/
  resNonceLo : Word
  /-- `RES_NONCE_HI` (R25). -/
  resNonceHi : Word
  /-- `RES_COUNT_LO` (R25). -/
  resCountLo : Word
  /-- `RES_COUNT_HI` (R25). -/
  resCountHi : Word
  /-- `BM` (R27). -/
  mem : Memory
  /-- The model's own: the parameters, which no step changes (spec/00_scope.md R5, R6; log 1). -/
  cfg : Config
  /-- The model's own: what happens next, oldest first; when it is empty the engine moves (log 5). -/
  moves : List Move
  /-- The model's own: the value the host's last read of the block returned, if it has read (log 6). -/
  lastRead : Option Word
  /-- The model's own: how many free bytes have been drawn (log 4). -/
  freeCtr : Nat
  /-- The model's own: how often what the unwritten bytes of `BM` hold may have changed (log 21). -/
  bmEpoch : Nat
deriving DecidableEq, Repr

/-- The state after power-on reset of a block with parameters `c` (R31, spec/70_reset_and_hazards.md R131): idle,
every register 0, every byte of `BM` unwritten. -/
def State.resetWith (c : Config) : State :=
  { mode := .idle
    ie := false
    done := false
    cp := 0
    errCause := 0
    errInfo := 0
    resFound := false
    resNonceLo := 0
    resNonceHi := 0
    resCountLo := 0
    resCountHi := 0
    mem := []
    cfg := c
    moves := []
    lastRead := none
    freeCtr := 0
    bmEpoch := 0 }

/-- The state right after power-on reset of this hardware (R31). -/
def State.reset : State := State.resetWith .default

end Sys2Proof.Machine
end

