-- ==== Sys2Proof/Machine/Ops.lean ====
section
/-! DEFINITION. The named operations over memory and registers: reading and writing `BM`, completing a command,
taking a fault and stopping, starting again, and the checks every command shares. -/

namespace Sys2Proof.Machine

/-- What one step answers. -/
abbrev Result := Host.Outcome State Fault Refusal

/-! ### Buffer memory -/

/-- The byte at an address; `none` where it is unwritten (spec/10_state.md R28). -/
def Memory.get : Memory → Nat → Option Byte
  | [], _ => Memory.unlisted
  | (k, b) :: m, a => if k = a then some b else Memory.get m a

/-- Write one byte, keeping the addresses rising. -/
def Memory.set : Memory → Nat → Byte → Memory
  | [], a, v => [(a, v)]
  | (k, b) :: m, a, v =>
    if a < k then (a, v) :: (k, b) :: m
    else if a = k then (a, v) :: m
    else (k, b) :: Memory.set m a v

/-- `MemRead(addr, n)` (spec/00_scope.md R10); `none` where one of the bytes is unwritten. -/
def Memory.read (m : Memory) : Nat → Nat → Option (List Byte)
  | _, 0 => some []
  | a, n + 1 =>
    match Memory.get m a with
    | none => none
    | some b =>
      match Memory.read m (a + 1) n with
      | none => none
      | some bs => some (b :: bs)

/-- Write a byte string at an address. -/
def Memory.write (m : Memory) : Nat → List Byte → Memory
  | _, [] => m
  | a, b :: bs => Memory.write (Memory.set m a b) (a + 1) bs

/-- Apply the writes of a command, in order (spec/20_memory.md R39). -/
def Memory.writeAll (m : Memory) : List (Nat × List Byte) → Memory
  | [] => m
  | (a, bs) :: ws => Memory.writeAll (Memory.write m a bs) ws

/-- Every written byte takes a free value of its own (log 10), the addresses staying as they are. -/
def Memory.redraw : Memory → Nat → Memory
  | [], _ => []
  | (k, _) :: m, ctr => (k, Config.freeByte ctr) :: Memory.redraw m (ctr + 1)

/-! ### Completing, stopping and starting -/

/-- `cp <- cp + 64`, modulo 2^32 (spec/40_control.md R64, R66). -/
def State.advance (s : State) : State := { s with cp := s.cp + 64 }

/-- Apply scheduled writes (R64). -/
def State.commit (ws : List (Nat × List Byte)) (s : State) : State :=
  { s with mem := s.mem.writeAll ws }

/-- A command completes with these writes (R64). -/
def State.complete (ws : List (Nat × List Byte)) (s : State) : State := (s.commit ws).advance

/-- `stop` (R65): the end of a list, by HALT or by a fault. -/
def State.stop (s : State) : State := { s with mode := .idle, done := true }

/-- The code of a cause (spec/60_exceptions.md R121). -/
def Cause.code : Cause → BitVec 4
  | .fetchAlign => 1
  | .fetchBounds => 2
  | .opcode => 3
  | .reserved => 4
  | .param => 5
  | .bounds => 6
  | .overlap => 7

/-- `raise Fault(cause, info)` (R120, R126): TAKING AN EXCEPTION. No write is applied, `CP` and the result
registers keep their values, the cause and the information word are saved, and the list stops. -/
def State.raise (t : Trap) (s : State) : State :=
  { s with errCause := t.cause.code, errInfo := t.info }.stop

/-- THE RETURN FROM AN EXCEPTION (R127) and the start of any list (spec/40_control.md R60): a START write. It is
ignored while the block runs; nothing is restored. -/
def State.start (s : State) : State :=
  match s.mode with
  | .idle => { s with mode := .running, done := false, errCause := 0, errInfo := 0 }
  | .running => s

/-- The result registers take the result of a nonce search (spec/45_mine.md R116). -/
def State.setResult (r : SearchResult) (s : State) : State :=
  { s with
    resFound := r.found
    resNonceLo := r.nonce.extractLsb' 0 32
    resNonceHi := r.nonce.extractLsb' 32 32
    resCountLo := r.count.extractLsb' 0 32
    resCountHi := r.count.extractLsb' 32 32 }

/-! ### Checks -/

/-- The first check that fails, as the fault it raises (spec/60_exceptions.md R124). -/
def firstFailed : List Check → Option Trap
  | [] => none
  | k :: ks => if k.ok then firstFailed ks else some ⟨k.cause, k.info⟩

/-- The bounds check of one region, in exact arithmetic (spec/20_memory.md R34, spec/40_control.md R63). -/
def boundsCheck (memBytes : Nat) (r : Region) : Check :=
  ⟨r.addr + r.len ≤ memBytes, .bounds, BitVec.ofNat 32 r.wa⟩

/-- The command writes a region of this class (R37). -/
def RegionClass.written : RegionClass → Bool
  | .input => false
  | .output => true
  | .inout => true
  | .scratch => true

/-- Two regions share a byte (R40): both non-empty, each starting before the other's end. -/
def Region.meets (r q : Region) : Bool :=
  0 < r.len && 0 < q.len && r.addr < q.addr + q.len && q.addr < r.addr + r.len

/-- The overlap of two regions is forbidden (R40): one is scratch, or both are O or IO. -/
def Region.exclusive (r q : Region) : Bool :=
  r.cls == .scratch || q.cls == .scratch || (r.cls.written && q.cls.written)

/-- The overlap check of a pair of regions, the lower address word first (spec/40_control.md R63). -/
def overlapCheck (r q : Region) : Check :=
  ⟨!(r.exclusive q && r.meets q), .overlap, BitVec.ofNat 32 (r.wa ||| (q.wa <<< 8))⟩

/-- The overlap checks of a command's regions, in ascending pairs (R63). -/
def overlapChecks : List Region → List Check
  | [] => []
  | r :: rs => rs.map (overlapCheck r) ++ overlapChecks rs

/-- `checkRegions` (R63): every bound before any overlap. -/
def regionChecks (memBytes : Nat) (rs : List Region) : List Check :=
  rs.map (boundsCheck memBytes) ++ overlapChecks rs

/-- The checks of a descriptor fetch, alignment first (R61). -/
def fetchTrap (s : State) : Option Trap :=
  firstFailed
    [⟨s.cp.toNat % 64 == 0, .fetchAlign, s.cp⟩,
     ⟨s.cp.toNat + 64 ≤ s.cfg.memBytes, .fetchBounds, s.cp⟩]

/-! ### Reading the snapshot -/

/-- Read a region of the command's snapshot (spec/20_memory.md R38); an unwritten byte of it is the model's fault
(R49, spec/93_implementation_defined.md U1). -/
def withRead (s : State) (addr : Word) (len : Nat) (k : List Byte → Result) : Result :=
  match s.mem.read addr.toNat len with
  | none => .fault .unwrittenByte
  | some bs => k bs

end Sys2Proof.Machine
end

