-- ==== Sys2Proof/Machine/Operands.lean ====
section
/-! DEFINITION. What the operand words of each command stand for: the regions of `BM` they name
(spec/30_encoding.md R53), the legal values of the others (spec/60_exceptions.md R121), and the checks a command makes
before it computes anything. -/

namespace Sys2Proof.Machine

/-- A region whose address is an operand word. -/
def region (wa : Nat) (addr : Word) (len : Nat) (cls : RegionClass) : Region :=
  ⟨wa, addr.toNat, len, cls⟩

/-- The regions of a command in ascending word order, with classes and exact lengths (R53). -/
def regionsOf : Instr → List Region
  | .halt => []
  | .nop => []
  | .sha256Iv dst => [region 1 dst 32 .output]
  | .sha256Compress dst state block =>
    [region 1 dst 32 .output, region 2 state 32 .input, region 3 block 64 .input]
  | .sha256 dst src len => [region 1 dst 32 .output, region 2 src len.toNat .input]
  | .sha256d dst src len => [region 1 dst 32 .output, region 2 src len.toNat .input]
  | .sha512Iv dst => [region 1 dst 64 .output]
  | .sha512Compress dst state block =>
    [region 1 dst 64 .output, region 2 state 64 .input, region 3 block 128 .input]
  | .sha512 dst src len => [region 1 dst 64 .output, region 2 src len.toNat .input]
  | .hmacSha256 dst key keyLen msg msgLen =>
    [region 1 dst 32 .output, region 2 key keyLen.toNat .input, region 4 msg msgLen.toNat .input]
  | .pbkdf2Sha256 dst dkLen pwd pwdLen salt saltLen _ =>
    [region 1 dst dkLen.toNat .output, region 3 pwd pwdLen.toNat .input,
     region 5 salt saltLen.toNat .input]
  | .salsaCore dst src => [region 1 dst 64 .output, region 2 src 64 .input]
  | .blockmix dst src r =>
    [region 1 dst (128 * r.toNat) .output, region 2 src (128 * r.toNat) .input]
  | .romix blk v n r =>
    [region 1 blk (128 * r.toNat) .inout, region 2 v (128 * r.toNat * n.toNat) .scratch]
  | .scrypt dst dkLen pwd pwdLen salt saltLen n r p work =>
    [region 1 dst dkLen.toNat .output, region 3 pwd pwdLen.toNat .input,
     region 5 salt saltLen.toNat .input,
     region 10 work (128 * r.toNat * (p.toNat + n.toNat)) .scratch]
  | .permIv dst => [region 1 dst 32 .output]
  | .permCompress dst cv block _ _ _ =>
    [region 1 dst 64 .output, region 2 cv 32 .input, region 3 block 64 .input]
  | .permHash dst src len => [region 1 dst 32 .output, region 2 src len.toNat .input]
  | .mineSha256d res hdr target _ _ =>
    [region 1 res 24 .output, region 2 hdr 80 .input, region 3 target 32 .input]
  | .minePerm res data dlen _ _ _ =>
    [region 1 res 24 .output, region 2 data dlen.toNat .input]

/-- The regions a command writes (R37): classes O, IO and S. -/
def writtenRegions (i : Instr) : List Region := (regionsOf i).filter (·.cls.written)

/-- A check on an operand value (`ERR_PARAM`, R121). -/
def paramCheck (ok : Bool) (word : Word) : Check := ⟨ok, .param, word⟩

/-- The option check of a SHA-512 command: `ERR_OPCODE` with the opcode where the option is absent (R86 to R88). -/
def optionCheck (c : Config) (opcode : Word) : Check := ⟨c.hasSha512, .opcode, opcode⟩

/-- The checks on a command's operand values, in the order its rule lists them (R121, R124). -/
def paramChecks (c : Config) : Instr → List Check
  | .halt => []
  | .nop => []
  | .sha256Iv _ => []
  | .sha256Compress _ _ _ => []
  | .sha256 _ _ _ => []
  | .sha256d _ _ _ => []
  | .sha512Iv _ => [optionCheck c 0x18]
  | .sha512Compress _ _ _ => [optionCheck c 0x19]
  | .sha512 _ _ _ => [optionCheck c 0x1A]
  | .hmacSha256 _ _ _ _ _ => []
  | .pbkdf2Sha256 _ dkLen _ _ _ _ iter =>
    [paramCheck (1 ≤ dkLen.toNat) 2, paramCheck (1 ≤ iter.toNat) 7]
  | .salsaCore _ _ => []
  | .blockmix _ _ r =>
    [paramCheck (1 ≤ r.toNat) 3, paramCheck (128 * r.toNat ≤ 2 ^ 32 - 1) 3]
  | .romix _ _ n r =>
    [paramCheck (1 ≤ n.toNat) 3, paramCheck (1 ≤ r.toNat) 4,
     paramCheck (128 * r.toNat * n.toNat ≤ 2 ^ 32 - 1) 3]
  | .scrypt _ dkLen _ _ _ _ n r p _ =>
    [paramCheck (1 ≤ dkLen.toNat) 2, paramCheck (1 ≤ n.toNat) 7, paramCheck (1 ≤ r.toNat) 8,
     paramCheck (1 ≤ p.toNat) 9, paramCheck (128 * r.toNat * (p.toNat + n.toNat) ≤ 2 ^ 32 - 1) 7]
  | .permIv _ => []
  | .permCompress _ _ _ _ _ _ => []
  | .permHash _ _ _ => []
  | .mineSha256d _ _ _ start stop => [paramCheck (start.toNat ≤ stop.toNat) 5]
  | .minePerm _ _ dlen diff start stop =>
    [paramCheck (dlen.toNat ≤ 248) 3, paramCheck (diff.toNat ≤ 256) 4,
     paramCheck (start.toNat ≤ stop.toNat) 7]

/-- Every check of a decoded command, in the order of R124 (items 6 to 8). -/
def commandChecks (c : Config) (i : Instr) : List Check :=
  paramChecks c i ++ regionChecks c.memBytes (regionsOf i)

/-- The fault a decoded command raises, if it raises one (R124: exactly the first that fails). -/
def commandTrap (c : Config) (i : Instr) : Option Trap := firstFailed (commandChecks c i)

/-- A command checks everything before it computes anything (R64, R120). -/
def command (i : Instr) (s : State) (body : Unit → Result) : Result :=
  match commandTrap s.cfg i with
  | some t => .next (s.raise t)
  | none => body ()

/-- The fault of a descriptor at `cp` that is no command (spec/40_control.md R62). A truncated descriptor is one that
runs past the end of `BM`; the fetch has checked that already, so no step takes this case. -/
def decodeTrap (cp : Word) : DecodeError → Trap
  | .truncated => ⟨.fetchBounds, cp⟩
  | .opcode v => ⟨.opcode, v.zeroExtend 32⟩
  | .reserved k => ⟨.reserved, BitVec.ofNat 32 k⟩

end Sys2Proof.Machine
end

