-- ==== Sys2Proof/Machine/Control.lean ====
section
/-! DEFINITION. The control commands (spec/40_control.md R68, R69). -/

namespace Sys2Proof.Machine

/-- `HALT` (R68): `CP` moves past it and the list stops normally. -/
def execHalt (s : State) : Result := .next s.advance.stop

/-- `NOP` (R69): only `CP` moves. -/
def execNop (s : State) : Result := .next s.advance

end Sys2Proof.Machine
end

