-- ==== Sys2Proof/Machine/Sha2.lean ====
section
/-! DEFINITION. The SHA-2 family (spec/41_sha2.md): the functions, constants, compression, padding and hash of SHA-256
(R71 to R76) and SHA-512 (R81 to R85), written once for both word widths because R84 and R85 are R74 to R76 with another
width, another table and other rotations; then the commands (R77 to R80, R86 to R88). -/

namespace Sys2Proof.Machine

/-! ### The algorithm, for one word width -/

/-- What distinguishes SHA-256 from SHA-512 (R84, R85). -/
structure Sha2 (w : Nat) where
  /-- bytes of a word -/
  wordBytes : Nat
  /-- bytes of the length field of the padding -/
  lenBytes : Nat
  /-- `Σ0` -/
  bigSigma0 : BitVec w → BitVec w
  /-- `Σ1` -/
  bigSigma1 : BitVec w → BitVec w
  /-- `σ0` -/
  smallSigma0 : BitVec w → BitVec w
  /-- `σ1` -/
  smallSigma1 : BitVec w → BitVec w
  /-- the round constants, one per round -/
  consts : List (BitVec w)
  /-- the initial value -/
  init : List (BitVec w)

/-- The eight working variables of a compression (R74). -/
structure Sha2Work (w : Nat) where
  a : BitVec w
  b : BitVec w
  c : BitVec w
  d : BitVec w
  e : BitVec w
  f : BitVec w
  g : BitVec w
  h : BitVec w
deriving DecidableEq, Repr

/-- `Ch` (R71, R81). -/
def sha2Ch {w : Nat} (e f g : BitVec w) : BitVec w := (e &&& f) ^^^ (~~~e &&& g)

/-- `Maj` (R71, R81). -/
def sha2Maj {w : Nat} (a b c : BitVec w) : BitVec w := (a &&& b) ^^^ (a &&& c) ^^^ (b &&& c)

/-- `n` more words of a message schedule that is held newest word first: the word at distance `d` before `W[t]` is
`w[d-1]` (R74). -/
def sha2Extend {w : Nat} (S : Sha2 w) : Nat → List (BitVec w) → List (BitVec w)
  | 0, ws => ws
  | n + 1, ws =>
    sha2Extend S n
      ((S.smallSigma1 (ws.getD 1 0) + ws.getD 6 0 + S.smallSigma0 (ws.getD 14 0) + ws.getD 15 0) :: ws)

/-- The message schedule `W` of a block, one word per round (R74). -/
def sha2Schedule {w : Nat} (S : Sha2 w) (block : List Byte) : List (BitVec w) :=
  (sha2Extend S (S.consts.length - 16) (beWords w S.wordBytes 16 block).reverse).reverse

/-- One round, on a round constant and a schedule word (R74). -/
def sha2Round {w : Nat} (S : Sha2 w) (x : Sha2Work w) (kw : BitVec w × BitVec w) : Sha2Work w :=
  let t1 := x.h + S.bigSigma1 x.e + sha2Ch x.e x.f x.g + kw.1 + kw.2
  let t2 := S.bigSigma0 x.a + sha2Maj x.a x.b x.c
  { a := t1 + t2, b := x.a, c := x.b, d := x.c, e := x.d + t1, f := x.e, g := x.f, h := x.g }

/-- The working variables as a word list. -/
def sha2Words {w : Nat} (x : Sha2Work w) : List (BitVec w) := [x.a, x.b, x.c, x.d, x.e, x.f, x.g, x.h]

/-- The working variables at the start of a compression (R74). -/
def sha2Start {w : Nat} (H : List (BitVec w)) : Sha2Work w :=
  { a := H.getD 0 0, b := H.getD 1 0, c := H.getD 2 0, d := H.getD 3 0
    e := H.getD 4 0, f := H.getD 5 0, g := H.getD 6 0, h := H.getD 7 0 }

/-- `sha256_compress`, `sha512_compress` (R74, R84): all rounds, then the addition of the chaining value. -/
def sha2Compress {w : Nat} (S : Sha2 w) (H : List (BitVec w)) (block : List Byte) : List (BitVec w) :=
  let out := (S.consts.zip (sha2Schedule S block)).foldl (sha2Round S) (sha2Start H)
  List.zipWith (· + ·) (sha2Words (sha2Start H)) (sha2Words out)

/-- Bytes of a message block: 64 or 128. -/
def sha2BlockBytes {w : Nat} (S : Sha2 w) : Nat := 16 * S.wordBytes

/-- The zero bytes of the padding, `k = (55 − L) mod 64` for SHA-256 and `(111 − L) mod 128` for SHA-512 (R75, R85),
written without a negative number. -/
def sha2PadZeros {w : Nat} (S : Sha2 w) (len : Nat) : Nat :=
  (2 * sha2BlockBytes S - 1 - S.lenBytes - len % sha2BlockBytes S) % sha2BlockBytes S

/-- `sha256_pad` and its SHA-512 form (R75, R85): the 1 bit, zeros, and the total length in bits, big-endian. -/
def sha2Pad {w : Nat} (S : Sha2 w) (m : List Byte) : List Byte :=
  m ++ [0x80] ++ zeros (sha2PadZeros S m.length) ++ beBytes S.lenBytes (8 * m.length)

/-- The chaining value after all blocks of a padded message (R76, R85). -/
def sha2Chain {w : Nat} (S : Sha2 w) (H : List (BitVec w)) (padded : List Byte) : List (BitVec w) :=
  (chunks (sha2BlockBytes S) (padded.length / sha2BlockBytes S) padded).foldl (sha2Compress S) H

/-- `sha256`, `sha512` (R76, R85). -/
def sha2Hash {w : Nat} (S : Sha2 w) (m : List Byte) : List Byte :=
  beWordsBytes S.wordBytes (sha2Chain S S.init (sha2Pad S m))

/-! ### SHA-256 -/

/-- `K256` (R72). -/
def k256 : List Word :=
  [0x428a2f98, 0x71374491, 0xb5c0fbcf, 0xe9b5dba5, 0x3956c25b, 0x59f111f1, 0x923f82a4, 0xab1c5ed5]
    ++ [0xd807aa98, 0x12835b01, 0x243185be, 0x550c7dc3, 0x72be5d74, 0x80deb1fe, 0x9bdc06a7, 0xc19bf174]
    ++ [0xe49b69c1, 0xefbe4786, 0x0fc19dc6, 0x240ca1cc, 0x2de92c6f, 0x4a7484aa, 0x5cb0a9dc, 0x76f988da]
    ++ [0x983e5152, 0xa831c66d, 0xb00327c8, 0xbf597fc7, 0xc6e00bf3, 0xd5a79147, 0x06ca6351, 0x14292967]
    ++ [0x27b70a85, 0x2e1b2138, 0x4d2c6dfc, 0x53380d13, 0x650a7354, 0x766a0abb, 0x81c2c92e, 0x92722c85]
    ++ [0xa2bfe8a1, 0xa81a664b, 0xc24b8b70, 0xc76c51a3, 0xd192e819, 0xd6990624, 0xf40e3585, 0x106aa070]
    ++ [0x19a4c116, 0x1e376c08, 0x2748774c, 0x34b0bcb5, 0x391c0cb3, 0x4ed8aa4a, 0x5b9cca4f, 0x682e6ff3]
    ++ [0x748f82ee, 0x78a5636f, 0x84c87814, 0x8cc70208, 0x90befffa, 0xa4506ceb, 0xbef9a3f7, 0xc67178f2]

/-- `H256_0` (R73). -/
def h256 : List Word :=
  [0x6a09e667, 0xbb67ae85, 0x3c6ef372, 0xa54ff53a, 0x510e527f, 0x9b05688c, 0x1f83d9ab, 0x5be0cd19]

/-- SHA-256 (R71 to R76). -/
def sha256Alg : Sha2 32 :=
  { wordBytes := 4
    lenBytes := 8
    bigSigma0 := fun a => a.rotateRight 2 ^^^ a.rotateRight 13 ^^^ a.rotateRight 22
    bigSigma1 := fun e => e.rotateRight 6 ^^^ e.rotateRight 11 ^^^ e.rotateRight 25
    smallSigma0 := fun x => x.rotateRight 7 ^^^ x.rotateRight 18 ^^^ (x >>> 3)
    smallSigma1 := fun x => x.rotateRight 17 ^^^ x.rotateRight 19 ^^^ (x >>> 10)
    consts := k256
    init := h256 }

/-- A SHA-256 state image (R32): the eight words, big-endian. -/
def sha256Image (H : List Word) : List Byte := beWordsBytes 4 H

/-- `sha256_compress` on a state image. -/
def sha256CompressImage (state block : List Byte) : List Byte :=
  sha256Image (sha2Compress sha256Alg (beWords 32 4 8 state) block)

/-- `sha256` (R76). -/
def sha256Hash (m : List Byte) : List Byte := sha2Hash sha256Alg m

/-- `sha256d` (R76): SHA-256 applied twice. -/
def sha256dHash (m : List Byte) : List Byte := sha256Hash (sha256Hash m)

/-! ### SHA-512 -/

/-- `K512` (R82). -/
def k512 : List Word64 :=
  [0x428a2f98d728ae22, 0x7137449123ef65cd, 0xb5c0fbcfec4d3b2f, 0xe9b5dba58189dbbc]
    ++ [0x3956c25bf348b538, 0x59f111f1b605d019, 0x923f82a4af194f9b, 0xab1c5ed5da6d8118]
    ++ [0xd807aa98a3030242, 0x12835b0145706fbe, 0x243185be4ee4b28c, 0x550c7dc3d5ffb4e2]
    ++ [0x72be5d74f27b896f, 0x80deb1fe3b1696b1, 0x9bdc06a725c71235, 0xc19bf174cf692694]
    ++ [0xe49b69c19ef14ad2, 0xefbe4786384f25e3, 0x0fc19dc68b8cd5b5, 0x240ca1cc77ac9c65]
    ++ [0x2de92c6f592b0275, 0x4a7484aa6ea6e483, 0x5cb0a9dcbd41fbd4, 0x76f988da831153b5]
    ++ [0x983e5152ee66dfab, 0xa831c66d2db43210, 0xb00327c898fb213f, 0xbf597fc7beef0ee4]
    ++ [0xc6e00bf33da88fc2, 0xd5a79147930aa725, 0x06ca6351e003826f, 0x142929670a0e6e70]
    ++ [0x27b70a8546d22ffc, 0x2e1b21385c26c926, 0x4d2c6dfc5ac42aed, 0x53380d139d95b3df]
    ++ [0x650a73548baf63de, 0x766a0abb3c77b2a8, 0x81c2c92e47edaee6, 0x92722c851482353b]
    ++ [0xa2bfe8a14cf10364, 0xa81a664bbc423001, 0xc24b8b70d0f89791, 0xc76c51a30654be30]
    ++ [0xd192e819d6ef5218, 0xd69906245565a910, 0xf40e35855771202a, 0x106aa07032bbd1b8]
    ++ [0x19a4c116b8d2d0c8, 0x1e376c085141ab53, 0x2748774cdf8eeb99, 0x34b0bcb5e19b48a8]
    ++ [0x391c0cb3c5c95a63, 0x4ed8aa4ae3418acb, 0x5b9cca4f7763e373, 0x682e6ff3d6b2b8a3]
    ++ [0x748f82ee5defb2fc, 0x78a5636f43172f60, 0x84c87814a1f0ab72, 0x8cc702081a6439ec]
    ++ [0x90befffa23631e28, 0xa4506cebde82bde9, 0xbef9a3f7b2c67915, 0xc67178f2e372532b]
    ++ [0xca273eceea26619c, 0xd186b8c721c0c207, 0xeada7dd6cde0eb1e, 0xf57d4f7fee6ed178]
    ++ [0x06f067aa72176fba, 0x0a637dc5a2c898a6, 0x113f9804bef90dae, 0x1b710b35131c471b]
    ++ [0x28db77f523047d84, 0x32caab7b40c72493, 0x3c9ebe0a15c9bebc, 0x431d67c49c100d4c]
    ++ [0x4cc5d4becb3e42b6, 0x597f299cfc657e2a, 0x5fcb6fab3ad6faec, 0x6c44198c4a475817]

/-- `H512_0` (R83). -/
def h512 : List Word64 :=
  [0x6a09e667f3bcc908, 0xbb67ae8584caa73b, 0x3c6ef372fe94f82b, 0xa54ff53a5f1d36f1,
   0x510e527fade682d1, 0x9b05688c2b3e6c1f, 0x1f83d9abfb41bd6b, 0x5be0cd19137e2179]

/-- SHA-512 (R81 to R85). -/
def sha512Alg : Sha2 64 :=
  { wordBytes := 8
    lenBytes := 16
    bigSigma0 := fun a => a.rotateRight 28 ^^^ a.rotateRight 34 ^^^ a.rotateRight 39
    bigSigma1 := fun e => e.rotateRight 14 ^^^ e.rotateRight 18 ^^^ e.rotateRight 41
    smallSigma0 := fun x => x.rotateRight 1 ^^^ x.rotateRight 8 ^^^ (x >>> 7)
    smallSigma1 := fun x => x.rotateRight 19 ^^^ x.rotateRight 61 ^^^ (x >>> 6)
    consts := k512
    init := h512 }

/-- A SHA-512 state image (R32): the eight words, big-endian. -/
def sha512Image (H : List Word64) : List Byte := beWordsBytes 8 H

/-- `sha512_compress` on a state image. -/
def sha512CompressImage (state block : List Byte) : List Byte :=
  sha512Image (sha2Compress sha512Alg (beWords 64 8 8 state) block)

/-- `sha512` (R85). -/
def sha512Hash (m : List Byte) : List Byte := sha2Hash sha512Alg m

/-! ### Commands -/

/-- `SHA256_IV` (R77). -/
def execSha256Iv (dst : Word) (s : State) : Result :=
  command (.sha256Iv dst) s fun _ => .next (s.complete [(dst.toNat, sha256Image h256)])

/-- `SHA256_COMPRESS` (R78). -/
def execSha256Compress (dst state block : Word) (s : State) : Result :=
  command (.sha256Compress dst state block) s fun _ =>
    withRead s state 32 fun st =>
    withRead s block 64 fun bl =>
    .next (s.complete [(dst.toNat, sha256CompressImage st bl)])

/-- `SHA256` (R79). -/
def execSha256 (dst src len : Word) (s : State) : Result :=
  command (.sha256 dst src len) s fun _ =>
    withRead s src len.toNat fun m =>
    .next (s.complete [(dst.toNat, sha256Hash m)])

/-- `SHA256D` (R80). -/
def execSha256d (dst src len : Word) (s : State) : Result :=
  command (.sha256d dst src len) s fun _ =>
    withRead s src len.toNat fun m =>
    .next (s.complete [(dst.toNat, sha256dHash m)])

/-- `SHA512_IV` (R86). -/
def execSha512Iv (dst : Word) (s : State) : Result :=
  command (.sha512Iv dst) s fun _ => .next (s.complete [(dst.toNat, sha512Image h512)])

/-- `SHA512_COMPRESS` (R87). -/
def execSha512Compress (dst state block : Word) (s : State) : Result :=
  command (.sha512Compress dst state block) s fun _ =>
    withRead s state 64 fun st =>
    withRead s block 128 fun bl =>
    .next (s.complete [(dst.toNat, sha512CompressImage st bl)])

/-- `SHA512` (R88). -/
def execSha512 (dst src len : Word) (s : State) : Result :=
  command (.sha512 dst src len) s fun _ =>
    withRead s src len.toNat fun m =>
    .next (s.complete [(dst.toNat, sha512Hash m)])

end Sys2Proof.Machine
end

