-- ==== Sys2Proof/Machine/KeyedHash.lean ====
section
/-! DEFINITION. HMAC-SHA256 and PBKDF2-HMAC-SHA256 (spec/42_hmac_pbkdf2.md R90, R91) and their commands (R92, R93). -/

namespace Sys2Proof.Machine

/-- The key as one 64-byte block (R90): hashed when longer than the block, then padded with zeros. -/
def hmacKeyBlock (key : List Byte) : List Byte :=
  let k1 := if key.length > 64 then sha256Hash key else key
  k1 ++ zeros (64 - k1.length)

/-- `hmac_sha256` (R90). -/
def hmacSha256 (key m : List Byte) : List Byte :=
  let k0 := hmacKeyBlock key
  let inner := sha256Hash (k0.map (· ^^^ 0x36) ++ m)
  sha256Hash (k0.map (· ^^^ 0x5c) ++ inner)

/-- The loop `for j in 2..c` of R91, with `n` iterations left: `U` is the last hash, `T` the accumulator. -/
def pbkdf2Loop (pwd : List Byte) : Nat → List Byte → List Byte → List Byte
  | 0, _, t => t
  | n + 1, u, t =>
    let u' := hmacSha256 pwd u
    pbkdf2Loop pwd n u' (xorBytes t u')

/-- `T_i` of R91. -/
def pbkdf2Block (pwd salt : List Byte) (iter i : Nat) : List Byte :=
  let u := hmacSha256 pwd (salt ++ beBytes 4 i)
  pbkdf2Loop pwd (iter - 1) u u

/-- `pbkdf2_sha256` (R91): blocks 1 to `ceil(dkLen / 32)`, joined and cut to `dkLen` bytes. -/
def pbkdf2Sha256 (pwd salt : List Byte) (iter dkLen : Nat) : List Byte :=
  ((List.range ((dkLen + 31) / 32)).flatMap fun k => pbkdf2Block pwd salt iter (k + 1)).take dkLen

/-- `HMAC_SHA256` (R92). -/
def execHmacSha256 (dst key keyLen msg msgLen : Word) (s : State) : Result :=
  command (.hmacSha256 dst key keyLen msg msgLen) s fun _ =>
    withRead s key keyLen.toNat fun k =>
    withRead s msg msgLen.toNat fun m =>
    .next (s.complete [(dst.toNat, hmacSha256 k m)])

/-- `PBKDF2_SHA256` (R93). -/
def execPbkdf2Sha256 (dst dkLen pwd pwdLen salt saltLen iter : Word) (s : State) : Result :=
  command (.pbkdf2Sha256 dst dkLen pwd pwdLen salt saltLen iter) s fun _ =>
    withRead s pwd pwdLen.toNat fun p =>
    withRead s salt saltLen.toNat fun sa =>
    .next (s.complete [(dst.toNat, pbkdf2Sha256 p sa iter.toNat dkLen.toNat)])

end Sys2Proof.Machine
end

