-- ==== Sys2Proof/Machine/Perm.lean ====
section
/-! DEFINITION. The permutation hash (spec/44_perm.md): constants and mixing function (R104 to R107), compression (R108), the
linear-chain hash (R109), and the commands (R110 to R112). -/

namespace Sys2Proof.Machine

/-- `PIV` (R104): the same eight words as the SHA-256 initial value. -/
def permIv : List Word := h256

/-- `PERM` (R107). -/
def permPositions : List Nat := [2, 6, 3, 10, 7, 0, 4, 13, 1, 11, 12, 5, 9, 14, 15, 8]

/-- `SCHED` (R107): the message-word order of each of the 7 rounds. -/
def permSched : List (List Nat) :=
  [[0, 1, 2, 3, 4, 5, 6, 7, 8, 9, 10, 11, 12, 13, 14, 15],
   [2, 6, 3, 10, 7, 0, 4, 13, 1, 11, 12, 5, 9, 14, 15, 8],
   [3, 4, 10, 12, 13, 2, 7, 14, 6, 5, 9, 0, 11, 15, 8, 1],
   [10, 7, 12, 9, 14, 3, 13, 15, 4, 0, 11, 2, 5, 8, 1, 6],
   [12, 13, 9, 11, 15, 10, 14, 8, 7, 2, 5, 3, 0, 1, 6, 4],
   [9, 14, 11, 5, 8, 12, 15, 1, 13, 3, 0, 10, 2, 6, 4, 7],
   [11, 15, 5, 0, 1, 9, 8, 6, 14, 10, 2, 12, 3, 4, 7, 13]]

/-- `CHUNK_START` (R105). -/
def permChunkStart : Word := 0x01

/-- `CHUNK_END` (R105). -/
def permChunkEnd : Word := 0x02

/-- `ROOT` (R105). -/
def permRoot : Word := 0x08

/-- Half of `G` (R106): one addition of a message word, with the two rotations that follow it. -/
def permGHalf (a b c d : Nat) (m : Word) (rotD rotB : Nat) (v : List Word) : List Word :=
  let v1 := v.set a (v.getD a 0 + v.getD b 0 + m)
  let v2 := v1.set d ((v1.getD d 0 ^^^ v1.getD a 0).rotateRight rotD)
  let v3 := v2.set c (v2.getD c 0 + v2.getD d 0)
  v3.set b ((v3.getD b 0 ^^^ v3.getD c 0).rotateRight rotB)

/-- `G` (R106). -/
def permG (a b c d : Nat) (mx my : Word) (v : List Word) : List Word :=
  permGHalf a b c d my 8 7 (permGHalf a b c d mx 16 12 v)

/-- One round (R108): four column groups, then four diagonal groups, on the scheduled words `w`. -/
def permRound (w : Nat → Word) (v : List Word) : List Word :=
  let col := permG 3 7 11 15 (w 6) (w 7) (permG 2 6 10 14 (w 4) (w 5)
    (permG 1 5 9 13 (w 2) (w 3) (permG 0 4 8 12 (w 0) (w 1) v)))
  permG 3 4 9 14 (w 14) (w 15) (permG 2 7 8 13 (w 12) (w 13)
    (permG 1 6 11 12 (w 10) (w 11) (permG 0 5 10 15 (w 8) (w 9) col)))

/-- All rounds, in the order of the table (R108). -/
def permRounds (m : List Word) (v : List Word) : List Word :=
  permSched.foldl (fun v row => permRound (fun k => m.getD (row.getD k 0) 0) v) v

/-- `perm_compress` (R108), on eight chaining words and sixteen message words. -/
def permCompress (cv m : List Word) (ctr : Word64) (blen flags : Word) : List Word :=
  let v := permRounds m
    (cv.take 8 ++ permIv.take 4 ++ [ctr.extractLsb' 0 32, ctr.extractLsb' 32 32, blen, flags])
  List.zipWith (· ^^^ ·) (v.take 8) (v.drop 8) ++ List.zipWith (· ^^^ ·) (v.drop 8) cv

/-- The flag word of a block of the hash (R105, R109). -/
def permFlags (first last : Bool) : Word :=
  (if first then permChunkStart else 0) ||| (if last then permChunkEnd ||| permRoot else 0)

/-- One block of the hash (R109): zero-padded, with its own byte count, counter 0; the low eight words are chained. -/
def permBlock (cv : List Word) (chunk : List Byte) (first last : Bool) : List Word :=
  (permCompress cv (le32s 16 (chunk ++ zeros (64 - chunk.length))) 0
    (BitVec.ofNat 32 chunk.length) (permFlags first last)).take 8

/-- The chaining value after the last `n` blocks of a message (R109). -/
def permChain : Nat → Bool → List Word → List Byte → List Word
  | 0, _, cv, _ => cv
  | n + 1, first, cv, m =>
    permChain n false (permBlock cv (m.take 64) first (n == 0)) (m.drop 64)

/-- `nb` of R109: the empty input is one empty block. -/
def permBlockCount (len : Nat) : Nat := max 1 ((len + 63) / 64)

/-- `perm_hash` (R109). -/
def permHash (m : List Byte) : List Byte :=
  le32sBytes (permChain (permBlockCount m.length) true permIv m)

/-- `PERM_IV` (R110). -/
def execPermIv (dst : Word) (s : State) : Result :=
  command (.permIv dst) s fun _ => .next (s.complete [(dst.toNat, le32sBytes permIv)])

/-- `PERM_COMPRESS` (R111). -/
def execPermCompress (dst cv block : Word) (ctr : Word64) (blen flags : Word) (s : State) : Result :=
  command (.permCompress dst cv block ctr blen flags) s fun _ =>
    withRead s cv 32 fun c =>
    withRead s block 64 fun b =>
    .next (s.complete [(dst.toNat, le32sBytes (permCompress (le32s 8 c) (le32s 16 b) ctr blen flags))])

/-- `PERM_HASH` (R112). -/
def execPermHash (dst src len : Word) (s : State) : Result :=
  command (.permHash dst src len) s fun _ =>
    withRead s src len.toNat fun m =>
    .next (s.complete [(dst.toNat, permHash m)])

end Sys2Proof.Machine
end

