-- ==== Sys2Proof/Machine/Mine.lean ====
section
/-! DEFINITION. The nonce search (spec/45_mine.md): the difficulty predicates (R113, R114), the search loop (R115), its result
(R116) and the two commands (R117, R118). -/

namespace Sys2Proof.Machine

/-- The scan of R113 over digest and target bytes, most significant first: the first unequal byte decides, and equality
succeeds. -/
def targetScan : List Byte → List Byte → Bool
  | d :: ds, t :: ts =>
    if d.toNat < t.toNat then true else if t.toNat < d.toNat then false else targetScan ds ts
  | _, _ => true

/-- `meets_target` (R113). -/
def meetsTarget (order : TargetOrder) (d t : List Byte) : Bool :=
  match order with
  | .byte0First => targetScan d t
  | .byte31First => targetScan d.reverse t.reverse

/-- The bits of a byte from bit 7 down to bit 0 (R114). -/
def bitsMsbFirst (b : Byte) : List Bool := (List.range 8).map fun k => b.getLsbD (7 - k)

/-- `lz` (R114): the zero bits of a digest before its first one bit. -/
def leadingZeros (d : List Byte) : Nat := ((d.flatMap bitsMsbFirst).takeWhile (! ·)).length

/-- `meets_difficulty` (R114). -/
def meetsDifficulty (d : List Byte) (k : Nat) : Bool := k ≤ leadingZeros d

/-- The loop of R115 from nonce `n`, with `left` nonces after it up to the end and `count` attempts made: the nonces in
ascending order, each tried once, stopping at the first success or at the end. -/
def searchFrom (attempt : Nat → Bool) : Nat → Nat → Word64 → SearchResult
  | 0, n, count =>
    if attempt n then ⟨true, BitVec.ofNat 64 n, count + 1⟩ else ⟨false, 0, count + 1⟩
  | left + 1, n, count =>
    if attempt n then ⟨true, BitVec.ofNat 64 n, count + 1⟩
    else searchFrom attempt left (n + 1) (count + 1)

/-- `search(start, end, attempt)` (R115), for `start ≤ end`. -/
def search (start stop : Nat) (attempt : Nat → Bool) : SearchResult :=
  searchFrom attempt (stop - start) start 0

/-- The 24-byte result record (R116). -/
def resultRecord (r : SearchResult) : List Byte :=
  leBytes 8 r.nonce.toNat ++ leBytes 8 r.count.toNat ++ leBytes 4 r.found.toNat ++ leBytes 4 0

/-- A nonce search completes (R116): the record goes to `RES` and the result to the registers. -/
def completeSearch (res : Word) (r : SearchResult) (s : State) : State :=
  (s.complete [(res.toNat, resultRecord r)]).setResult r

/-- The header with a nonce in its last four bytes (R117). -/
def headerWithNonce (hdr : List Byte) (n : Nat) : List Byte := hdr.take 76 ++ leBytes 4 n

/-- One attempt of header mining (R117). -/
def attemptSha256d (order : TargetOrder) (hdr target : List Byte) (n : Nat) : Bool :=
  meetsTarget order (sha256dHash (headerWithNonce hdr n)) target

/-- One attempt of data mining (R118). -/
def attemptPerm (data : List Byte) (diff n : Nat) : Bool :=
  meetsDifficulty (permHash (data ++ leBytes 8 n)) diff

/-- `MINE_SHA256D` (R117). -/
def execMineSha256d (res hdr target start stop : Word) (s : State) : Result :=
  command (.mineSha256d res hdr target start stop) s fun _ =>
    withRead s hdr 80 fun h =>
    withRead s target 32 fun t =>
    .next (completeSearch res (search start.toNat stop.toNat (attemptSha256d s.cfg.targetOrder h t)) s)

/-- `MINE_PERM` (R118). -/
def execMinePerm (res data dlen diff : Word) (start stop : Word64) (s : State) : Result :=
  command (.minePerm res data dlen diff start stop) s fun _ =>
    withRead s data dlen.toNat fun m =>
    .next (completeSearch res (search start.toNat stop.toNat (attemptPerm m diff.toNat)) s)

end Sys2Proof.Machine
end

