-- ==== Sys2Proof/Machine/Scrypt.lean ====
section
/-! DEFINITION. The memory-hard KDF (spec/43_scrypt_mix.md): the stream-cipher core (R94, R95), BlockMix (R96), ROMix (R97,
R98) and the scrypt derivation (R99), then their commands (R100 to R103). -/

namespace Sys2Proof.Machine

/-- One step of `qr` (R94): `x[t] ^= rotl(x[p] + x[q], n)`. -/
def salsaStep (t p q n : Nat) (x : List Word) : List Word :=
  x.set t (x.getD t 0 ^^^ (x.getD p 0 + x.getD q 0).rotateLeft n)

/-- `qr(a, b, c, d)` (R94). -/
def salsaQr (a b c d : Nat) (x : List Word) : List Word :=
  salsaStep a d c 18 (salsaStep d c b 13 (salsaStep c b a 9 (salsaStep b a d 7 x)))

/-- The column round of R94. -/
def salsaColumns (x : List Word) : List Word :=
  salsaQr 15 3 7 11 (salsaQr 10 14 2 6 (salsaQr 5 9 13 1 (salsaQr 0 4 8 12 x)))

/-- The row round of R94. -/
def salsaRows (x : List Word) : List Word :=
  salsaQr 15 12 13 14 (salsaQr 10 11 8 9 (salsaQr 5 6 7 4 (salsaQr 0 1 2 3 x)))

/-- `doubleround` (R94). -/
def salsaDoubleRound (x : List Word) : List Word := salsaRows (salsaColumns x)

/-- The double round repeated (R95). -/
def salsaRounds : Nat → List Word → List Word
  | 0, x => x
  | n + 1, x => salsaRounds n (salsaDoubleRound x)

/-- `salsa_core` (R95), with `rounds` = `SALSA_DOUBLE_ROUNDS` double rounds and the feed-forward. -/
def salsaCore (rounds : Nat) (b : List Byte) : List Byte :=
  let input := le32s 16 b
  le32sBytes (List.zipWith (· + ·) (salsaRounds rounds input) input)

/-- The outputs `Y_i` of BlockMix from the chain value `x` (R96). -/
def blockmixChain (rounds : Nat) : List Byte → List (List Byte) → List (List Byte)
  | _, [] => []
  | x, b :: bs =>
    let y := salsaCore rounds (xorBytes x b)
    y :: blockmixChain rounds y bs

/-- The entries of a list at even positions. -/
def evens {α : Type} : List α → List α
  | [] => []
  | [a] => [a]
  | a :: _ :: l => a :: evens l

/-- The entries of a list at odd positions. -/
def odds {α : Type} (l : List α) : List α := evens l.tail

/-- `blockmix` (R96): the chain starts from the last sub-block; even outputs first, then odd ones. -/
def blockmix (rounds r : Nat) (b : List Byte) : List Byte :=
  let bs := chunks 64 (2 * r) b
  let ys := blockmixChain rounds (bs.getD (2 * r - 1) []) bs
  (evens ys ++ odds ys).flatten

/-- `integerify` (R97): the first word of the last 64-byte sub-block. -/
def integerify (r : Nat) (x : List Byte) : Nat :=
  leNat ((x.drop (64 * (2 * r - 1))).take 4)

/-- Phase 1 of ROMix (R98): the next `n` table entries from `x`, and the block after them. -/
def romixFill (rounds r : Nat) : Nat → List Byte → List (List Byte) × List Byte
  | 0, x => ([], x)
  | n + 1, x =>
    let rest := romixFill rounds r n (blockmix rounds r x)
    (x :: rest.1, rest.2)

/-- Phase 2 of ROMix (R98), with `k` iterations left over a table of `n` entries. -/
def romixMix (rounds r n : Nat) (table : List (List Byte)) : Nat → List Byte → List Byte
  | 0, x => x
  | k + 1, x =>
    romixMix rounds r n table k
      (blockmix rounds r (xorBytes x (table.getD (integerify r x % n) [])))

/-- `romix` (R98): the mixed block and the filled table. -/
def romix (rounds n r : Nat) (b : List Byte) : List Byte × List (List Byte) :=
  let filled := romixFill rounds r n b
  (romixMix rounds r n filled.1 n filled.2, filled.1)

/-- What `scrypt` returns (R99): the derived key, the lanes after ROMix, and the last lane's table. -/
structure ScryptResult where
  key   : List Byte
  lanes : List Byte
  table : List Byte
deriving DecidableEq, Repr

/-- `scrypt` (R99), the lanes in ascending order. -/
def scrypt (rounds : Nat) (pwd salt : List Byte) (n r p dkLen : Nat) : ScryptResult :=
  let b := pbkdf2Sha256 pwd salt 1 (128 * r * p)
  let lanes := (chunks (128 * r) p b).map (romix rounds n r)
  let b' := lanes.flatMap (·.1)
  { key := pbkdf2Sha256 pwd b' 1 dkLen
    lanes := b'
    table := (lanes.getLastD ([], [])).2.flatten }

/-- `SALSA_CORE` (R100). -/
def execSalsaCore (dst src : Word) (s : State) : Result :=
  command (.salsaCore dst src) s fun _ =>
    withRead s src 64 fun b =>
    .next (s.complete [(dst.toNat, salsaCore s.cfg.salsaDoubleRounds b)])

/-- `BLOCKMIX` (R101). -/
def execBlockmix (dst src r : Word) (s : State) : Result :=
  command (.blockmix dst src r) s fun _ =>
    withRead s src (128 * r.toNat) fun b =>
    .next (s.complete [(dst.toNat, blockmix s.cfg.salsaDoubleRounds r.toNat b)])

/-- `ROMIX` (R102): the table goes to the scratch region, then the block to its own. -/
def execRomix (blk v n r : Word) (s : State) : Result :=
  command (.romix blk v n r) s fun _ =>
    withRead s blk (128 * r.toNat) fun b =>
    let out := romix s.cfg.salsaDoubleRounds n.toNat r.toNat b
    .next (s.complete [(v.toNat, out.2.flatten), (blk.toNat, out.1)])

/-- `SCRYPT` (R103): the lanes and the table go to the scratch region, then the key to its destination. -/
def execScrypt (dst dkLen pwd pwdLen salt saltLen n r p work : Word) (s : State) : Result :=
  command (.scrypt dst dkLen pwd pwdLen salt saltLen n r p work) s fun _ =>
    withRead s pwd pwdLen.toNat fun pw =>
    withRead s salt saltLen.toNat fun sa =>
    let out := scrypt s.cfg.salsaDoubleRounds pw sa n.toNat r.toNat p.toNat dkLen.toNat
    .next (s.complete [(work.toNat, out.lanes ++ out.table), (dst.toNat, out.key)])

end Sys2Proof.Machine
end

