-- ==== Sys2Proof/Machine/Dispatch.lean ====
section
/-! DEFINITION. The meaning of every command: one arm per constructor, one direct call per arm. -/

namespace Sys2Proof.Machine

def exec (i : Instr) (s : State) : Host.Outcome State Fault Refusal :=
  match i with
  | .halt => Sys2Proof.Machine.execHalt s
  | .nop => Sys2Proof.Machine.execNop s
  | .sha256Iv dst => Sys2Proof.Machine.execSha256Iv dst s
  | .sha256Compress dst state block => Sys2Proof.Machine.execSha256Compress dst state block s
  | .sha256 dst src len => Sys2Proof.Machine.execSha256 dst src len s
  | .sha256d dst src len => Sys2Proof.Machine.execSha256d dst src len s
  | .sha512Iv dst => Sys2Proof.Machine.execSha512Iv dst s
  | .sha512Compress dst state block => Sys2Proof.Machine.execSha512Compress dst state block s
  | .sha512 dst src len => Sys2Proof.Machine.execSha512 dst src len s
  | .hmacSha256 dst key keyLen msg msgLen => Sys2Proof.Machine.execHmacSha256 dst key keyLen msg msgLen s
  | .pbkdf2Sha256 dst dkLen pwd pwdLen salt saltLen iter => Sys2Proof.Machine.execPbkdf2Sha256 dst dkLen pwd pwdLen salt saltLen iter s
  | .salsaCore dst src => Sys2Proof.Machine.execSalsaCore dst src s
  | .blockmix dst src r => Sys2Proof.Machine.execBlockmix dst src r s
  | .romix blk v n r => Sys2Proof.Machine.execRomix blk v n r s
  | .scrypt dst dkLen pwd pwdLen salt saltLen n r p work => Sys2Proof.Machine.execScrypt dst dkLen pwd pwdLen salt saltLen n r p work s
  | .permIv dst => Sys2Proof.Machine.execPermIv dst s
  | .permCompress dst cv block ctr blen flags => Sys2Proof.Machine.execPermCompress dst cv block ctr blen flags s
  | .permHash dst src len => Sys2Proof.Machine.execPermHash dst src len s
  | .mineSha256d res hdr target start stop => Sys2Proof.Machine.execMineSha256d res hdr target start stop s
  | .minePerm res data dlen diff start stop => Sys2Proof.Machine.execMinePerm res data dlen diff start stop s

end Sys2Proof.Machine
end

