-- ==== Sys2Proof/Machine/Flags.lean ====
section
/-! DEFINITION. The flags and the register words computed from the state (spec/10_state.md R18 to R26): what the window
shows of `ID`, `CFG`, `MEMSIZE`, `CTRL`, `STATUS`, `ERR_CAUSE` and `RES_FOUND`, and the interrupt output. -/

namespace Sys2Proof.Machine

/-- A flag as a word with that one bit. -/
def flagAt (b : Bool) (bit : Nat) : Word := if b then BitVec.ofNat 32 (2 ^ bit) else 0

/-- `STATUS.BUSY` (R15, R22): 1 exactly while the engine runs. -/
def State.busy (s : State) : Bool := s.mode == .running

/-- `STATUS.ERR` (R22): 1 exactly when `ERR_CAUSE` is not 0. -/
def State.err (s : State) : Bool := s.errCause != 0

/-- The interrupt output (R26, spec/60_exceptions.md R129): the level `STATUS.DONE ∧ CTRL.IE`. -/
def State.irq (s : State) : Bool := s.done && s.ie

/-- `ID` (R18). -/
def idWord : Word := 0x4D484501

/-- `CFG` (R19): `SHA512` in bit 0, `TORD` in bit 1, `SDR` in bits 11:8. -/
def cfgWord (c : Config) : Word :=
  flagAt c.hasSha512 0 ||| flagAt (c.targetOrder == .byte31First) 1
    ||| ((BitVec.ofNat 4 c.salsaDoubleRounds).zeroExtend 32 <<< 8)

/-- `MEMSIZE` (R20). -/
def memSizeWord (c : Config) : Word := BitVec.ofNat 32 c.memBytes

/-- `CTRL` as read (R21): only `IE`; `START` and `SRST` read 0. -/
def State.ctrlWord (s : State) : Word := flagAt s.ie 1

/-- `STATUS` as read (R22): `BUSY`, `DONE`, `ERR` in bits 0, 1, 2. -/
def State.statusWord (s : State) : Word := flagAt s.busy 0 ||| flagAt s.done 1 ||| flagAt s.err 2

/-- `ERR_CAUSE` as read (R24). -/
def State.errCauseWord (s : State) : Word := s.errCause.zeroExtend 32

/-- `RES_FOUND` as read (R25). -/
def State.resFoundWord (s : State) : Word := flagAt s.resFound 0

end Sys2Proof.Machine
end

