-- ==== Sys2Proof/Machine/Window.lean ====
section
/-! DEFINITION. What the host and the platform do to the block: the register window (spec/10_state.md R16 to R25), the
host port (R27, spec/20_memory.md R36), soft reset and power-on reset (spec/70_reset_and_hazards.md R131 to R135). -/

namespace Sys2Proof.Machine

/-! ### The register window -/

/-- The register at an offset of the window (R16). -/
def regAt (off : Nat) : Reg :=
  match off with
  | 0x00 => .id
  | 0x04 => .cfg
  | 0x08 => .memSize
  | 0x0C => .ctrl
  | 0x10 => .status
  | 0x14 => .cp
  | 0x18 => .errCause
  | 0x1C => .errInfo
  | 0x20 => .resFound
  | 0x24 => .resNonceLo
  | 0x28 => .resNonceHi
  | 0x2C => .resCountLo
  | 0x30 => .resCountHi
  | _ => .reserved

/-- Reading a register (R16 to R25): no side effect; a reserved offset reads 0. -/
def readReg (s : State) : Reg → Word
  | .id => idWord
  | .cfg => cfgWord s.cfg
  | .memSize => memSizeWord s.cfg
  | .ctrl => s.ctrlWord
  | .status => s.statusWord
  | .cp => s.cp
  | .errCause => s.errCauseWord
  | .errInfo => s.errInfo
  | .resFound => s.resFoundWord
  | .resNonceLo => s.resNonceLo
  | .resNonceHi => s.resNonceHi
  | .resCountLo => s.resCountLo
  | .resCountHi => s.resCountHi
  | .reserved => 0

/-! ### Reset -/

/-- What a soft reset does to the registers (R132): idle, `IE`, `DONE`, `CP`, the error and the result registers 0. -/
def State.clearRegisters (s : State) : State :=
  { s with
    mode := .idle, ie := false, done := false, cp := 0, errCause := 0, errInfo := 0
    resFound := false, resNonceLo := 0, resNonceHi := 0, resCountLo := 0, resCountHi := 0 }

/-- The regions a reset leaves unspecified (R133): those the command at `CP`, which is the one in execution, writes. A
descriptor that would fault writes none (spec/60_exceptions.md R120). `none`: a byte of the descriptor is unwritten, so
which command the block executes is unknown. -/
def interruptedRegions (s : State) : Option (List Region) :=
  match fetchTrap s with
  | some _ => some []
  | none =>
    match s.mem.read s.cp.toNat 64 with
    | none => none
    | some bs =>
      match decode s.cfg bs with
      | .error _ => some []
      | .ok i =>
        match commandTrap s.cfg i with
        | some _ => some []
        | none => some (writtenRegions i)

/-- The next `n` free bytes (log 4). -/
def freeBytes (ctr n : Nat) : List Byte := (List.range n).map fun k => Config.freeByte (ctr + k)

/-- Every byte of these regions takes a free value of its own (R133, U2). -/
def scramble : List Region → State → State
  | [], s => s
  | r :: rs, s =>
    scramble rs
      { s with mem := s.mem.write r.addr (freeBytes s.freeCtr r.len), freeCtr := s.freeCtr + r.len }

/-- Every byte of `BM` may have been written by the interrupted command (log 10): each written byte takes a free value of
its own, and each unwritten byte stays unwritten, with whatever it may hold now. -/
def scrambleAll (s : State) : State :=
  { s with
    mem := s.mem.redraw s.freeCtr, freeCtr := s.freeCtr + s.mem.length, bmEpoch := s.bmEpoch + 1 }

/-- Abandon the command in execution (R125, R133): the regions it writes become unspecified, or, where the command is
unknown, any byte of `BM` may be one of them. -/
def abandon (s : State) : State :=
  match interruptedRegions s with
  | some rs => scramble rs s
  | none => scrambleAll s

/-- A soft reset (R31, R132), taken whether the block is idle or running. -/
def softReset (s : State) : State :=
  match s.mode with
  | .idle => s.clearRegisters
  | .running => (abandon s).clearRegisters

/-- Power-on reset (R131): the state of R31's power-on column; the parameters and the model's own fields stay, but for the
count of log 21, since the unwritten bytes may hold something else now. -/
def powerOn (s : State) : State :=
  { State.resetWith s.cfg with
    moves := s.moves, lastRead := s.lastRead, freeCtr := s.freeCtr, bmEpoch := s.bmEpoch + 1 }

/-! ### Host accesses -/

/-- Writing a register (R17, R21 to R23). A `CTRL` write is `SRST` alone, or `IE` and then `START`; `STATUS.DONE` is
cleared by writing 1; `CP` takes a write only while the block is idle; every other write is ignored. -/
def writeReg (s : State) (v : Word) : Reg → State
  | .ctrl =>
    if v.getLsbD 2 then softReset s
    else
      let t := { s with ie := v.getLsbD 1 }
      if v.getLsbD 0 then t.start else t
  | .status => { s with done := s.done && !v.getLsbD 1 }
  | .cp => { s with cp := if s.busy then s.cp else v }
  | .id | .cfg | .memSize | .errCause | .errInfo | .resFound | .resNonceLo | .resNonceHi
  | .resCountLo | .resCountHi | .reserved => s

/-- The byte the host port reads at an address of `BM` (R27, R36): the one written there, or a free value where none is
(log 21). -/
def portByte (s : State) (a : Nat) : Byte :=
  match s.mem.get a with
  | some b => b
  | none => Config.unwrittenByte s.bmEpoch a

/-- A host read returns this value. -/
def State.answer (v : Word) (s : State) : State := { s with lastRead := some v }

/-- A host access inside the window, at an offset (R17, R135): refused unless it is an aligned 32-bit one. -/
def windowAccess (off width : Nat) (k : Reg → Result) : Result :=
  if width = 4 && off % 4 = 0 then k (regAt off) else .refused .windowAccess

/-- A host access through the port (R36, R135): refused while the block runs, and unless it is one byte wide. -/
def portAccess (s : State) (width : Nat) (r : Result) : Result :=
  if s.busy then .refused .portWhileBusy
  else if width = 1 then r
  else .refused .portWidth

/-- A host access, by its host address: the window at `REG_BASE`, the port at `HOST_BM_BASE` (R16, R27, R139). -/
def hostAccess (s : State) (addr : Nat) (window : Nat → Result) (port : Nat → Result) : Result :=
  if !s.cfg.hostOrdered then .refused .hostUnordered
  else if s.cfg.regBase ≤ addr && addr < s.cfg.regBase + 64 then window (addr - s.cfg.regBase)
  else if s.cfg.hostBmBase ≤ addr && addr < s.cfg.hostBmBase + s.cfg.memBytes then
    port (addr - s.cfg.hostBmBase)
  else .refused .notTheBlock

/-- A host read of `width` bytes. -/
def hostRead (s : State) (addr width : Nat) : Result :=
  hostAccess s addr
    (fun off => windowAccess off width fun r => .next (s.answer (readReg s r)))
    (fun a => portAccess s width (.next (s.answer ((portByte s a).zeroExtend 32))))

/-- A host write of `width` bytes; a port write stores the low byte of the value. -/
def hostWrite (s : State) (addr width : Nat) (v : Word) : Result :=
  hostAccess s addr
    (fun off => windowAccess off width fun r => .next (writeReg s v r))
    (fun a => portAccess s width (.next { s with mem := s.mem.set a (v.extractLsb' 0 8) }))

end Sys2Proof.Machine
end

