-- ==== Sys2Proof/Machine/Engine.lean ====
section
/-! DEFINITION. One engine step (spec/40_control.md R61, R62, R64) and one move of any agent (spec/60_exceptions.md R125). -/

namespace Sys2Proof.Machine

/-- Decode the fetched descriptor and run it, or take the fault that it is (R62, R64). -/
def runDescriptor (bs : List Byte) (s : State) : Result :=
  match decode s.cfg bs with
  | .error e => .next (s.raise (decodeTrap s.cp e))
  | .ok i => exec i s

/-- A running engine's step: fetch the descriptor at `CP` (R61), then decode and run it. -/
def engineRun (s : State) : Result :=
  match fetchTrap s with
  | some t => .next (s.raise t)
  | none => withRead s s.cp 64 fun bs => runDescriptor bs s

/-- The engine's step: an idle engine does nothing (spec/70_reset_and_hazards.md R131, R142). -/
def engineStep (s : State) : Result :=
  match s.mode with
  | .idle => .next s
  | .running => engineRun s

/-- One move, of the engine, the host or the platform. -/
def runMove (m : Move) (s : State) : Result :=
  match m with
  | .engine => engineStep s
  | .powerOn => .next (powerOn s)
  | .read addr width => hostRead s addr width
  | .write addr width v => hostWrite s addr width v

/-- Take the oldest pending move off the list. -/
def State.dropMove (s : State) : State := { s with moves := s.moves.tail }

/-- The state in which the engine fetches this descriptor next: what the host's port writes of its bytes at `CP` and a
START write leave (spec/70_reset_and_hazards.md R134), with no other move pending. -/
def withDescriptor (s : State) (bs : List Byte) : State :=
  { s.start with mem := s.mem.write s.cp.toNat bs, moves := [] }

end Sys2Proof.Machine
end

