-- ==== Sys2Proof/Machine/Step.lean ====
section
/-! DEFINITION. The step of the machine: the oldest pending move, or the engine's where none is pending (log 5). -/

namespace Sys2Proof.Machine

/-- One step of the block (spec/60_exceptions.md R125). -/
def step (s : State) : Host.Outcome State Fault Refusal :=
  match s.moves with
  | [] => engineStep s
  | m :: _ => runMove m s.dropMove

/-- `s` with the descriptor whose first `nbits` bits are `w`, the others 0, where `step` fetches next (log 7). -/
def State.withFetchWord (s : State) (nbits w : Nat) : State :=
  withDescriptor s (tableWordBytes nbits w)

end Sys2Proof.Machine
end

