-- ==== Sys2Proof/Machine/Assembler.lean ====
section
/-! DEFINITION. The assembly syntax of the command set (spec/30_encoding.md R58, R59): names and operands of commands, one line
of text, placement of descriptors in `BM`, and the disassembler. It is notation: no step uses it. -/

namespace Sys2Proof.Machine

/-- The mnemonic of a command (R55). -/
def mnemonicOf : Instr → String
  | .halt => "HALT"
  | .nop => "NOP"
  | .sha256Iv _ => "SHA256_IV"
  | .sha256Compress _ _ _ => "SHA256_COMPRESS"
  | .sha256 _ _ _ => "SHA256"
  | .sha256d _ _ _ => "SHA256D"
  | .sha512Iv _ => "SHA512_IV"
  | .sha512Compress _ _ _ => "SHA512_COMPRESS"
  | .sha512 _ _ _ => "SHA512"
  | .hmacSha256 _ _ _ _ _ => "HMAC_SHA256"
  | .pbkdf2Sha256 _ _ _ _ _ _ _ => "PBKDF2_SHA256"
  | .salsaCore _ _ => "SALSA_CORE"
  | .blockmix _ _ _ => "BLOCKMIX"
  | .romix _ _ _ _ => "ROMIX"
  | .scrypt _ _ _ _ _ _ _ _ _ _ => "SCRYPT"
  | .permIv _ => "PERM_IV"
  | .permCompress _ _ _ _ _ _ => "PERM_COMPRESS"
  | .permHash _ _ _ => "PERM_HASH"
  | .mineSha256d _ _ _ _ _ => "MINE_SHA256D"
  | .minePerm _ _ _ _ _ _ => "MINE_PERM"

/-- The operands of a command as the assembler writes them: a 64-bit pair is one number (R58). -/
def asmOperands : Instr → List Nat
  | .permCompress dst cv block ctr blen flags =>
    [dst.toNat, cv.toNat, block.toNat, ctr.toNat, blen.toNat, flags.toNat]
  | .minePerm res data dlen diff start stop =>
    [res.toNat, data.toNat, dlen.toNat, diff.toNat, start.toNat, stop.toNat]
  | i => (operandWords i).map (·.toNat)

/-- A number as an operand of `w` bits; a number that does not fit is no operand. -/
def asmOperand (w n : Nat) : Option (BitVec w) := if n < 2 ^ w then some (BitVec.ofNat w n) else none

/-- Numbers as 32-bit operands. -/
def asmWords : List Nat → Option (List Word)
  | [] => some []
  | n :: ns =>
    match asmOperand 32 n, asmWords ns with
    | some v, some vs => some (v :: vs)
    | _, _ => none

/-- The commands whose operands are all single words, and the pseudo-instruction `HASHSCRYPT` (R59). -/
def asmPlain (mnemonic : String) (ops : List Word) : Option Instr :=
  match mnemonic, ops with
  | "HALT", [] => some .halt
  | "NOP", [] => some .nop
  | "SHA256_IV", [a] => some (.sha256Iv a)
  | "SHA256_COMPRESS", [a, b, c] => some (.sha256Compress a b c)
  | "SHA256", [a, b, c] => some (.sha256 a b c)
  | "SHA256D", [a, b, c] => some (.sha256d a b c)
  | "SHA512_IV", [a] => some (.sha512Iv a)
  | "SHA512_COMPRESS", [a, b, c] => some (.sha512Compress a b c)
  | "SHA512", [a, b, c] => some (.sha512 a b c)
  | "HMAC_SHA256", [a, b, c, d, e] => some (.hmacSha256 a b c d e)
  | "PBKDF2_SHA256", [a, b, c, d, e, f, g] => some (.pbkdf2Sha256 a b c d e f g)
  | "SALSA_CORE", [a, b] => some (.salsaCore a b)
  | "BLOCKMIX", [a, b, c] => some (.blockmix a b c)
  | "ROMIX", [a, b, c, d] => some (.romix a b c d)
  | "SCRYPT", [a, b, c, d, e, f, g, h, i, j] => some (.scrypt a b c d e f g h i j)
  | "HASHSCRYPT", [a, b, c, d, e, f, g] => some (.hashScrypt a b c d e f g)
  | "PERM_IV", [a] => some (.permIv a)
  | "PERM_HASH", [a, b, c] => some (.permHash a b c)
  | "MINE_SHA256D", [a, b, c, d, e] => some (.mineSha256d a b c d e)
  | _, _ => none

/-- A mnemonic in capitals and its operands as a command (R58, R59). -/
def assembleCommand (mnemonic : String) (ops : List Nat) : Option Instr :=
  match mnemonic, ops with
  | "PERM_COMPRESS", [a, b, c, ctr, e, f] =>
    match asmWords [a, b, c, e, f], asmOperand 64 ctr with
    | some [a, b, c, e, f], some ctr => some (.permCompress a b c ctr e f)
    | _, _ => none
  | "MINE_PERM", [a, b, c, d, start, stop] =>
    match asmWords [a, b, c, d], asmOperand 64 start, asmOperand 64 stop with
    | some [a, b, c, d], some start, some stop => some (.minePerm a b c d start stop)
    | _, _, _ => none
  | m, ops =>
    match asmWords ops with
    | some ws => asmPlain m ws
    | none => none

/-! ### Text -/

/-- What one line of assembly says. -/
inductive AsmLine where
  | blank
  | org (addr : Nat)
  | command (i : Instr)
deriving DecidableEq, Repr

/-- The value of a digit in base 10 or 16; DESIGN CHOICE (log 12): a hexadecimal letter counts in either case. -/
def digitValue (c : Char) : Option Nat :=
  let n := c.toNat
  if 48 ≤ n && n ≤ 57 then some (n - 48)
  else if 97 ≤ n && n ≤ 102 then some (n - 87)
  else if 65 ≤ n && n ≤ 70 then some (n - 55)
  else none

/-- Digits in a base, most significant first, after the value `acc` of those before them. -/
def digitsValue (base : Nat) : Nat → List Char → Option Nat
  | acc, [] => some acc
  | acc, c :: cs =>
    match digitValue c with
    | some d => if d < base then digitsValue base (base * acc + d) cs else none
    | none => none

/-- A decimal or `0x` hexadecimal number (R58); DESIGN CHOICE (log 12): the prefix is taken in lower case only, as R58
writes it. -/
def parseNumber (cs : List Char) : Option Nat :=
  match cs with
  | [] => none
  | '0' :: 'x' :: [] => none
  | '0' :: 'x' :: rest => digitsValue 16 0 rest
  | _ => digitsValue 10 0 cs

/-- Drop white space at the front. -/
def trimLeft : List Char → List Char
  | [] => []
  | c :: cs => if c.isWhitespace then trimLeft cs else c :: cs

/-- Drop white space at both ends. -/
def trim (cs : List Char) : List Char := (trimLeft (trimLeft cs).reverse).reverse

/-- The pieces of a text between commas; `cur` is the piece being read, last character first. -/
def splitCommas : List Char → List Char → List (List Char)
  | cur, [] => [cur.reverse]
  | cur, c :: cs => if c = ',' then cur.reverse :: splitCommas [] cs else splitCommas (c :: cur) cs

/-- Every piece as a number, or nothing. -/
def parseNumbers : List (List Char) → Option (List Nat)
  | [] => some []
  | p :: ps =>
    match parseNumber (trim p), parseNumbers ps with
    | some n, some ns => some (n :: ns)
    | _, _ => none

/-- One line (R58): a comment starts at `;`, the first word is the mnemonic in any case, or `.org`. DESIGN CHOICE (log 12):
`.org` is taken in any case too, which R58 says of mnemonics only, and white space around a word or a number is ignored. -/
def parseLine (line : List Char) : Option AsmLine :=
  let text := trim (line.takeWhile (· != ';'))
  let word := (text.takeWhile fun c => !c.isWhitespace).map Char.toUpper
  let rest := trim (text.dropWhile fun c => !c.isWhitespace)
  match text with
  | [] => some .blank
  | _ =>
    match parseNumbers (if rest.isEmpty then [] else splitCommas [] rest) with
    | none => none
    | some ops =>
      if word = ['.', 'O', 'R', 'G'] then
        match ops with
        | [a] => if a % 64 = 0 then some (.org a) else none
        | _ => none
      else (assembleCommand (String.ofList word) ops).map .command

/-- Place the commands of a program (R58): `.org` sets the address of the next descriptor, and each descriptor moves it by 64.
DESIGN CHOICE (log 12): a command before any `.org` has no address, and a later or backward `.org` may place a descriptor at an
address that another has; both are kept, in the order of their lines. -/
def placeLines : Option Nat → List AsmLine → Option (List (Nat × Instr))
  | _, [] => some []
  | at_, .blank :: ls => placeLines at_ ls
  | _, .org a :: ls => placeLines (some a) ls
  | none, .command _ :: _ => none
  | some a, .command i :: ls => (placeLines (some (a + 64)) ls).map ((a, i) :: ·)

/-- Every line of a program parsed. -/
def parseLines : List (List Char) → Option (List AsmLine)
  | [] => some []
  | l :: ls =>
    match parseLine l, parseLines ls with
    | some x, some xs => some (x :: xs)
    | _, _ => none

/-- A program's text as placed commands. -/
def assemble (lines : List (List Char)) : Option (List (Nat × Instr)) :=
  (parseLines lines).bind (placeLines none)

/-- `BM` after the descriptors of an assembled program are written into it, in the order of their lines. DESIGN CHOICE
(log 12): of two at one address the later line overwrites the earlier, and no size of `BM` is checked. -/
def loadProgram (m : Memory) (p : List (Nat × Instr)) : Memory :=
  m.writeAll (p.map fun x => (x.1, encode x.2))

/-- Numbers as a comma-separated text. -/
def joinNumbers (ns : List Nat) : String := ", ".intercalate (ns.map toString)

/-- The disassembly of a descriptor (R58): the command with decimal operands, or `.invalid` and the sixteen words. -/
def disassemble (c : Config) (bs : List Byte) : String :=
  match decode c bs with
  | .ok i =>
    match asmOperands i with
    | [] => mnemonicOf i
    | ops => mnemonicOf i ++ " " ++ joinNumbers ops
  | .error _ => ".invalid " ++ joinNumbers ((le32s 16 bs).map (·.toNat))

end Sys2Proof.Machine
end

