-- ==== Sys2Proof/Safety.lean ====
section
/-! DEFINITION. What holds of every state a run can reach, and what a safe step is, in the words the statements use. -/

namespace Sys2Proof.Machine

/-- The nonce-search commands, the only ones that write the result registers (spec/10_state.md R25). -/
def isSearch : Instr → Bool
  | .mineSha256d _ _ _ _ _ => true
  | .minePerm _ _ _ _ _ _ => true
  | .halt | .nop | .sha256Iv _ | .sha256Compress _ _ _ | .sha256 _ _ _ | .sha256d _ _ _ | .sha512Iv _
  | .sha512Compress _ _ _ | .sha512 _ _ _ | .hmacSha256 _ _ _ _ _ | .pbkdf2Sha256 _ _ _ _ _ _ _
  | .salsaCore _ _ | .blockmix _ _ _ | .romix _ _ _ _ | .scrypt _ _ _ _ _ _ _ _ _ _ | .permIv _
  | .permCompress _ _ _ _ _ _ | .permHash _ _ _ => false

/-- Every written byte of `BM` has an address below `MEM_BYTES` (spec/10_state.md R27). -/
def State.memInBounds (s : State) : Prop := ∀ x ∈ s.mem, x.1 < s.cfg.memBytes

/-- The error report agrees with itself (R24): no information without a cause, and a cause that R121 names. -/
def State.errorReportOk (s : State) : Prop :=
  s.errCause.toNat ≤ 7 ∧ (s.errCause = 0 → s.errInfo = 0)

/-- While a list runs, `DONE`, `ERR_CAUSE` and `ERR_INFO` are 0 (spec/40_control.md R60, R65, spec/60_exceptions.md
R120): START clears them and only the end of the list sets them. -/
def State.runningClean (s : State) : Prop :=
  s.mode = .running → s.done = false ∧ s.errCause = 0 ∧ s.errInfo = 0

/-- The machine invariant: legal parameters, `BM` in canonical form and inside its size, and a consistent error
report. -/
structure State.Inv (s : State) : Prop where
  cfgOk    : s.cfg.wf = true
  memWf    : s.mem.wf
  memIn    : s.memInBounds
  report   : s.errorReportOk
  clean    : s.runningClean

/-! ### The words of the statements -/

/-- The state a fault leaves (spec/60_exceptions.md R120, R126), with a code of R121 and its information word: the engine
idle, `DONE` set, the report written, and nothing else changed. -/
def State.faulted (s : State) (code : BitVec 4) (info : Word) : State :=
  { s with mode := .idle, done := true, errCause := code, errInfo := info }

/-- How many operand words an opcode uses, from the table of spec/30_encoding.md R53; `none` where R55 assigns no command. -/
def usedWordCount (op : Nat) : Option Nat :=
  match op with
  | 0x01 => some 0
  | 0x02 => some 0
  | 0x10 => some 1
  | 0x11 => some 3
  | 0x12 => some 3
  | 0x13 => some 3
  | 0x18 => some 1
  | 0x19 => some 3
  | 0x1A => some 3
  | 0x20 => some 5
  | 0x21 => some 7
  | 0x28 => some 2
  | 0x29 => some 3
  | 0x2A => some 4
  | 0x2B => some 10
  | 0x30 => some 1
  | 0x31 => some 7
  | 0x32 => some 3
  | 0x40 => some 5
  | 0x41 => some 8
  | _ => none

/-- The bytes a command stores to, as (address, length) spans: its O, IO and S regions in the table of R53. -/
def storeSpans : Instr → List (Nat × Nat)
  | .halt => []
  | .nop => []
  | .sha256Iv dst => [(dst.toNat, 32)]
  | .sha256Compress dst _ _ => [(dst.toNat, 32)]
  | .sha256 dst _ _ => [(dst.toNat, 32)]
  | .sha256d dst _ _ => [(dst.toNat, 32)]
  | .sha512Iv dst => [(dst.toNat, 64)]
  | .sha512Compress dst _ _ => [(dst.toNat, 64)]
  | .sha512 dst _ _ => [(dst.toNat, 64)]
  | .hmacSha256 dst _ _ _ _ => [(dst.toNat, 32)]
  | .pbkdf2Sha256 dst dkLen _ _ _ _ _ => [(dst.toNat, dkLen.toNat)]
  | .salsaCore dst _ => [(dst.toNat, 64)]
  | .blockmix dst _ r => [(dst.toNat, 128 * r.toNat)]
  | .romix blk v n r => [(blk.toNat, 128 * r.toNat), (v.toNat, 128 * r.toNat * n.toNat)]
  | .scrypt dst dkLen _ _ _ _ n r p work =>
    [(dst.toNat, dkLen.toNat), (work.toNat, 128 * r.toNat * (p.toNat + n.toNat))]
  | .permIv dst => [(dst.toNat, 32)]
  | .permCompress dst _ _ _ _ _ => [(dst.toNat, 64)]
  | .permHash dst _ _ => [(dst.toNat, 32)]
  | .mineSha256d res _ _ _ _ => [(res.toNat, 24)]
  | .minePerm res _ _ _ _ _ => [(res.toNat, 24)]

/-- The bytes a command reads from its snapshot, as (address, length) spans: its I and IO regions in the table of R53. -/
def loadSpans : Instr → List (Nat × Nat)
  | .halt => []
  | .nop => []
  | .sha256Iv _ => []
  | .sha256Compress _ state block => [(state.toNat, 32), (block.toNat, 64)]
  | .sha256 _ src len => [(src.toNat, len.toNat)]
  | .sha256d _ src len => [(src.toNat, len.toNat)]
  | .sha512Iv _ => []
  | .sha512Compress _ state block => [(state.toNat, 64), (block.toNat, 128)]
  | .sha512 _ src len => [(src.toNat, len.toNat)]
  | .hmacSha256 _ key keyLen msg msgLen => [(key.toNat, keyLen.toNat), (msg.toNat, msgLen.toNat)]
  | .pbkdf2Sha256 _ _ pwd pwdLen salt saltLen _ =>
    [(pwd.toNat, pwdLen.toNat), (salt.toNat, saltLen.toNat)]
  | .salsaCore _ src => [(src.toNat, 64)]
  | .blockmix _ src r => [(src.toNat, 128 * r.toNat)]
  | .romix blk _ _ r => [(blk.toNat, 128 * r.toNat)]
  | .scrypt _ _ pwd pwdLen salt saltLen _ _ _ _ =>
    [(pwd.toNat, pwdLen.toNat), (salt.toNat, saltLen.toNat)]
  | .permIv _ => []
  | .permCompress _ cv block _ _ _ => [(cv.toNat, 32), (block.toNat, 64)]
  | .permHash _ src len => [(src.toNat, len.toNat)]
  | .mineSha256d _ hdr target _ _ => [(hdr.toNat, 80), (target.toNat, 32)]
  | .minePerm _ data dlen _ _ _ => [(data.toNat, dlen.toNat)]

/-- The regions of a command as the table of R53 gives them, in ascending word order: the descriptor word that holds the
address, the address, and the length. -/
def regionTable : Instr → List (Nat × Nat × Nat)
  | .halt => []
  | .nop => []
  | .sha256Iv dst => [(1, dst.toNat, 32)]
  | .sha256Compress dst state block => [(1, dst.toNat, 32), (2, state.toNat, 32), (3, block.toNat, 64)]
  | .sha256 dst src len => [(1, dst.toNat, 32), (2, src.toNat, len.toNat)]
  | .sha256d dst src len => [(1, dst.toNat, 32), (2, src.toNat, len.toNat)]
  | .sha512Iv dst => [(1, dst.toNat, 64)]
  | .sha512Compress dst state block => [(1, dst.toNat, 64), (2, state.toNat, 64), (3, block.toNat, 128)]
  | .sha512 dst src len => [(1, dst.toNat, 64), (2, src.toNat, len.toNat)]
  | .hmacSha256 dst key keyLen msg msgLen =>
    [(1, dst.toNat, 32), (2, key.toNat, keyLen.toNat), (4, msg.toNat, msgLen.toNat)]
  | .pbkdf2Sha256 dst dkLen pwd pwdLen salt saltLen _ =>
    [(1, dst.toNat, dkLen.toNat), (3, pwd.toNat, pwdLen.toNat), (5, salt.toNat, saltLen.toNat)]
  | .salsaCore dst src => [(1, dst.toNat, 64), (2, src.toNat, 64)]
  | .blockmix dst src r => [(1, dst.toNat, 128 * r.toNat), (2, src.toNat, 128 * r.toNat)]
  | .romix blk v n r => [(1, blk.toNat, 128 * r.toNat), (2, v.toNat, 128 * r.toNat * n.toNat)]
  | .scrypt dst dkLen pwd pwdLen salt saltLen n r p work =>
    [(1, dst.toNat, dkLen.toNat), (3, pwd.toNat, pwdLen.toNat), (5, salt.toNat, saltLen.toNat),
     (10, work.toNat, 128 * r.toNat * (p.toNat + n.toNat))]
  | .permIv dst => [(1, dst.toNat, 32)]
  | .permCompress dst cv block _ _ _ => [(1, dst.toNat, 64), (2, cv.toNat, 32), (3, block.toNat, 64)]
  | .permHash dst src len => [(1, dst.toNat, 32), (2, src.toNat, len.toNat)]
  | .mineSha256d res hdr target _ _ => [(1, res.toNat, 24), (2, hdr.toNat, 80), (3, target.toNat, 32)]
  | .minePerm res data dlen _ _ _ => [(1, res.toNat, 24), (2, data.toNat, dlen.toNat)]

/-- The operand values of a command are legal: no condition of `ERR_PARAM` in spec/60_exceptions.md R121 holds, and a
SHA-512 command has its option (spec/30_encoding.md R56). -/
def legalValues (c : Config) : Instr → Prop
  | .sha512Iv _ => c.hasSha512 = true
  | .sha512Compress _ _ _ => c.hasSha512 = true
  | .sha512 _ _ _ => c.hasSha512 = true
  | .pbkdf2Sha256 _ dkLen _ _ _ _ iter => dkLen ≠ 0 ∧ iter ≠ 0
  | .blockmix _ _ r => r ≠ 0 ∧ 128 * r.toNat < 2 ^ 32
  | .romix _ _ n r => n ≠ 0 ∧ r ≠ 0 ∧ 128 * r.toNat * n.toNat < 2 ^ 32
  | .scrypt _ dkLen _ _ _ _ n r p _ =>
    dkLen ≠ 0 ∧ n ≠ 0 ∧ r ≠ 0 ∧ p ≠ 0 ∧ 128 * r.toNat * (p.toNat + n.toNat) < 2 ^ 32
  | .mineSha256d _ _ _ start stop => start.toNat ≤ stop.toNat
  | .minePerm _ _ dlen diff start stop => dlen.toNat ≤ 248 ∧ diff.toNat ≤ 256 ∧ start.toNat ≤ stop.toNat
  | .halt | .nop | .sha256Iv _ | .sha256Compress _ _ _ | .sha256 _ _ _ | .sha256d _ _ _ | .hmacSha256 _ _ _ _ _
  | .salsaCore _ _ | .permIv _ | .permCompress _ _ _ _ _ _ | .permHash _ _ _ => True

/-- An address lies in one of these spans. -/
def inSpans (spans : List (Nat × Nat)) (a : Nat) : Prop := ∃ p ∈ spans, p.1 ≤ a ∧ a < p.1 + p.2

/-- Every check a command makes passes (spec/40_control.md R63, R64): its operand values are legal, its regions are in
bounds, and no forbidden pair of them overlaps. -/
def checksPass (c : Config) (i : Instr) : Prop := commandTrap c i = none

/-- `HALT`, the one command that ends a list (R65). -/
def isHalt : Instr → Bool
  | .halt => true
  | .nop | .sha256Iv _ | .sha256Compress _ _ _ | .sha256 _ _ _ | .sha256d _ _ _ | .sha512Iv _
  | .sha512Compress _ _ _ | .sha512 _ _ _ | .hmacSha256 _ _ _ _ _ | .pbkdf2Sha256 _ _ _ _ _ _ _
  | .salsaCore _ _ | .blockmix _ _ _ | .romix _ _ _ _ | .scrypt _ _ _ _ _ _ _ _ _ _ | .permIv _
  | .permCompress _ _ _ _ _ _ | .permHash _ _ _ | .mineSha256d _ _ _ _ _ | .minePerm _ _ _ _ _ _ => false

/-- What the engine fetches next (spec/40_control.md R61): the sixteen words of the descriptor at an aligned `CP` inside
`BM`, while a list runs and no other move is pending. -/
structure State.Fetches (s : State) (ws : List Word) : Prop where
  running : s.mode = .running
  noMove  : s.moves = []
  aligned : s.cp.toNat % 64 = 0
  inside  : s.cp.toNat + 64 ≤ s.cfg.memBytes
  words   : (s.mem.read s.cp.toNat 64).map (le32s 16) = some ws

end Sys2Proof.Machine
end

