-- ==== Sys2Proof/Certificates/Slice0/Obligations.lean ====
section
/-! DEFINITION. The statements about the block, each from numbered rules of spec/. Addresses and lengths are numbers; the bytes
a command stores to and loads from are the spans of R53 in Sys2Proof/Safety.lean. -/

section

open Sys2Proof Sys2Proof.Machine

/-! ### Encoding (spec/30_encoding.md) -/

/-- R50 to R54: the descriptor of every command the block has decodes to that command, with every value of every operand. -/
def Obligations.DecodeOfEncode : Prop :=
  ∀ (c : Config) (i : Instr), i.wf c = true → decode c (encode i) = .ok i

/-- R50 to R54, R57: only the descriptor of a command decodes to it, and only to a command the block has: no bit of a
descriptor is ignored. -/
def Obligations.EncodeOfDecode : Prop :=
  ∀ (c : Config) (bs : List Byte) (i : Instr), decode c bs = .ok i → bs = encode i ∧ i.wf c = true

/-- R51 to R55: descriptors written out byte by byte from the table of R53 decode to their commands. -/
def Obligations.WrittenDescriptorsDecode : Prop :=
  decode .default ([0x01, 0, 0, 0] ++ zeros 60) = .ok .halt ∧
  decode .default ([0x12, 0, 0, 0, 0x00, 0x20, 0, 0, 0x00, 0x10, 0, 0, 3, 0, 0, 0] ++ zeros 48)
    = .ok (.sha256 0x2000 0x1000 3) ∧
  decode .default
      ([0x2A, 0, 0, 0, 0x00, 0x01, 0, 0, 0x00, 0x40, 0, 0, 16, 0, 0, 0, 1, 0, 0, 0] ++ zeros 44)
    = .ok (.romix 0x100 0x4000 16 1) ∧
  decode .default
      ([0x31, 0, 0, 0, 0x00, 0x03, 0, 0, 0x00, 0x01, 0, 0, 0x00, 0x02, 0, 0, 0x78, 0x56, 0x34, 0x12]
        ++ [0xF0, 0xDE, 0xBC, 0x9A, 64, 0, 0, 0, 0x0B, 0, 0, 0] ++ zeros 32)
    = .ok (.permCompress 0x300 0x100 0x200 0x9ABCDEF012345678 64 0x0B) ∧
  decode .default
      ([0x41, 0, 0, 0, 0x20, 0x20, 0, 0, 0xC0, 0x10, 0, 0, 3, 0, 0, 0, 8, 0, 0, 0, 5, 0, 0, 0]
        ++ [0, 0, 0, 0, 0x88, 0x13, 0, 0, 1, 0, 0, 0] ++ zeros 28)
    = .ok (.minePerm 0x2020 0x10C0 3 8 5 0x100001388)

/-- R56, R62: fetching an unassigned opcode, or a SHA-512 one on a block without the option, is the fault `ERR_OPCODE` with the
opcode as information. -/
def Obligations.IllegalOpcodeFaults : Prop :=
  ∀ (s : State) (ws : List Word) (op : Nat), s.Fetches ws → op = (ws.getD 0 0).toNat % 256 →
    (op = 0 ∨ (0x03 ≤ op ∧ op ≤ 0x0F) ∨ (0x14 ≤ op ∧ op ≤ 0x17) ∨ (0x1B ≤ op ∧ op ≤ 0x1F) ∨
      (0x22 ≤ op ∧ op ≤ 0x27) ∨ (0x2C ≤ op ∧ op ≤ 0x2F) ∨ (0x33 ≤ op ∧ op ≤ 0x3F) ∨ 0x42 ≤ op ∨
      (s.cfg.hasSha512 = false ∧ 0x18 ≤ op ∧ op ≤ 0x1A)) →
    step s = .next (s.faulted 3 (BitVec.ofNat 32 op))

/-- R51, R54: under a legal opcode, a reserved bit of word 0 is `ERR_RESERVED` with information 0; then the first non-zero
unused word is `ERR_RESERVED` with its index; and with all of them zero the descriptor decodes, whatever its used words are. -/
def Obligations.ReservedBitsFault : Prop :=
  ∀ (s : State) (ws : List Word) (used : Nat), s.Fetches ws →
    usedWordCount ((ws.getD 0 0).toNat % 256) = some used →
    ¬(s.cfg.hasSha512 = false ∧ 0x18 ≤ (ws.getD 0 0).toNat % 256 ∧ (ws.getD 0 0).toNat % 256 ≤ 0x1A) →
    (256 ≤ (ws.getD 0 0).toNat → step s = .next (s.faulted 4 0)) ∧
    (∀ k, (ws.getD 0 0).toNat < 256 → used < k → k ≤ 15 → ws.getD k 0 ≠ 0 →
      (∀ j, used < j → j < k → ws.getD j 0 = 0) → step s = .next (s.faulted 4 (BitVec.ofNat 32 k))) ∧
    ((ws.getD 0 0).toNat < 256 → (∀ j, used < j → j ≤ 15 → ws.getD j 0 = 0) →
      ∃ i, operandWords i = (ws.drop 1).take used ∧ opcodeOf i = ws.getD 0 0 ∧ step s = exec i s)

/-- R58, R59: the assembler makes each command from its mnemonic and operands, a 64-bit pair being one operand, and
`HASHSCRYPT` is its expansion. -/
def Obligations.AssemblerMakesTheCommand : Prop :=
  (∀ i : Instr, assembleCommand (mnemonicOf i) (asmOperands i) = some i) ∧
  ∀ dst src len n r p work : Word,
    assembleCommand "HASHSCRYPT" ([dst, src, len, n, r, p, work].map (·.toNat))
      = some (.scrypt dst 32 src len src len n r p work)

/-! ### The engine's step (spec/40_control.md, spec/60_exceptions.md) -/

/-- R61, R62, R64: a running engine whose descriptor decodes runs that command, with nothing added around it; when other
agents act too, it does so when its move comes (log 5). -/
def Obligations.StepRunsDecodedCommand : Prop :=
  ∀ (s : State) (bs : List Byte) (i : Instr), s.mode = .running → s.cp.toNat % 64 = 0 →
    s.cp.toNat + 64 ≤ s.cfg.memBytes → s.mem.read s.cp.toNat 64 = some bs → decode s.cfg bs = .ok i →
    (s.moves = [] → step s = exec i s) ∧
    ∀ ms, step { s with moves := .engine :: ms } = exec i { s with moves := ms }

/-- R35, R61, R49: a fetch at an address that is not a multiple of 64 is `ERR_FETCH_ALIGN`, else one past the end of `BM` is
`ERR_FETCH_BOUNDS`, both with `CP` as information; else an unwritten byte of the descriptor is the model's fault. -/
def Obligations.FetchFaults : Prop :=
  ∀ s : State, s.mode = .running → s.moves = [] →
    (s.cp.toNat % 64 ≠ 0 → step s = .next (s.faulted 1 s.cp)) ∧
    (s.cp.toNat % 64 = 0 → s.cfg.memBytes < s.cp.toNat + 64 → step s = .next (s.faulted 2 s.cp)) ∧
    (s.cp.toNat % 64 = 0 → s.cp.toNat + 64 ≤ s.cfg.memBytes →
      (∃ k, k < 64 ∧ s.mem.get (s.cp.toNat + k) = none) → step s = .fault .unwrittenByte)

/-- R121, R124: the conditions of `ERR_PARAM`, command by command, each where those before it hold. -/
def Obligations.ParameterFaults : Prop :=
  ∀ s : State,
    (∀ dst dkLen pwd pwdLen salt saltLen iter,
      (dkLen = 0 → exec (.pbkdf2Sha256 dst dkLen pwd pwdLen salt saltLen iter) s = .next (s.faulted 5 2)) ∧
      (dkLen ≠ 0 → iter = 0 →
        exec (.pbkdf2Sha256 dst dkLen pwd pwdLen salt saltLen iter) s = .next (s.faulted 5 7))) ∧
    (∀ dst src r, r = 0 ∨ 2 ^ 32 ≤ 128 * r.toNat → exec (.blockmix dst src r) s = .next (s.faulted 5 3)) ∧
    (∀ blk v n r,
      (n = 0 → exec (.romix blk v n r) s = .next (s.faulted 5 3)) ∧
      (n ≠ 0 → r = 0 → exec (.romix blk v n r) s = .next (s.faulted 5 4)) ∧
      (2 ^ 32 ≤ 128 * r.toNat * n.toNat → exec (.romix blk v n r) s = .next (s.faulted 5 3))) ∧
    (∀ dst dkLen pwd pwdLen salt saltLen n r p work,
      (dkLen = 0 →
        exec (.scrypt dst dkLen pwd pwdLen salt saltLen n r p work) s = .next (s.faulted 5 2)) ∧
      (dkLen ≠ 0 → n = 0 →
        exec (.scrypt dst dkLen pwd pwdLen salt saltLen n r p work) s = .next (s.faulted 5 7)) ∧
      (dkLen ≠ 0 → n ≠ 0 → r = 0 →
        exec (.scrypt dst dkLen pwd pwdLen salt saltLen n r p work) s = .next (s.faulted 5 8)) ∧
      (dkLen ≠ 0 → n ≠ 0 → r ≠ 0 → p = 0 →
        exec (.scrypt dst dkLen pwd pwdLen salt saltLen n r p work) s = .next (s.faulted 5 9)) ∧
      (dkLen ≠ 0 → n ≠ 0 → r ≠ 0 → p ≠ 0 → 2 ^ 32 ≤ 128 * r.toNat * (p.toNat + n.toNat) →
        exec (.scrypt dst dkLen pwd pwdLen salt saltLen n r p work) s = .next (s.faulted 5 7))) ∧
    (∀ res hdr target start stop, stop.toNat < start.toNat →
      exec (.mineSha256d res hdr target start stop) s = .next (s.faulted 5 5)) ∧
    (∀ res data dlen diff start stop,
      (248 < dlen.toNat → exec (.minePerm res data dlen diff start stop) s = .next (s.faulted 5 3)) ∧
      (dlen.toNat ≤ 248 → 256 < diff.toNat →
        exec (.minePerm res data dlen diff start stop) s = .next (s.faulted 5 4)) ∧
      (dlen.toNat ≤ 248 → diff.toNat ≤ 256 → stop.toNat < start.toNat →
        exec (.minePerm res data dlen diff start stop) s = .next (s.faulted 5 7)))

/-- R34, R53, R63, R124: with the regions of each command written out from the table of R53 (address word, address, length):
the address stands in the descriptor word named, the words ascend, and, when every operand value is legal, the first region in
that order that runs past `MEM_BYTES` is `ERR_BOUNDS` with the index of its address word; an empty region needs its address to
be at most `MEM_BYTES`. -/
def Obligations.FirstRegionOutOfBoundsFaults : Prop :=
  ∀ i : Instr,
    (∀ p ∈ regionTable i, ((le32s 16 (encode i)).getD p.1 0).toNat = p.2.1) ∧
    (regionTable i).Pairwise (fun p q => p.1 < q.1) ∧
    ∀ (s : State) (before : List (Nat × Nat × Nat)) (wa addr len : Nat) (after : List (Nat × Nat × Nat)),
      legalValues s.cfg i → regionTable i = before ++ (wa, addr, len) :: after →
      (∀ q ∈ before, q.2.1 + q.2.2 ≤ s.cfg.memBytes) → s.cfg.memBytes < addr + len →
      exec i s = .next (s.faulted 6 (BitVec.ofNat 32 wa))

/-- R40, R63, R102, R103: with legal values and regions in bounds, a scratch region that shares a byte with another region is
`ERR_OVERLAP`, the first pair in word order reported; and no command but these two raises it. -/
def Obligations.OverlapFaults : Prop :=
  (∀ (s : State) (blk v n r : Word), n ≠ 0 → r ≠ 0 → 128 * r.toNat * n.toNat < 2 ^ 32 →
    blk.toNat + 128 * r.toNat ≤ s.cfg.memBytes → v.toNat + 128 * r.toNat * n.toNat ≤ s.cfg.memBytes →
    (∃ a, inSpans [(blk.toNat, 128 * r.toNat)] a ∧ inSpans [(v.toNat, 128 * r.toNat * n.toNat)] a) →
    exec (.romix blk v n r) s = .next (s.faulted 7 0x0201)) ∧
  (∀ (s : State) (dst dkLen pwd pwdLen salt saltLen n r p work : Word),
    let size := 128 * r.toNat * (p.toNat + n.toNat)
    let meets := fun a len : Word => ∃ x, inSpans [(a.toNat, len.toNat)] x ∧ inSpans [(work.toNat, size)] x
    dkLen ≠ 0 → n ≠ 0 → r ≠ 0 → p ≠ 0 → size < 2 ^ 32 →
    dst.toNat + dkLen.toNat ≤ s.cfg.memBytes → pwd.toNat + pwdLen.toNat ≤ s.cfg.memBytes →
    salt.toNat + saltLen.toNat ≤ s.cfg.memBytes → work.toNat + size ≤ s.cfg.memBytes →
    (meets dst dkLen →
      exec (.scrypt dst dkLen pwd pwdLen salt saltLen n r p work) s = .next (s.faulted 7 0x0A01)) ∧
    (¬meets dst dkLen → meets pwd pwdLen →
      exec (.scrypt dst dkLen pwd pwdLen salt saltLen n r p work) s = .next (s.faulted 7 0x0A03)) ∧
    (¬meets dst dkLen → ¬meets pwd pwdLen → meets salt saltLen →
      exec (.scrypt dst dkLen pwd pwdLen salt saltLen n r p work) s = .next (s.faulted 7 0x0A05))) ∧
  (∀ (c : Config) (i : Instr) (t : Trap), commandTrap c i = some t → t.cause = .overlap →
    (∃ blk v n r, i = .romix blk v n r) ∨
    (∃ dst dkLen pwd pwdLen salt saltLen n r p work,
      i = .scrypt dst dkLen pwd pwdLen salt saltLen n r p work))

/-- R120, R126: a fault is precise. An engine step that leaves a cause leaves one of R121's codes, `STATUS` = `DONE` and `ERR`,
and every other piece of state, `CP`, `BM` and the result registers included, as it was. -/
def Obligations.EngineFaultIsPrecise : Prop :=
  ∀ s t : State, s.runningClean → s.mode = .running → s.moves = [] → step s = .next t → t.errCause ≠ 0 →
    1 ≤ t.errCause.toNat ∧ t.errCause.toNat ≤ 7 ∧ t = s.faulted t.errCause t.errInfo ∧ t.statusWord = 6

/-- R49, R122: a command has no data-dependent stop but the model's fault on an unwritten byte, which it takes exactly when its
checks pass and a byte it loads is unwritten; and no engine step is refused. -/
def Obligations.OnlyUnwrittenBytesStopACommand : Prop :=
  (∀ (i : Instr) (s : State),
    exec i s = .fault .unwrittenByte ↔
      checksPass s.cfg i ∧ ∃ a, inSpans (loadSpans i) a ∧ s.mem.get a = none) ∧
  (∀ (s : State) (r : Refusal), s.moves = [] → step s ≠ .refused r)

/-- R67: a list stops within `(MEM_BYTES − cp)/64 + 1` engine steps, unless it reads an unwritten byte (R49).
(A step of a stopped engine changes nothing: log 5.) -/
def Obligations.ListStopsInTime : Prop :=
  ∀ s : State, s.cfg.wf = true → s.mode = .running → s.moves = [] →
    (∃ t : State, Sys2Proof.core.run ((s.cfg.memBytes - s.cp.toNat) / 64 + 1) s = .next t ∧ t.mode = .idle ∧
      t.done = true) ∨
    Sys2Proof.core.run ((s.cfg.memBytes - s.cp.toNat) / 64 + 1) s = .fault .unwrittenByte

/-- R64, R66: an engine step either leaves the report of a fault, or moves `CP` up by 64, to at most `MEM_BYTES`, so that it
never wraps; a list that reaches the top of `BM` stops there with `ERR_FETCH_BOUNDS`. -/
def Obligations.CommandPointerNeverWraps : Prop :=
  ∀ s t : State, s.cfg.wf = true → s.runningClean → s.mode = .running → s.moves = [] → step s = .next t →
    ((t.errCause ≠ 0 ∧ t.cp = s.cp) ∨
      (t.errCause = 0 ∧ t.cp.toNat = s.cp.toNat + 64 ∧ t.cp.toNat ≤ s.cfg.memBytes ∧
        t.cp.toNat ≤ 2 ^ 31)) ∧
    (s.cp.toNat = s.cfg.memBytes → t = s.faulted 2 s.cp)

/-! ### What each command completes with -/

/-- R68, R69: `HALT` moves `CP` past it and stops the list; `NOP` only moves `CP`. -/
def Obligations.HaltAndNopComplete : Prop :=
  ∀ s : State,
    exec .halt s = .next { s with cp := s.cp + 64, mode := .idle, done := true } ∧
    exec .nop s = .next { s with cp := s.cp + 64 }

/-- R77, R86, R110: the initial values, written out: big-endian words of SHA-256 and SHA-512, little-endian ones of the
permutation hash. -/
def Obligations.InitialValuesComplete : Prop :=
  ∀ (s : State) (dst : Word),
    (dst.toNat + 32 ≤ s.cfg.memBytes →
      exec (.sha256Iv dst) s = .next { s with
        cp := s.cp + 64
        mem := s.mem.write dst.toNat
          ([0x6a, 0x09, 0xe6, 0x67, 0xbb, 0x67, 0xae, 0x85, 0x3c, 0x6e, 0xf3, 0x72, 0xa5, 0x4f, 0xf5, 0x3a]
            ++ [0x51, 0x0e, 0x52, 0x7f, 0x9b, 0x05, 0x68, 0x8c, 0x1f, 0x83, 0xd9, 0xab, 0x5b, 0xe0, 0xcd, 0x19]) }) ∧
    (s.cfg.hasSha512 = true → dst.toNat + 64 ≤ s.cfg.memBytes →
      exec (.sha512Iv dst) s = .next { s with
        cp := s.cp + 64
        mem := s.mem.write dst.toNat
          ([0x6a, 0x09, 0xe6, 0x67, 0xf3, 0xbc, 0xc9, 0x08, 0xbb, 0x67, 0xae, 0x85, 0x84, 0xca, 0xa7, 0x3b]
            ++ [0x3c, 0x6e, 0xf3, 0x72, 0xfe, 0x94, 0xf8, 0x2b, 0xa5, 0x4f, 0xf5, 0x3a, 0x5f, 0x1d, 0x36, 0xf1]
            ++ [0x51, 0x0e, 0x52, 0x7f, 0xad, 0xe6, 0x82, 0xd1, 0x9b, 0x05, 0x68, 0x8c, 0x2b, 0x3e, 0x6c, 0x1f]
            ++ [0x1f, 0x83, 0xd9, 0xab, 0xfb, 0x41, 0xbd, 0x6b, 0x5b, 0xe0, 0xcd, 0x19, 0x13, 0x7e, 0x21, 0x79]) }) ∧
    (dst.toNat + 32 ≤ s.cfg.memBytes →
      exec (.permIv dst) s = .next { s with
        cp := s.cp + 64
        mem := s.mem.write dst.toNat
          ([0x67, 0xe6, 0x09, 0x6a, 0x85, 0xae, 0x67, 0xbb, 0x72, 0xf3, 0x6e, 0x3c, 0x3a, 0xf5, 0x4f, 0xa5]
            ++ [0x7f, 0x52, 0x0e, 0x51, 0x8c, 0x68, 0x05, 0x9b, 0xab, 0xd9, 0x83, 0x1f, 0x19, 0xcd, 0xe0, 0x5b]) })

/-- R78, R79, R80: the SHA-256 commands complete with the compression, hash or double hash of the bytes their input regions held,
wherever the output lies. -/
def Obligations.Sha256CommandsComplete : Prop :=
  (∀ (s : State) (dst state block : Word) (st bl : List Byte), dst.toNat + 32 ≤ s.cfg.memBytes →
    state.toNat + 32 ≤ s.cfg.memBytes → block.toNat + 64 ≤ s.cfg.memBytes →
    s.mem.read state.toNat 32 = some st → s.mem.read block.toNat 64 = some bl →
    exec (.sha256Compress dst state block) s = .next { s with
      cp := s.cp + 64
      mem := s.mem.write dst.toNat
        (beWordsBytes 4 (sha2Compress sha256Alg (beWords 32 4 8 st) bl)) }) ∧
  (∀ (s : State) (dst src len : Word) (m : List Byte), dst.toNat + 32 ≤ s.cfg.memBytes →
    src.toNat + len.toNat ≤ s.cfg.memBytes → s.mem.read src.toNat len.toNat = some m →
    exec (.sha256 dst src len) s = .next { s with
      cp := s.cp + 64, mem := s.mem.write dst.toNat (sha256Hash m) } ∧
    exec (.sha256d dst src len) s = .next { s with
      cp := s.cp + 64, mem := s.mem.write dst.toNat (sha256Hash (sha256Hash m)) })

/-- R87, R88: the SHA-512 commands, on a block that has the option. -/
def Obligations.Sha512CommandsComplete : Prop :=
  (∀ (s : State) (dst state block : Word) (st bl : List Byte), s.cfg.hasSha512 = true →
    dst.toNat + 64 ≤ s.cfg.memBytes → state.toNat + 64 ≤ s.cfg.memBytes →
    block.toNat + 128 ≤ s.cfg.memBytes → s.mem.read state.toNat 64 = some st →
    s.mem.read block.toNat 128 = some bl →
    exec (.sha512Compress dst state block) s = .next { s with
      cp := s.cp + 64
      mem := s.mem.write dst.toNat
        (beWordsBytes 8 (sha2Compress sha512Alg (beWords 64 8 8 st) bl)) }) ∧
  (∀ (s : State) (dst src len : Word) (m : List Byte), s.cfg.hasSha512 = true →
    dst.toNat + 64 ≤ s.cfg.memBytes → src.toNat + len.toNat ≤ s.cfg.memBytes →
    s.mem.read src.toNat len.toNat = some m →
    exec (.sha512 dst src len) s = .next { s with
      cp := s.cp + 64, mem := s.mem.write dst.toNat (sha512Hash m) })

/-- R92, R93: the keyed hash and the key expansion. -/
def Obligations.KeyedHashCommandsComplete : Prop :=
  (∀ (s : State) (dst key keyLen msg msgLen : Word) (k m : List Byte), dst.toNat + 32 ≤ s.cfg.memBytes →
    key.toNat + keyLen.toNat ≤ s.cfg.memBytes → msg.toNat + msgLen.toNat ≤ s.cfg.memBytes →
    s.mem.read key.toNat keyLen.toNat = some k → s.mem.read msg.toNat msgLen.toNat = some m →
    exec (.hmacSha256 dst key keyLen msg msgLen) s = .next { s with
      cp := s.cp + 64, mem := s.mem.write dst.toNat (hmacSha256 k m) }) ∧
  (∀ (s : State) (dst dkLen pwd pwdLen salt saltLen iter : Word) (p sa : List Byte), dkLen ≠ 0 → iter ≠ 0 →
    dst.toNat + dkLen.toNat ≤ s.cfg.memBytes → pwd.toNat + pwdLen.toNat ≤ s.cfg.memBytes →
    salt.toNat + saltLen.toNat ≤ s.cfg.memBytes → s.mem.read pwd.toNat pwdLen.toNat = some p →
    s.mem.read salt.toNat saltLen.toNat = some sa →
    exec (.pbkdf2Sha256 dst dkLen pwd pwdLen salt saltLen iter) s = .next { s with
      cp := s.cp + 64
      mem := s.mem.write dst.toNat (pbkdf2Sha256 p sa iter.toNat dkLen.toNat) })

/-- R100, R101: the stream-cipher core and BlockMix. -/
def Obligations.SalsaAndBlockmixComplete : Prop :=
  (∀ (s : State) (dst src : Word) (b : List Byte), dst.toNat + 64 ≤ s.cfg.memBytes →
    src.toNat + 64 ≤ s.cfg.memBytes → s.mem.read src.toNat 64 = some b →
    exec (.salsaCore dst src) s = .next { s with
      cp := s.cp + 64, mem := s.mem.write dst.toNat (salsaCore s.cfg.salsaDoubleRounds b) }) ∧
  (∀ (s : State) (dst src r : Word) (b : List Byte), r ≠ 0 → 128 * r.toNat < 2 ^ 32 →
    dst.toNat + 128 * r.toNat ≤ s.cfg.memBytes → src.toNat + 128 * r.toNat ≤ s.cfg.memBytes →
    s.mem.read src.toNat (128 * r.toNat) = some b →
    exec (.blockmix dst src r) s = .next { s with
      cp := s.cp + 64, mem := s.mem.write dst.toNat (blockmix s.cfg.salsaDoubleRounds r.toNat b) })

/-- R102: ROMix in place; the scratch region ends with the filled table. -/
def Obligations.RomixCompletes : Prop :=
  ∀ (s : State) (blk v n r : Word) (b : List Byte), n ≠ 0 → r ≠ 0 → 128 * r.toNat * n.toNat < 2 ^ 32 →
    blk.toNat + 128 * r.toNat ≤ s.cfg.memBytes → v.toNat + 128 * r.toNat * n.toNat ≤ s.cfg.memBytes →
    (∀ a, ¬(inSpans [(blk.toNat, 128 * r.toNat)] a ∧ inSpans [(v.toNat, 128 * r.toNat * n.toNat)] a)) →
    s.mem.read blk.toNat (128 * r.toNat) = some b →
    exec (.romix blk v n r) s = .next { s with
      cp := s.cp + 64
      mem := (s.mem.write v.toNat (romix s.cfg.salsaDoubleRounds n.toNat r.toNat b).2.flatten).write
        blk.toNat (romix s.cfg.salsaDoubleRounds n.toNat r.toNat b).1 }

/-- R103: the scrypt derivation; the scratch region ends with the mixed lanes and the last lane's table. -/
def Obligations.ScryptCompletes : Prop :=
  ∀ (s : State) (dst dkLen pwd pwdLen salt saltLen n r p work : Word) (pw sa : List Byte),
    let size := 128 * r.toNat * (p.toNat + n.toNat)
    let out := scrypt s.cfg.salsaDoubleRounds pw sa n.toNat r.toNat p.toNat dkLen.toNat
    dkLen ≠ 0 → n ≠ 0 → r ≠ 0 → p ≠ 0 → size < 2 ^ 32 →
    dst.toNat + dkLen.toNat ≤ s.cfg.memBytes → pwd.toNat + pwdLen.toNat ≤ s.cfg.memBytes →
    salt.toNat + saltLen.toNat ≤ s.cfg.memBytes → work.toNat + size ≤ s.cfg.memBytes →
    (∀ a, inSpans [(work.toNat, size)] a →
      ¬inSpans [(dst.toNat, dkLen.toNat), (pwd.toNat, pwdLen.toNat), (salt.toNat, saltLen.toNat)] a) →
    s.mem.read pwd.toNat pwdLen.toNat = some pw → s.mem.read salt.toNat saltLen.toNat = some sa →
    exec (.scrypt dst dkLen pwd pwdLen salt saltLen n r p work) s = .next { s with
      cp := s.cp + 64
      mem := (s.mem.write work.toNat (out.lanes ++ out.table)).write dst.toNat out.key }

/-- R111, R112: one compression with every input supplied, and the hash of a byte string. -/
def Obligations.PermCommandsComplete : Prop :=
  (∀ (s : State) (dst cv block : Word) (ctr : Word64) (blen flags : Word) (c b : List Byte),
    dst.toNat + 64 ≤ s.cfg.memBytes → cv.toNat + 32 ≤ s.cfg.memBytes →
    block.toNat + 64 ≤ s.cfg.memBytes → s.mem.read cv.toNat 32 = some c →
    s.mem.read block.toNat 64 = some b →
    exec (.permCompress dst cv block ctr blen flags) s = .next { s with
      cp := s.cp + 64
      mem := s.mem.write dst.toNat
        (le32sBytes (permCompress (le32s 8 c) (le32s 16 b) ctr blen flags)) }) ∧
  (∀ (s : State) (dst src len : Word) (m : List Byte), dst.toNat + 32 ≤ s.cfg.memBytes →
    src.toNat + len.toNat ≤ s.cfg.memBytes → s.mem.read src.toNat len.toNat = some m →
    exec (.permHash dst src len) s = .next { s with
      cp := s.cp + 64, mem := s.mem.write dst.toNat (permHash m) })

/-- R116, R117: header mining completes with the search over `START` to `END`, whether it finds a nonce or not: the record at
`RES` and the result registers, of which `RES_NONCE_HI` is 0 (R25). -/
def Obligations.MineSha256dCompletes : Prop :=
  ∀ (s : State) (res hdr target start stop : Word) (h t : List Byte), start.toNat ≤ stop.toNat →
    res.toNat + 24 ≤ s.cfg.memBytes → hdr.toNat + 80 ≤ s.cfg.memBytes →
    target.toNat + 32 ≤ s.cfg.memBytes → s.mem.read hdr.toNat 80 = some h →
    s.mem.read target.toNat 32 = some t →
    ∃ r : SearchResult,
      r = search start.toNat stop.toNat (fun n =>
        meetsTarget s.cfg.targetOrder (sha256Hash (sha256Hash (h.take 76 ++ leBytes 4 n))) t) ∧
      exec (.mineSha256d res hdr target start stop) s = .next { s with
        cp := s.cp + 64
        mem := s.mem.write res.toNat
          (leBytes 8 r.nonce.toNat ++ leBytes 8 r.count.toNat ++ [if r.found then 1 else 0] ++ zeros 7)
        resFound := r.found
        resNonceLo := BitVec.ofNat 32 r.nonce.toNat
        resNonceHi := 0
        resCountLo := BitVec.ofNat 32 r.count.toNat
        resCountHi := BitVec.ofNat 32 (r.count.toNat / 2 ^ 32) }

/-- R116, R118: data mining completes with the search over the 64-bit range. -/
def Obligations.MinePermCompletes : Prop :=
  ∀ (s : State) (res data dlen diff : Word) (start stop : Word64) (m : List Byte), dlen.toNat ≤ 248 →
    diff.toNat ≤ 256 → start.toNat ≤ stop.toNat → res.toNat + 24 ≤ s.cfg.memBytes →
    data.toNat + dlen.toNat ≤ s.cfg.memBytes → s.mem.read data.toNat dlen.toNat = some m →
    ∃ r : SearchResult,
      r = search start.toNat stop.toNat (fun n =>
        meetsDifficulty (permHash (m ++ leBytes 8 n)) diff.toNat) ∧
      exec (.minePerm res data dlen diff start stop) s = .next { s with
        cp := s.cp + 64
        mem := s.mem.write res.toNat
          (leBytes 8 r.nonce.toNat ++ leBytes 8 r.count.toNat ++ [if r.found then 1 else 0] ++ zeros 7)
        resFound := r.found
        resNonceLo := BitVec.ofNat 32 r.nonce.toNat
        resNonceHi := BitVec.ofNat 32 (r.nonce.toNat / 2 ^ 32)
        resCountLo := BitVec.ofNat 32 r.count.toNat
        resCountHi := BitVec.ofNat 32 (r.count.toNat / 2 ^ 32) }

/-! ### Frames -/

/-- R22, R25, R39, R64, R116, R120: what every command leaves unchanged when it has a next state: the interrupt enable, the
parameters and the model's own fields always; the result registers unless a nonce search completes; on a fault everything but
the mode, `DONE` and the report; on completion the report, `DONE` and the mode (but for `HALT`), and every byte outside the spans
it stores to. -/
def Obligations.CommandFrame : Prop :=
  ∀ (i : Instr) (s t : State), exec i s = .next t →
    t.ie = s.ie ∧ t.cfg = s.cfg ∧ t.moves = s.moves ∧ t.lastRead = s.lastRead ∧ t.freeCtr = s.freeCtr ∧
    t.bmEpoch = s.bmEpoch ∧
    (¬(isSearch i = true ∧ checksPass s.cfg i) →
      t.resFound = s.resFound ∧ t.resNonceLo = s.resNonceLo ∧ t.resNonceHi = s.resNonceHi ∧
      t.resCountLo = s.resCountLo ∧ t.resCountHi = s.resCountHi) ∧
    ((¬checksPass s.cfg i ∧ t.cp = s.cp ∧ t.mem = s.mem) ∨
      (checksPass s.cfg i ∧ t.cp = s.cp + 64 ∧ t.errCause = s.errCause ∧ t.errInfo = s.errInfo ∧
        (isHalt i = false → t.mode = s.mode ∧ t.done = s.done) ∧
        ∀ a, ¬inSpans (storeSpans i) a → t.mem.get a = s.mem.get a))

/-! ### Invariants and whole-machine rules -/

/-- The machine invariant: legal parameters (R5), `BM` in its canonical form and inside its size (R27), no report without a cause
and no reserved cause (R24, R121), and a clear report while a list runs (R60). Every step of every agent keeps it.
(The parameters stand in the state: log 1; moves: log 5.) -/
def Obligations.StepKeepsInv : Prop :=
  ∀ s t : State, s.Inv → step s = .next t → t.Inv

/-- R31, R131: the invariant holds after power-on reset, for every legal choice of the parameters, this hardware's included. -/
def Obligations.ResetInv : Prop :=
  State.reset.Inv ∧ ∀ c : Config, c.wf = true → (State.resetWith c).Inv

/-- R6: no step of any agent changes a parameter, so `CFG` and `MEMSIZE` read the same for ever.
(The parameters stand in the state: log 1; moves: log 5.) -/
def Obligations.ParametersNeverChange : Prop :=
  ∀ s t : State, step s = .next t →
    t.cfg = s.cfg ∧ readReg t .cfg = readReg s .cfg ∧ readReg t .memSize = readReg s .memSize

/-- R15: only a START write enters RUNNING; only HALT, a fault or a reset leaves it.
(Moves: log 5.) -/
def Obligations.OnlyStartEntersRunning : Prop :=
  ∀ s t : State, step s = .next t →
    (s.mode = .idle → t.mode = .running →
      ∃ v ms, s.moves = .write (s.cfg.regBase + 0x0C) 4 v :: ms ∧ v.getLsbD 0 = true ∧
        v.getLsbD 2 = false) ∧
    (s.mode = .running → t.mode = .idle →
      (∃ ms, s.moves = .powerOn :: ms) ∨
      (∃ v ms, s.moves = .write (s.cfg.regBase + 0x0C) 4 v :: ms ∧ v.getLsbD 2 = true) ∨
      ((s.moves = [] ∨ ∃ ms, s.moves = .engine :: ms) ∧
        (t.errCause ≠ 0 ∨ s.mem.read s.cp.toNat 64 = some (encode .halt))))

/-- R25: the result registers change only when a nonce search completes, or at a reset.
(Moves: log 5.) -/
def Obligations.OnlySearchesWriteResults : Prop :=
  ∀ s t : State, step s = .next t →
    (t.resFound, t.resNonceLo, t.resNonceHi, t.resCountLo, t.resCountHi)
      = (s.resFound, s.resNonceLo, s.resNonceHi, s.resCountLo, s.resCountHi) ∨
    (∃ ms, s.moves = .powerOn :: ms) ∨
    (∃ v ms, s.moves = .write (s.cfg.regBase + 0x0C) 4 v :: ms ∧ v.getLsbD 2 = true) ∨
    ((s.moves = [] ∨ ∃ ms, s.moves = .engine :: ms) ∧ s.mode = .running ∧
      ∃ i, s.mem.read s.cp.toNat 64 = some (encode i) ∧ isSearch i = true ∧ checksPass s.cfg i)

/-- R29, R38, R119: a command's results depend on nothing but its operands, the parameters and the bytes of its own input regions:
from any two states with the same parameters whose memories agree there, whatever their registers, it completes in both or in
neither, stores the same bytes, and, if it is a nonce search, leaves the same result registers. Where the two states differ in
`BM` alone, all the registers it leaves agree. -/
def Obligations.ResultsDependOnInputsAlone : Prop :=
  ∀ (i : Instr) (s t u : State), checksPass s.cfg i → exec i s = .next t → u.cfg = s.cfg →
    (∀ a, inSpans (loadSpans i) a → u.mem.get a = s.mem.get a) →
    ∃ v, exec i u = .next v ∧
      (∀ a, inSpans (storeSpans i) a → v.mem.get a = t.mem.get a) ∧
      (isSearch i = true →
        (v.resFound, v.resNonceLo, v.resNonceHi, v.resCountLo, v.resCountHi)
          = (t.resFound, t.resNonceLo, t.resNonceHi, t.resCountLo, t.resCountHi)) ∧
      ({ u with mem := s.mem } = s → { v with mem := t.mem } = t)

/-! ### The host and reset (spec/10_state.md, spec/70_reset_and_hazards.md) -/

/-- R16 to R25: what the host reads at each word of the window, with no side effect.
(Moves and the answer of a read: log 5, log 6.) -/
def Obligations.RegisterReads : Prop :=
  ∀ (s : State) (ms : List Move) (off : Nat) (v : Word), s.cfg.hostOrdered = true → s.cfg.roundsOk = true →
    (off, v) ∈
      [(0x00, 0x4D484501),
       (0x04, BitVec.ofNat 32 ((if s.cfg.hasSha512 then 1 else 0)
          + (if s.cfg.targetOrder = .byte31First then 2 else 0) + 256 * s.cfg.salsaDoubleRounds)),
       (0x08, BitVec.ofNat 32 s.cfg.memBytes),
       (0x0C, if s.ie then 2 else 0),
       (0x10, BitVec.ofNat 32 ((if s.mode = .running then 1 else 0) + (if s.done then 2 else 0)
          + (if s.errCause = 0 then 0 else 4))),
       (0x14, s.cp),
       (0x18, BitVec.ofNat 32 s.errCause.toNat),
       (0x1C, s.errInfo),
       (0x20, if s.resFound then 1 else 0),
       (0x24, s.resNonceLo),
       (0x28, s.resNonceHi),
       (0x2C, s.resCountLo),
       (0x30, s.resCountHi),
       (0x34, 0), (0x38, 0), (0x3C, 0)] →
    step { s with moves := .read (s.cfg.regBase + off) 4 :: ms }
      = .next { s with moves := ms, lastRead := some v }

/-- R17, R22, R23: a write of `STATUS` clears `DONE` where bit 1 is 1; a write of `CP` is stored while the block is idle and
ignored while it runs; a write of every other register but `CTRL` is ignored.
(Moves: log 5.) -/
def Obligations.RegisterWrites : Prop :=
  ∀ (s : State) (ms : List Move) (v : Word), s.cfg.hostOrdered = true →
    step { s with moves := .write (s.cfg.regBase + 0x10) 4 v :: ms }
      = .next { s with moves := ms, done := if v.getLsbD 1 then false else s.done } ∧
    step { s with moves := .write (s.cfg.regBase + 0x14) 4 v :: ms }
      = .next { s with moves := ms, cp := if s.mode = .idle then v else s.cp } ∧
    ∀ off ∈ [0x00, 0x04, 0x08, 0x18, 0x1C, 0x20, 0x24, 0x28, 0x2C, 0x30, 0x34, 0x38, 0x3C],
      step { s with moves := .write (s.cfg.regBase + off) 4 v :: ms } = .next { s with moves := ms }

/-- R21, R60: a `CTRL` write without `SRST` takes `IE`, even while BUSY, and then, if `START` is 1 and the block is idle, clears
`DONE` and the report and enters RUNNING; every other bit is ignored, and `CP` and the results are kept.
(Moves: log 5.) -/
def Obligations.ControlWriteStarts : Prop :=
  ∀ (s : State) (ms : List Move) (v : Word), s.cfg.hostOrdered = true → v.getLsbD 2 = false →
    (v.getLsbD 0 = true → s.mode = .idle →
      step { s with moves := .write (s.cfg.regBase + 0x0C) 4 v :: ms }
        = .next { s with
            moves := ms, ie := v.getLsbD 1, mode := .running, done := false, errCause := 0, errInfo := 0 }) ∧
    (v.getLsbD 0 = false ∨ s.mode = .running →
      step { s with moves := .write (s.cfg.regBase + 0x0C) 4 v :: ms }
        = .next { s with moves := ms, ie := v.getLsbD 1 })

/-- R127: resuming after a fault. A START that keeps `IE` gives back exactly the running state the fault was taken in, ready to
run the faulting descriptor again.
(Moves: log 5.) -/
def Obligations.StartResumesAfterFault : Prop :=
  ∀ (s : State) (code : BitVec 4) (info : Word), s.cfg.hostOrdered = true → s.mode = .running →
    s.runningClean → s.moves = [] →
    step { s.faulted code info with
        moves := [.write (s.cfg.regBase + 0x0C) 4 (if s.ie then 3 else 1)] } = .next s

/-- R31, R131, R132, with log 11: both resets leave the block idle with every register 0 and `IRQ` low, from any state. A power-on
reset leaves every byte of `BM` unwritten; a soft reset, which a `CTRL` write with `SRST` is whatever its other bits, is always
taken, and leaves `BM` as it was when the block was idle (when it ran, R133).
(Moves: log 5.) -/
def Obligations.ResetsClearTheRegisters : Prop :=
  ∀ (s : State) (ms : List Move) (v : Word), s.cfg.hostOrdered = true → v.getLsbD 2 = true →
    let zeroed := fun t : State =>
      t.mode = .idle ∧ t.cp = 0 ∧ t.ie = false ∧ t.statusWord = 0 ∧ t.errCause = 0 ∧ t.errInfo = 0 ∧
      t.resFound = false ∧ t.resNonceLo = 0 ∧ t.resNonceHi = 0 ∧ t.resCountLo = 0 ∧ t.resCountHi = 0 ∧
      t.irq = false ∧ t.cfg = s.cfg ∧ t.moves = ms ∧ t.lastRead = s.lastRead
    (∃ t, step { s with moves := .powerOn :: ms } = .next t ∧ zeroed t ∧ ∀ a, t.mem.get a = none) ∧
    (s.mode = .idle →
      ∃ t, step { s with moves := .write (s.cfg.regBase + 0x0C) 4 v :: ms } = .next t ∧ zeroed t ∧
        t.mem = s.mem) ∧
    ∃ t, step { s with moves := .write (s.cfg.regBase + 0x0C) 4 v :: ms } = .next t ∧ zeroed t

/-- R132, R133, with log 4 and log 10: a soft reset while a command with passing checks is at `CP` leaves every byte outside the
regions it writes as it was, and gives each byte inside them a free value of its own. Where the descriptor at `CP` would fault, by
its address, its decoding or its checks, the reset leaves all of `BM` as it was.
(Moves: log 5.) -/
def Obligations.InterruptedRegionsAreFree : Prop :=
  ∀ (s : State) (ms : List Move) (v : Word), s.cfg.hostOrdered = true → v.getLsbD 2 = true → s.mode = .running →
    (∀ i : Instr, s.cp.toNat % 64 = 0 → s.cp.toNat + 64 ≤ s.cfg.memBytes →
      s.mem.read s.cp.toNat 64 = some (encode i) → i.wf s.cfg = true → checksPass s.cfg i →
      ∃ t, step { s with moves := .write (s.cfg.regBase + 0x0C) 4 v :: ms } = .next t ∧
        (∀ a, ¬inSpans (storeSpans i) a → t.mem.get a = s.mem.get a) ∧
        ∃ draw : Nat → Nat,
          (∀ a b, inSpans (storeSpans i) a → inSpans (storeSpans i) b → draw a = draw b → a = b) ∧
          ∀ a, inSpans (storeSpans i) a →
            s.freeCtr ≤ draw a ∧ draw a < t.freeCtr ∧ t.mem.get a = some (Config.freeByte (draw a))) ∧
    ((s.cp.toNat % 64 ≠ 0 ∨ s.cfg.memBytes < s.cp.toNat + 64 ∨
        (∃ bs e, s.mem.read s.cp.toNat 64 = some bs ∧ decode s.cfg bs = .error e) ∨
        (∃ bs i, s.mem.read s.cp.toNat 64 = some bs ∧ decode s.cfg bs = .ok i ∧ ¬checksPass s.cfg i)) →
      ∃ t, step { s with moves := .write (s.cfg.regBase + 0x0C) 4 v :: ms } = .next t ∧ t.mem = s.mem)

/-- R26, R129: the interrupt output is the level `DONE ∧ IE`; a stop with `IE` set raises it; a write of 1 to `DONE`, of 0 to `IE`,
a START that takes effect, and each reset drop it.
(Moves: log 5.) -/
def Obligations.InterruptLevel : Prop :=
  (∀ s : State, s.irq = true ↔ s.done = true ∧ s.ie = true) ∧
  (∀ (s t : State), s.mode = .running → s.moves = [] → step s = .next t → t.mode = .idle → t.irq = s.ie) ∧
  (∀ (s t : State) (ms : List Move) (v : Word),
    step { s with moves := .write (s.cfg.regBase + 0x10) 4 v :: ms } = .next t → v.getLsbD 1 = true →
    t.irq = false) ∧
  (∀ (s t : State) (ms : List Move) (v : Word),
    step { s with moves := .write (s.cfg.regBase + 0x0C) 4 v :: ms } = .next t →
    (v.getLsbD 1 = false ∨ v.getLsbD 2 = true ∨ (v.getLsbD 0 = true ∧ s.mode = .idle)) → t.irq = false) ∧
  (∀ (s t : State) (ms : List Move), step { s with moves := .powerOn :: ms } = .next t → t.irq = false)

/-- R17, R36, R135, R139, with log 8: the accesses the model refuses: at the window, one that is not an aligned 32-bit one; at
the port, any while the block runs, and one that is not a byte wide while it is idle; and any that is at neither.
(Moves: log 5.) -/
def Obligations.HostAccessesRefused : Prop :=
  ∀ (s : State) (ms : List Move) (addr width : Nat) (v : Word), s.cfg.hostOrdered = true → s.cfg.wf = true →
    (s.cfg.regBase ≤ addr → addr < s.cfg.regBase + 64 → width ≠ 4 ∨ (addr - s.cfg.regBase) % 4 ≠ 0 →
      step { s with moves := .read addr width :: ms } = .refused .windowAccess ∧
      step { s with moves := .write addr width v :: ms } = .refused .windowAccess) ∧
    (s.cfg.hostBmBase ≤ addr → addr < s.cfg.hostBmBase + s.cfg.memBytes → s.mode = .running →
      step { s with moves := .read addr width :: ms } = .refused .portWhileBusy ∧
      step { s with moves := .write addr width v :: ms } = .refused .portWhileBusy) ∧
    (s.cfg.hostBmBase ≤ addr → addr < s.cfg.hostBmBase + s.cfg.memBytes → s.mode = .idle → width ≠ 1 →
      step { s with moves := .read addr width :: ms } = .refused .portWidth ∧
      step { s with moves := .write addr width v :: ms } = .refused .portWidth) ∧
    (addr < s.cfg.regBase ∨ s.cfg.regBase + 64 ≤ addr →
      addr < s.cfg.hostBmBase ∨ s.cfg.hostBmBase + s.cfg.memBytes ≤ addr →
      step { s with moves := .read addr width :: ms } = .refused .notTheBlock ∧
      step { s with moves := .write addr width v :: ms } = .refused .notTheBlock)

/-- R27, R36: while the block is idle the host port writes one byte of `BM`, leaves the others, and a port read gives back the
byte that a written address holds, with no side effect.
(Moves and the answer of a read: log 5, log 6; a port access is one byte wide: log 8.) -/
def Obligations.PortReadsWhatWasWritten : Prop :=
  ∀ (s : State) (ms : List Move) (a : Nat) (v : Word), s.cfg.hostOrdered = true → s.cfg.wf = true →
    s.mode = .idle → a < s.cfg.memBytes →
    (∃ m, step { s with moves := .write (s.cfg.hostBmBase + a) 1 v :: ms }
        = .next { s with moves := ms, mem := m } ∧
      ∀ x, m.get x = if x = a then some (v.setWidth 8) else s.mem.get x) ∧
    ∀ b, s.mem.get a = some b →
      step { s with moves := .read (s.cfg.hostBmBase + a) 1 :: ms }
        = .next { s with moves := ms, lastRead := some (b.setWidth 32) }

/-- The model's treatment of unwritten bytes where R49 does not have it fault, log 10 and log 21 (choices of the model). A port
read of an unwritten byte answers a free value that depends on its address and on the count `bmEpoch` alone and changes nothing
else; only a power-on reset, and a soft reset of a running block that has an unwritten byte in the descriptor at `CP`, change that
count; and such a soft reset gives each written byte a free value of its own and leaves the unwritten bytes unwritten.
(Moves and the answer of a read: log 5, log 6.) -/
def Obligations.UnwrittenBytesAreFree : Prop :=
  (∀ (s : State) (ms : List Move) (a : Nat), s.cfg.hostOrdered = true → s.cfg.wf = true → s.mode = .idle →
    a < s.cfg.memBytes → s.mem.get a = none →
    step { s with moves := .read (s.cfg.hostBmBase + a) 1 :: ms }
      = .next { s with moves := ms, lastRead := some ((Config.unwrittenByte s.bmEpoch a).setWidth 32) }) ∧
  (∀ s t : State, step s = .next t →
    t.bmEpoch = s.bmEpoch ∨
    (t.bmEpoch = s.bmEpoch + 1 ∧
      ((∃ ms, s.moves = .powerOn :: ms) ∨
       (s.mode = .running ∧ (∃ k, k < 64 ∧ s.mem.get (s.cp.toNat + k) = none) ∧
         ∃ v ms, s.moves = .write (s.cfg.regBase + 0x0C) 4 v :: ms ∧ v.getLsbD 2 = true)))) ∧
  ∀ (s : State) (ms : List Move) (v : Word), s.cfg.hostOrdered = true → v.getLsbD 2 = true → s.mode = .running →
    s.cp.toNat % 64 = 0 → s.cp.toNat + 64 ≤ s.cfg.memBytes → (∃ k, k < 64 ∧ s.mem.get (s.cp.toNat + k) = none) →
    ∃ t, step { s with moves := .write (s.cfg.regBase + 0x0C) 4 v :: ms } = .next t ∧
      t.bmEpoch = s.bmEpoch + 1 ∧ (∀ a, s.mem.get a = none → t.mem.get a = none) ∧
      ∃ draw : Nat → Nat,
        (∀ a b, s.mem.get a ≠ none → s.mem.get b ≠ none → draw a = draw b → a = b) ∧
        ∀ a, s.mem.get a ≠ none →
          s.freeCtr ≤ draw a ∧ draw a < t.freeCtr ∧ t.mem.get a = some (Config.freeByte (draw a))

/-! ### The algorithms -/

/-- R72, R73, R82, R83, R104: the constant tables are the leading fraction bits of the cube roots (round constants) and square
roots (initial values) of the first primes; the permutation hash takes the SHA-256 initial value. -/
def Obligations.ConstantTables : Prop :=
  let primes := (List.range 410).filter fun p => 2 ≤ p && (List.range p).all fun d => d < 2 || p % d != 0
  k256.length = 64 ∧ k512.length = 80 ∧ h256.length = 8 ∧ h512.length = 8 ∧ permIv = h256 ∧
  (∀ k < 64, ∃ n, n ^ 3 ≤ primes.getD k 0 * 2 ^ 96 ∧ primes.getD k 0 * 2 ^ 96 < (n + 1) ^ 3 ∧
    (k256.getD k 0).toNat = n % 2 ^ 32) ∧
  (∀ k < 80, ∃ n, n ^ 3 ≤ primes.getD k 0 * 2 ^ 192 ∧ primes.getD k 0 * 2 ^ 192 < (n + 1) ^ 3 ∧
    (k512.getD k 0).toNat = n % 2 ^ 64) ∧
  (∀ k < 8, ∃ n, n ^ 2 ≤ primes.getD k 0 * 2 ^ 64 ∧ primes.getD k 0 * 2 ^ 64 < (n + 1) ^ 2 ∧
    (h256.getD k 0).toNat = n % 2 ^ 32) ∧
  (∀ k < 8, ∃ n, n ^ 2 ≤ primes.getD k 0 * 2 ^ 128 ∧ primes.getD k 0 * 2 ^ 128 < (n + 1) ^ 2 ∧
    (h512.getD k 0).toNat = n % 2 ^ 64)

/-- R71, R74: SHA-256 compression is the spec's loop: the schedule `W` by its recurrence, 64 rounds from `H`, and the addition of
`H`. -/
def Obligations.Sha256CompressIsTheLoop : Prop :=
  ∀ (H : List Word) (M : List Byte), ∃ (W : Nat → Word) (x : Nat → Sha2Work 32),
    (∀ t < 16, W t = beWord 32 ((M.drop (4 * t)).take 4)) ∧
    (∀ t, 16 ≤ t → t < 64 →
      W t = ((W (t - 2)).rotateRight 17 ^^^ (W (t - 2)).rotateRight 19 ^^^ (W (t - 2) >>> 10)) + W (t - 7)
        + ((W (t - 15)).rotateRight 7 ^^^ (W (t - 15)).rotateRight 18 ^^^ (W (t - 15) >>> 3)) + W (t - 16)) ∧
    x 0 = ⟨H.getD 0 0, H.getD 1 0, H.getD 2 0, H.getD 3 0, H.getD 4 0, H.getD 5 0, H.getD 6 0, H.getD 7 0⟩ ∧
    (∀ t < 64, ∃ T1 T2,
      T1 = (x t).h + ((x t).e.rotateRight 6 ^^^ (x t).e.rotateRight 11 ^^^ (x t).e.rotateRight 25)
        + (((x t).e &&& (x t).f) ^^^ (~~~(x t).e &&& (x t).g)) + k256.getD t 0 + W t ∧
      T2 = ((x t).a.rotateRight 2 ^^^ (x t).a.rotateRight 13 ^^^ (x t).a.rotateRight 22)
        + (((x t).a &&& (x t).b) ^^^ ((x t).a &&& (x t).c) ^^^ ((x t).b &&& (x t).c)) ∧
      x (t + 1) = ⟨T1 + T2, (x t).a, (x t).b, (x t).c, (x t).d + T1, (x t).e, (x t).f, (x t).g⟩) ∧
    sha2Compress sha256Alg H M =
      [H.getD 0 0 + (x 64).a, H.getD 1 0 + (x 64).b, H.getD 2 0 + (x 64).c, H.getD 3 0 + (x 64).d,
       H.getD 4 0 + (x 64).e, H.getD 5 0 + (x 64).f, H.getD 6 0 + (x 64).g, H.getD 7 0 + (x 64).h]

/-- R81, R84: SHA-512 compression is the same loop with 64-bit words, 80 rounds and its own rotations. -/
def Obligations.Sha512CompressIsTheLoop : Prop :=
  ∀ (H : List Word64) (M : List Byte), ∃ (W : Nat → Word64) (x : Nat → Sha2Work 64),
    (∀ t < 16, W t = beWord 64 ((M.drop (8 * t)).take 8)) ∧
    (∀ t, 16 ≤ t → t < 80 →
      W t = ((W (t - 2)).rotateRight 19 ^^^ (W (t - 2)).rotateRight 61 ^^^ (W (t - 2) >>> 6)) + W (t - 7)
        + ((W (t - 15)).rotateRight 1 ^^^ (W (t - 15)).rotateRight 8 ^^^ (W (t - 15) >>> 7)) + W (t - 16)) ∧
    x 0 = ⟨H.getD 0 0, H.getD 1 0, H.getD 2 0, H.getD 3 0, H.getD 4 0, H.getD 5 0, H.getD 6 0, H.getD 7 0⟩ ∧
    (∀ t < 80, ∃ T1 T2,
      T1 = (x t).h + ((x t).e.rotateRight 14 ^^^ (x t).e.rotateRight 18 ^^^ (x t).e.rotateRight 41)
        + (((x t).e &&& (x t).f) ^^^ (~~~(x t).e &&& (x t).g)) + k512.getD t 0 + W t ∧
      T2 = ((x t).a.rotateRight 28 ^^^ (x t).a.rotateRight 34 ^^^ (x t).a.rotateRight 39)
        + (((x t).a &&& (x t).b) ^^^ ((x t).a &&& (x t).c) ^^^ ((x t).b &&& (x t).c)) ∧
      x (t + 1) = ⟨T1 + T2, (x t).a, (x t).b, (x t).c, (x t).d + T1, (x t).e, (x t).f, (x t).g⟩) ∧
    sha2Compress sha512Alg H M =
      [H.getD 0 0 + (x 80).a, H.getD 1 0 + (x 80).b, H.getD 2 0 + (x 80).c, H.getD 3 0 + (x 80).d,
       H.getD 4 0 + (x 80).e, H.getD 5 0 + (x 80).f, H.getD 6 0 + (x 80).g, H.getD 7 0 + (x 80).h]

/-- R75, R85: the padding: `0x80`, `(55 − L) mod 64` or `(111 − L) mod 128` zero bytes, the total length in bits, big-endian, and a
whole number of blocks. -/
def Obligations.PaddingFillsWholeBlocks : Prop :=
  ∀ m : List Byte,
    (∃ k : Nat, (k : Int) = (55 - (m.length : Int)) % 64 ∧
      sha2Pad sha256Alg m = m ++ [0x80] ++ zeros k ++ beBytes 8 (8 * m.length) ∧
      (sha2Pad sha256Alg m).length % 64 = 0) ∧
    (∃ k : Nat, (k : Int) = (111 - (m.length : Int)) % 128 ∧
      sha2Pad sha512Alg m = m ++ [0x80] ++ zeros k ++ beBytes 16 (8 * m.length) ∧
      (sha2Pad sha512Alg m).length % 128 = 0)

/-- R76, R78, R85: the hashes chain the compression over the blocks of the padded message from the initial value, and write the last
state big-endian: 32 and 64 bytes for every input. For SHA-256 that is also the sequence of `SHA256_COMPRESS` results over the
blocks, each on the state image the one before it left (R78). -/
def Obligations.HashesChainTheBlocks : Prop :=
  ∀ m : List Byte,
    (∃ H : Nat → List Word, H 0 = h256 ∧
      (∀ j, j < (sha2Pad sha256Alg m).length / 64 →
        H (j + 1) = sha2Compress sha256Alg (H j) (((sha2Pad sha256Alg m).drop (64 * j)).take 64)) ∧
      sha256Hash m = beWordsBytes 4 (H ((sha2Pad sha256Alg m).length / 64)) ∧
      (sha256Hash m).length = 32) ∧
    (∃ H : Nat → List Word64, H 0 = h512 ∧
      (∀ j, j < (sha2Pad sha512Alg m).length / 128 →
        H (j + 1) = sha2Compress sha512Alg (H j) (((sha2Pad sha512Alg m).drop (128 * j)).take 128)) ∧
      sha512Hash m = beWordsBytes 8 (H ((sha2Pad sha512Alg m).length / 128)) ∧
      (sha512Hash m).length = 64) ∧
    sha256Hash m =
      (chunks 64 ((sha2Pad sha256Alg m).length / 64) (sha2Pad sha256Alg m)).foldl
        (fun image block => beWordsBytes 4 (sha2Compress sha256Alg (beWords 32 4 8 image) block))
        (beWordsBytes 4 h256)

/-- R90, R91: the keyed hash, with a key longer than one block hashed first; and the key expansion: the iterates `U`, their running
exclusive or `T`, and the first `dkLen` bytes of the blocks. -/
def Obligations.KeyedHashesAreTheConstructions : Prop :=
  (∀ K m : List Byte, ∃ K1 K0 : List Byte,
    (64 < K.length → K1 = sha256Hash K) ∧ (K.length ≤ 64 → K1 = K) ∧ K0 = K1 ++ zeros (64 - K1.length) ∧
    K0.length = 64 ∧
    hmacSha256 K m =
      sha256Hash (xorBytes K0 (List.replicate 64 0x5c) ++
        sha256Hash (xorBytes K0 (List.replicate 64 0x36) ++ m))) ∧
  (∀ (P S : List Byte) (c dkLen : Nat), 1 ≤ c → 1 ≤ dkLen →
    ∃ U T : Nat → Nat → List Byte,
      (∀ i, U i 1 = hmacSha256 P (S ++ beBytes 4 i) ∧ T i 1 = U i 1) ∧
      (∀ i j, 1 ≤ j → U i (j + 1) = hmacSha256 P (U i j) ∧ T i (j + 1) = xorBytes (T i j) (U i (j + 1))) ∧
      pbkdf2Sha256 P S c dkLen
        = ((List.range ((dkLen + 31) / 32)).flatMap fun k => T (k + 1) c).take dkLen ∧
      (pbkdf2Sha256 P S c dkLen).length = dkLen)

/-- R94: the quarter-round on four different words of a 16-word state: each word takes the rotated sum of two others, in the rule's
order, and no other word changes. -/
def Obligations.SalsaQuarterRound : Prop :=
  ∀ (x : List Word) (a b c d : Nat), x.length = 16 → a < 16 → b < 16 → c < 16 → d < 16 →
    a ≠ b → a ≠ c → a ≠ d → b ≠ c → b ≠ d → c ≠ d →
    ∃ y : List Word, salsaQr a b c d x = y ∧ y.length = 16 ∧
      y.getD b 0 = x.getD b 0 ^^^ (x.getD a 0 + x.getD d 0).rotateLeft 7 ∧
      y.getD c 0 = x.getD c 0 ^^^ (y.getD b 0 + x.getD a 0).rotateLeft 9 ∧
      y.getD d 0 = x.getD d 0 ^^^ (y.getD c 0 + y.getD b 0).rotateLeft 13 ∧
      y.getD a 0 = x.getD a 0 ^^^ (y.getD d 0 + y.getD c 0).rotateLeft 18 ∧
      ∀ k, k ≠ a → k ≠ b → k ≠ c → k ≠ d → y.getD k 0 = x.getD k 0

/-- R94, R95, R100: the core is `SALSA_DOUBLE_ROUNDS` double rounds, each the eight quarter-rounds in order, and the addition of
the input; the all-zero block is a fixed point, for every number of rounds. -/
def Obligations.SalsaCoreIsTheLoop : Prop :=
  (∀ (rounds : Nat) (b : List Byte), ∃ x : Nat → List Word,
    x 0 = le32s 16 b ∧
    (∀ k, x (k + 1) =
      salsaQr 15 12 13 14 (salsaQr 10 11 8 9 (salsaQr 5 6 7 4 (salsaQr 0 1 2 3
        (salsaQr 15 3 7 11 (salsaQr 10 14 2 6 (salsaQr 5 9 13 1 (salsaQr 0 4 8 12 (x k))))))))) ∧
    salsaCore rounds b = le32sBytes (List.zipWith (· + ·) (x rounds) (x 0))) ∧
  ∀ rounds : Nat, salsaCore rounds (zeros 64) = zeros 64

/-- R96: BlockMix chains the core over the sub-blocks from the last one, and puts the even outputs in the first half and the odd
ones in the second. -/
def Obligations.BlockmixInterleaves : Prop :=
  ∀ (rounds r : Nat) (B : List Byte), 1 ≤ r → B.length = 128 * r →
    ∃ Y : Nat → List Byte,
      Y 0 = salsaCore rounds (xorBytes ((B.drop (64 * (2 * r - 1))).take 64) (B.take 64)) ∧
      (∀ i, i + 1 < 2 * r → Y (i + 1) = salsaCore rounds (xorBytes (Y i) ((B.drop (64 * (i + 1))).take 64))) ∧
      (∀ i, i < r →
        ((blockmix rounds r B).drop (64 * i)).take 64 = Y (2 * i) ∧
        ((blockmix rounds r B).drop (64 * (r + i))).take 64 = Y (2 * i + 1)) ∧
      (blockmix rounds r B).length = 128 * r

/-- R97, R98: ROMix fills the table `V` with successive BlockMix outputs from the block itself, and only then mixes: each iteration
takes the entry that the first word of the last sub-block, modulo `N`, selects. -/
def Obligations.RomixFillsThenMixes : Prop :=
  ∀ (rounds N r : Nat) (B : List Byte), 1 ≤ N →
    ∃ V X : Nat → List Byte,
      V 0 = B ∧ (∀ i, V (i + 1) = blockmix rounds r (V i)) ∧
      X 0 = V N ∧
      (∀ i, X (i + 1) = blockmix rounds r
        (xorBytes (X i) (V (leNat (((X i).drop (64 * (2 * r - 1))).take 4) % N)))) ∧
      romix rounds N r B = (X N, (List.range N).map V)

/-- R99: the scrypt derivation: one PBKDF2 iteration makes the lanes, each is mixed, one more makes the key; the table kept is the
last lane's. -/
def Obligations.ScryptMixesEveryLane : Prop :=
  ∀ (rounds N r p dkLen : Nat) (P S : List Byte), 1 ≤ N → 1 ≤ r → 1 ≤ p → 1 ≤ dkLen →
    ∃ (B B' : List Byte) (lane : Nat → List Byte),
      B = pbkdf2Sha256 P S 1 (128 * r * p) ∧
      (∀ i, lane i = (B.drop (128 * r * i)).take (128 * r)) ∧
      B' = (List.range p).flatMap (fun i => (romix rounds N r (lane i)).1) ∧
      scrypt rounds P S N r p dkLen =
        { key := pbkdf2Sha256 P B' 1 dkLen
          lanes := B'
          table := (romix rounds N r (lane (p - 1))).2.flatten } ∧
      B'.length = 128 * r * p ∧ ((romix rounds N r (lane (p - 1))).2.flatten).length = 128 * r * N

/-- R106: the mixing function on four different words of a 16-word state: its eight assignments, in the rule's order. -/
def Obligations.PermMixingFunction : Prop :=
  ∀ (v : List Word) (a b c d : Nat) (mx my : Word), v.length = 16 → a < 16 → b < 16 → c < 16 → d < 16 →
    a ≠ b → a ≠ c → a ≠ d → b ≠ c → b ≠ d → c ≠ d →
    ∃ a1 d1 c1 b1 a2 d2 c2 b2 : Word,
      a1 = v.getD a 0 + v.getD b 0 + mx ∧ d1 = (v.getD d 0 ^^^ a1).rotateRight 16 ∧
      c1 = v.getD c 0 + d1 ∧ b1 = (v.getD b 0 ^^^ c1).rotateRight 12 ∧
      a2 = a1 + b1 + my ∧ d2 = (d1 ^^^ a2).rotateRight 8 ∧
      c2 = c1 + d2 ∧ b2 = (b1 ^^^ c2).rotateRight 7 ∧
      permG a b c d mx my v = (((v.set a a2).set b b2).set c c2).set d d2

/-- R107, R108: the compression: the initial state, seven rounds of four column and four diagonal groups on the message words that
the permuted schedule selects, and the two halves of the output. -/
def Obligations.PermCompressIsTheLoop : Prop :=
  ∀ (cv m : List Word) (ctr : Word64) (blen flags : Word), cv.length = 8 → m.length = 16 →
    ∃ (sched : Nat → Nat → Nat) (v : Nat → List Word),
      (∀ k, sched 0 k = k) ∧
      (∀ r k, sched (r + 1) k
        = sched r ([2, 6, 3, 10, 7, 0, 4, 13, 1, 11, 12, 5, 9, 14, 15, 8].getD k 0)) ∧
      v 0 = cv ++ [0x6a09e667, 0xbb67ae85, 0x3c6ef372, 0xa54ff53a, ctr.setWidth 32, (ctr >>> 32).setWidth 32,
        blen, flags] ∧
      (∀ r, r < 7 → v (r + 1) =
        permG 3 4 9 14 (m.getD (sched r 14) 0) (m.getD (sched r 15) 0)
          (permG 2 7 8 13 (m.getD (sched r 12) 0) (m.getD (sched r 13) 0)
          (permG 1 6 11 12 (m.getD (sched r 10) 0) (m.getD (sched r 11) 0)
          (permG 0 5 10 15 (m.getD (sched r 8) 0) (m.getD (sched r 9) 0)
          (permG 3 7 11 15 (m.getD (sched r 6) 0) (m.getD (sched r 7) 0)
          (permG 2 6 10 14 (m.getD (sched r 4) 0) (m.getD (sched r 5) 0)
          (permG 1 5 9 13 (m.getD (sched r 2) 0) (m.getD (sched r 3) 0)
          (permG 0 4 8 12 (m.getD (sched r 0) 0) (m.getD (sched r 1) 0) (v r))))))))) ∧
      (permCompress cv m ctr blen flags).length = 16 ∧
      ∀ i, i < 8 →
        (permCompress cv m ctr blen flags).getD i 0 = (v 7).getD i 0 ^^^ (v 7).getD (i + 8) 0 ∧
        (permCompress cv m ctr blen flags).getD (i + 8) 0 = (v 7).getD (i + 8) 0 ^^^ cv.getD i 0

/-- R105, R109: the hash is the linear chain over the 64-byte blocks, the empty input being one empty block: the start flag on the
first block, the end and root flags on the last, the counter 0 and the block's own byte count. -/
def Obligations.PermHashIsALinearChain : Prop :=
  ∀ M : List Byte, ∃ (nb : Nat) (cv : Nat → List Word),
    nb = max 1 ((M.length + 63) / 64) ∧ cv 0 = h256 ∧
    (∀ k, k < nb →
      cv (k + 1) = (permCompress (cv k)
        (le32s 16 ((M.drop (64 * k)).take 64 ++ zeros (64 - ((M.drop (64 * k)).take 64).length))) 0
        (BitVec.ofNat 32 ((M.drop (64 * k)).take 64).length)
        (BitVec.ofNat 32 ((if k = 0 then 1 else 0) + (if k + 1 = nb then 2 + 8 else 0)))).take 8) ∧
    permHash M = le32sBytes (cv nb) ∧ (permHash M).length = 32

/-! ### The nonce search (spec/45_mine.md) -/

/-- R113: a digest meets a target when they are equal or the first unequal byte, most significant first, is smaller; that is the
comparison of the two as numbers, big-endian with target order 0 and little-endian with target order 1. -/
def Obligations.TargetIsANumberComparison : Prop :=
  ∀ d t : List Byte, d.length = 32 → t.length = 32 →
    (meetsTarget .byte0First d t = true ↔
      d = t ∨ ∃ j, j < 32 ∧ (∀ l, l < j → d.getD l 0 = t.getD l 0) ∧ (d.getD j 0).toNat < (t.getD j 0).toNat) ∧
    (meetsTarget .byte31First d t = true ↔
      d = t ∨ ∃ j, j < 32 ∧ (∀ l, j < l → l < 32 → d.getD l 0 = t.getD l 0) ∧
        (d.getD j 0).toNat < (t.getD j 0).toNat) ∧
    (meetsTarget .byte0First d t = true ↔ beNat d ≤ beNat t) ∧
    (meetsTarget .byte31First d t = true ↔ leNat d ≤ leNat t)

/-- R114: the leading zeros of a digest are 256 less the bit length of its big-endian value; difficulty 0 always succeeds and
difficulty 256 only for the all-zero digest. -/
def Obligations.DifficultyCountsLeadingZeros : Prop :=
  ∀ (d : List Byte) (k : Nat), d.length = 32 →
    leadingZeros d = 256 - Nat.size (beNat d) ∧
    (meetsDifficulty d k = true ↔ k ≤ leadingZeros d) ∧
    meetsDifficulty d 0 = true ∧
    (meetsDifficulty d 256 = true ↔ d = zeros 32)

/-- R115, R119: the search returns the smallest nonce of the range that succeeds, with the number of attempts up to it; where none
does, nonce 0 and the size of the range, modulo 2^64. A range searched in two parts, one after the other, gives the same nonce as
the first part that finds one, and the attempts add up. -/
def Obligations.SearchFindsTheSmallestNonce : Prop :=
  ∀ (start stop : Nat) (attempt : Nat → Bool), start ≤ stop → stop < 2 ^ 64 →
    (∀ n, start ≤ n → n ≤ stop → attempt n = true → (∀ m, start ≤ m → m < n → attempt m = false) →
      search start stop attempt = ⟨true, BitVec.ofNat 64 n, BitVec.ofNat 64 (n - start + 1)⟩) ∧
    ((∀ n, start ≤ n → n ≤ stop → attempt n = false) →
      search start stop attempt = ⟨false, 0, BitVec.ofNat 64 (stop - start + 1)⟩) ∧
    ∀ mid, start ≤ mid → mid < stop →
      ((search start mid attempt).found = true → search start stop attempt = search start mid attempt) ∧
      ((search start mid attempt).found = false →
        search start stop attempt =
          { found := (search (mid + 1) stop attempt).found
            nonce := (search (mid + 1) stop attempt).nonce
            count := (search start mid attempt).count + (search (mid + 1) stop attempt).count })

end
end

