-- ==== Sys2Proof/Laws/Bytes.lean ====
section
/-! SUPPORT. Byte strings and words: lengths, and that each conversion of spec/00_scope.md R9 undoes its inverse. -/

namespace Sys2Proof.Machine

@[simp] theorem leBytes_length (n v : Nat) : (leBytes n v).length = n := by
  induction n generalizing v with
  | zero => rfl
  | succ n ih => simp [leBytes, ih]

@[simp] theorem beBytes_length (n v : Nat) : (beBytes n v).length = n := by simp [beBytes]

@[simp] theorem zeros_length (n : Nat) : (zeros n).length = n := by simp [zeros]

@[simp] theorem xorBytes_length (xs ys : List Byte) :
    (xorBytes xs ys).length = min xs.length ys.length := by simp [xorBytes]

@[simp] theorem chunks_length (size count : Nat) (bs : List Byte) :
    (chunks size count bs).length = count := by
  induction count generalizing bs with
  | zero => rfl
  | succ n ih => simp [chunks, ih]

@[simp] theorem le32s_length (count : Nat) (bs : List Byte) : (le32s count bs).length = count := by
  simp [le32s]

@[simp] theorem beWords_length (w size count : Nat) (bs : List Byte) :
    (beWords w size count bs).length = count := by simp [beWords]

@[simp] theorem le32sBytes_length (ws : List Word) : (le32sBytes ws).length = 4 * ws.length := by
  induction ws with
  | nil => rfl
  | cons v ws ih =>
    simp only [le32sBytes, List.flatMap_cons, List.length_append, leBytes_length, List.length_cons] at *
    omega

@[simp] theorem beWordsBytes_length {w : Nat} (size : Nat) (ws : List (BitVec w)) :
    (beWordsBytes size ws).length = size * ws.length := by
  induction ws with
  | nil => rfl
  | cons v ws ih =>
    simp only [beWordsBytes, List.flatMap_cons, List.length_append, beBytes_length, List.length_cons,
      Nat.mul_add] at *
    omega

theorem leNat_lt (bs : List Byte) : leNat bs < 256 ^ bs.length := by
  induction bs with
  | nil => simp [leNat]
  | cons b bs ih =>
    have := b.isLt
    simp only [leNat, List.length_cons, pow_succ]
    omega

theorem leNat_leBytes (n v : Nat) : leNat (leBytes n v) = v % 256 ^ n := by
  induction n generalizing v with
  | zero => simp [leBytes, leNat, Nat.mod_one]
  | succ n ih =>
    simp only [leBytes, leNat, ih, BitVec.toNat_ofNat]
    rw [show 256 ^ (n + 1) = 256 * 256 ^ n by ring, Nat.mod_mul]

theorem leBytes_leNat (bs : List Byte) : leBytes bs.length (leNat bs) = bs := by
  induction bs with
  | nil => rfl
  | cons b bs ih =>
    have hb := b.isLt
    have h1 : (b.toNat + 256 * leNat bs) / 256 = leNat bs := by omega
    have h2 : BitVec.ofNat 8 (b.toNat + 256 * leNat bs) = b := by
      apply BitVec.eq_of_toNat_eq
      simp only [BitVec.toNat_ofNat]
      omega
    simp only [List.length_cons, leBytes, leNat, h1, h2, ih]

/-- A word survives being stored as its little-endian bytes. -/
theorem leWord_leBytes {w n : Nat} (h : 2 ^ w ≤ 256 ^ n) (v : BitVec w) :
    leWord w (leBytes n v.toNat) = v := by
  apply BitVec.eq_of_toNat_eq
  have := v.isLt
  rw [leWord, BitVec.toNat_ofNat, leNat_leBytes, Nat.mod_eq_of_lt (a := v.toNat) (by omega),
    Nat.mod_eq_of_lt this]

/-- A word survives being stored as its big-endian bytes. -/
theorem beWord_beBytes {w n : Nat} (h : 2 ^ w ≤ 256 ^ n) (v : BitVec w) :
    beWord w (beBytes n v.toNat) = v := by
  have := leWord_leBytes h v
  simpa [beWord, beNat, beBytes, leWord] using this

/-- Four bytes are the little-endian bytes of their word. -/
theorem leBytes_leWord {bs : List Byte} (h : bs.length = 4) : leBytes 4 (leWord 32 bs).toNat = bs := by
  have hlt := leNat_lt bs
  rw [h] at hlt
  have : (leWord 32 bs).toNat = leNat bs := by
    rw [leWord, BitVec.toNat_ofNat, Nat.mod_eq_of_lt (by omega)]
  rw [this, ← h, leBytes_leNat]

@[simp] theorem le32s_le32sBytes (ws : List Word) : le32s ws.length (le32sBytes ws) = ws := by
  induction ws with
  | nil => rfl
  | cons v ws ih =>
    simp only [le32s, le32sBytes, List.flatMap_cons, List.length_cons, chunks, List.map_cons] at *
    rw [List.take_left' (by simp), List.drop_left' (by simp), ih, leWord_leBytes (by norm_num)]

/-- A byte string of whole words is the bytes of its words. -/
theorem le32sBytes_le32s (count : Nat) {bs : List Byte} (h : bs.length = 4 * count) :
    le32sBytes (le32s count bs) = bs := by
  induction count generalizing bs with
  | zero => simpa [le32s, chunks, le32sBytes] using (List.length_eq_zero_iff.1 (by omega)).symm
  | succ n ih =>
    have h4 : (bs.take 4).length = 4 := by simp; omega
    have hd : (bs.drop 4).length = 4 * n := by simp; omega
    have := ih hd
    simp only [le32s, le32sBytes, chunks, List.map_cons, List.flatMap_cons] at *
    rw [this, leBytes_leWord h4, List.take_append_drop]

theorem beWords_beWordsBytes {w size : Nat} (h : 2 ^ w ≤ 256 ^ size) (ws : List (BitVec w)) :
    beWords w size ws.length (beWordsBytes size ws) = ws := by
  induction ws with
  | nil => rfl
  | cons v ws ih =>
    simp only [beWords, beWordsBytes, List.flatMap_cons, List.length_cons, chunks, List.map_cons] at *
    rw [List.take_left' (by simp), List.drop_left' (by simp), ih, beWord_beBytes h]

/-- Joining the pieces of a string of exactly that many pieces gives it back. -/
theorem chunks_flatten (size count : Nat) {bs : List Byte} (h : bs.length = size * count) :
    (chunks size count bs).flatten = bs := by
  induction count generalizing bs with
  | zero => simpa [chunks] using (List.length_eq_zero_iff.1 (by omega)).symm
  | succ n ih =>
    have : (bs.drop size).length = size * n := by rw [List.length_drop, h, Nat.mul_succ]; omega
    simp [chunks, ih this]

theorem chunks_piece_length {size count : Nat} {bs : List Byte} (h : bs.length = size * count) :
    ∀ c ∈ chunks size count bs, c.length = size := by
  induction count generalizing bs with
  | zero => simp [chunks]
  | succ n ih =>
    have hd : (bs.drop size).length = size * n := by rw [List.length_drop, h, Nat.mul_succ]; omega
    intro c hc
    simp only [chunks, List.mem_cons] at hc
    rcases hc with rfl | hc
    · rw [List.length_take, h, Nat.mul_succ]; omega
    · exact ih hd c hc

end Sys2Proof.Machine
end

