-- ==== Sys2Proof/Laws/Memory.lean ====
section
/-! SUPPORT. The buffer memory: what a byte reads as after each operation, the canonical form, and that two memories in
canonical form with the same bytes are the same list. -/

namespace Sys2Proof.Machine

@[simp] theorem Memory.get_nil (a : Nat) : Memory.get [] a = none := rfl

@[simp] theorem Memory.get_cons (k : Nat) (b : Byte) (m : Memory) (a : Nat) :
    Memory.get ((k, b) :: m) a = if k = a then some b else Memory.get m a := rfl

theorem Memory.get_set (m : Memory) (a x : Nat) (v : Byte) :
    Memory.get (Memory.set m a v) x = if a = x then some v else Memory.get m x := by
  induction m with
  | nil => simp [Memory.set]
  | cons c m ih =>
    obtain ⟨k, b⟩ := c
    simp only [Memory.set]
    by_cases h1 : a < k
    · simp [h1]
    · by_cases h2 : a = k
      · subst h2; by_cases h3 : a = x <;> simp [h3]
      · simp only [h1, h2, if_false, Memory.get_cons, ih]
        by_cases h3 : k = x
        · have : a ≠ x := by omega
          simp [h3, this]
        · simp [h3]

@[simp] theorem Memory.get_set_same (m : Memory) (a : Nat) (v : Byte) :
    Memory.get (Memory.set m a v) a = some v := by simp [Memory.get_set]

theorem Memory.get_set_other (m : Memory) {a x : Nat} (v : Byte) (h : a ≠ x) :
    Memory.get (Memory.set m a v) x = Memory.get m x := by simp [Memory.get_set, h]

/-- What a written entry's address can be. -/
theorem Memory.mem_set {m : Memory} {a : Nat} {v : Byte} {x : Host.Cell}
    (h : x ∈ Memory.set m a v) : x = (a, v) ∨ x ∈ m := by
  induction m with
  | nil => simpa [Memory.set] using h
  | cons c m ih =>
    obtain ⟨k, b⟩ := c
    simp only [Memory.set] at h
    split at h
    · simpa using h
    · split at h
      · rcases List.mem_cons.1 h with h | h
        · exact .inl h
        · exact .inr (List.mem_cons_of_mem _ h)
      · rcases List.mem_cons.1 h with h | h
        · exact .inr (by simp [h])
        · rcases ih h with h | h
          · exact .inl h
          · exact .inr (List.mem_cons_of_mem _ h)

theorem Memory.set_wf {m : Memory} (a : Nat) (v : Byte) (h : m.wf) : (Memory.set m a v).wf := by
  induction m with
  | nil => simp [Memory.set]
  | cons c m ih =>
    obtain ⟨k, b⟩ := c
    obtain ⟨hk, hm⟩ := List.pairwise_cons.1 h
    simp only [Memory.set]
    split
    · rename_i hak
      refine List.pairwise_cons.2 ⟨?_, h⟩
      intro x hx
      rcases List.mem_cons.1 hx with rfl | hx
      · exact hak
      · exact lt_trans hak (hk x hx)
    · split
      · rename_i hak
        subst hak
        exact List.pairwise_cons.2 ⟨fun x hx => hk x hx, hm⟩
      · refine List.pairwise_cons.2 ⟨?_, ih hm⟩
        intro x hx
        rcases Memory.mem_set hx with rfl | hx
        · change k < a; omega
        · exact hk x hx

theorem Memory.write_wf {m : Memory} (a : Nat) (bs : List Byte) (h : m.wf) :
    (Memory.write m a bs).wf := by
  induction bs generalizing m a with
  | nil => simpa [Memory.write] using h
  | cons b bs ih => exact ih (a + 1) (Memory.set_wf a b h)

theorem Memory.writeAll_wf {m : Memory} (ws : List (Nat × List Byte)) (h : m.wf) :
    (Memory.writeAll m ws).wf := by
  induction ws generalizing m with
  | nil => simpa [Memory.writeAll] using h
  | cons w ws ih => exact ih (Memory.write_wf w.1 w.2 h)

/-- One byte after writing a byte string: the string's own byte inside it, the old byte outside. -/
theorem Memory.get_write (m : Memory) (a x : Nat) (bs : List Byte) :
    Memory.get (Memory.write m a bs) x =
      if a ≤ x ∧ x < a + bs.length then bs[x - a]? else Memory.get m x := by
  induction bs generalizing m a with
  | nil =>
    simp [Memory.write]
  | cons b bs ih =>
    simp only [Memory.write, ih, List.length_cons, Memory.get_set]
    by_cases h1 : a + 1 ≤ x ∧ x < a + 1 + bs.length
    · have h2 : a ≤ x ∧ x < a + (bs.length + 1) := by omega
      have h3 : x - a = (x - (a + 1)) + 1 := by omega
      rw [if_pos h1, if_pos h2, h3, List.getElem?_cons_succ]
    · by_cases h2 : a = x
      · subst h2
        simp
      · have h3 : ¬(a ≤ x ∧ x < a + (bs.length + 1)) := by omega
        rw [if_neg h1, if_neg h3, if_neg h2]

theorem Memory.get_write_outside (m : Memory) {a x : Nat} {bs : List Byte}
    (h : x < a ∨ a + bs.length ≤ x) : Memory.get (Memory.write m a bs) x = Memory.get m x := by
  rw [Memory.get_write, if_neg (by omega)]

theorem Memory.get_write_inside (m : Memory) {a k : Nat} {bs : List Byte} (h : k < bs.length) :
    Memory.get (Memory.write m a bs) (a + k) = some bs[k] := by
  rw [Memory.get_write, if_pos (by omega)]
  simp [h]

/-- A byte outside every region of a list of writes keeps its value. -/
theorem Memory.get_writeAll_outside (m : Memory) {x : Nat} {ws : List (Nat × List Byte)}
    (h : ∀ w ∈ ws, x < w.1 ∨ w.1 + w.2.length ≤ x) :
    Memory.get (Memory.writeAll m ws) x = Memory.get m x := by
  induction ws generalizing m with
  | nil => rfl
  | cons w ws ih =>
    simp only [Memory.writeAll]
    rw [ih _ fun v hv => h v (List.mem_cons_of_mem _ hv),
      Memory.get_write_outside _ (h w List.mem_cons_self)]

/-- Reading a byte string, said byte by byte. -/
theorem Memory.read_eq_some {m : Memory} {a n : Nat} {bs : List Byte} :
    Memory.read m a n = some bs ↔ bs.length = n ∧ ∀ k < n, Memory.get m (a + k) = bs[k]? := by
  induction n generalizing a bs with
  | zero =>
    simp only [Memory.read, Option.some.injEq]
    constructor
    · rintro rfl; simp
    · rintro ⟨h, -⟩; exact (List.length_eq_zero_iff.1 h).symm
  | succ n ih =>
    simp only [Memory.read]
    constructor
    · intro h
      split at h
      · cases h
      · rename_i b hb
        split at h
        · cases h
        · rename_i bs' hbs
          obtain rfl := Option.some.inj h
          obtain ⟨hl, hk⟩ := ih.1 hbs
          refine ⟨by simp [hl], ?_⟩
          intro k hk'
          cases k with
          | zero => simpa using hb
          | succ k =>
            have := hk k (by omega)
            rw [List.getElem?_cons_succ, ← this]
            congr 1; omega
    · rintro ⟨hl, hk⟩
      cases bs with
      | nil => simp at hl
      | cons b bs =>
        have h0 : Memory.get m a = some b := by simpa using hk 0 (by omega)
        have h1 : Memory.read m (a + 1) n = some bs := by
          refine ih.2 ⟨by simpa using hl, ?_⟩
          intro k hkn
          have := hk (k + 1) (by omega)
          rw [List.getElem?_cons_succ] at this
          rw [← this]; congr 1; omega
        simp [h0, h1]

theorem Memory.read_length {m : Memory} {a n : Nat} {bs : List Byte}
    (h : Memory.read m a n = some bs) : bs.length = n := (Memory.read_eq_some.1 h).1

/-- Reading needs every byte written, and that is enough. -/
theorem Memory.read_isSome {m : Memory} {a n : Nat} :
    (Memory.read m a n).isSome ↔ ∀ k < n, (Memory.get m (a + k)).isSome := by
  induction n generalizing a with
  | zero => simp [Memory.read]
  | succ n ih =>
    simp only [Memory.read]
    constructor
    · intro h k hk
      split at h
      · cases h
      · rename_i b hb
        split at h
        · cases h
        · rename_i bs hbs
          cases k with
          | zero => simp [hb]
          | succ k =>
            have := ih.1 (by rw [hbs]; rfl) k (by omega)
            rwa [show a + (k + 1) = a + 1 + k by omega]
    · intro h
      have h0 : (Memory.get m a).isSome := by simpa using h 0 (by omega)
      obtain ⟨b, hb⟩ := Option.isSome_iff_exists.1 h0
      have h1 : (Memory.read m (a + 1) n).isSome := by
        refine ih.2 fun k hk => ?_
        have := h (k + 1) (by omega)
        rwa [show a + 1 + k = a + (k + 1) by omega]
      obtain ⟨bs, hbs⟩ := Option.isSome_iff_exists.1 h1
      simp [hb, hbs]

/-- Two memories that agree on a region read the same string there. -/
theorem Memory.read_congr {m m' : Memory} {a n : Nat}
    (h : ∀ k < n, Memory.get m (a + k) = Memory.get m' (a + k)) :
    Memory.read m a n = Memory.read m' a n := by
  induction n generalizing a with
  | zero => rfl
  | succ n ih =>
    have h0 : Memory.get m a = Memory.get m' a := by simpa using h 0 (by omega)
    have h1 : Memory.read m (a + 1) n = Memory.read m' (a + 1) n :=
      ih fun k hk => by
        have := h (k + 1) (by omega)
        rwa [show a + 1 + k = a + (k + 1) by omega]
    simp only [Memory.read, h0, h1]

/-- A read after a write to the same place gives what was written. -/
@[simp] theorem Memory.read_write_same (m : Memory) (a : Nat) (bs : List Byte) :
    Memory.read (Memory.write m a bs) a bs.length = some bs := by
  refine Memory.read_eq_some.2 ⟨rfl, fun k hk => ?_⟩
  rw [Memory.get_write_inside _ hk]
  simp [hk]

/-- A write leaves every other region alone. -/
theorem Memory.read_write_outside (m : Memory) {a n x : Nat} {bs : List Byte}
    (h : x + n ≤ a ∨ a + bs.length ≤ x) :
    Memory.read (Memory.write m a bs) x n = Memory.read m x n :=
  Memory.read_congr fun k _ => Memory.get_write_outside _ (by omega)

/-- The addresses of a memory after a write: the old ones and those of the string. -/
theorem Memory.mem_write {m : Memory} {a : Nat} {bs : List Byte} {x : Host.Cell}
    (h : x ∈ Memory.write m a bs) : (a ≤ x.1 ∧ x.1 < a + bs.length) ∨ x ∈ m := by
  induction bs generalizing m a with
  | nil => exact .inr h
  | cons b bs ih =>
    rcases ih h with h | h
    · exact .inl (by simp only [List.length_cons]; omega)
    · rcases Memory.mem_set h with rfl | h
      · exact .inl (by simp)
      · exact .inr h

theorem Memory.mem_writeAll {m : Memory} {ws : List (Nat × List Byte)} {x : Host.Cell}
    (h : x ∈ Memory.writeAll m ws) :
    (∃ w ∈ ws, w.1 ≤ x.1 ∧ x.1 < w.1 + w.2.length) ∨ x ∈ m := by
  induction ws generalizing m with
  | nil => exact .inr h
  | cons w ws ih =>
    rcases ih h with ⟨v, hv, h⟩ | h
    · exact .inl ⟨v, List.mem_cons_of_mem _ hv, h⟩
    · rcases Memory.mem_write h with h | h
      · exact .inl ⟨w, List.mem_cons_self, h⟩
      · exact .inr h

theorem Memory.get_none_of_lt {m : Memory} {a : Nat} (h : ∀ x ∈ m, a < x.1) :
    Memory.get m a = none := by
  induction m with
  | nil => rfl
  | cons c m ih =>
    obtain ⟨k, b⟩ := c
    have hk : a < k := h (k, b) List.mem_cons_self
    have : k ≠ a := by omega
    simpa [this] using ih fun x hx => h x (List.mem_cons_of_mem _ hx)

/-! ### Redrawing -/

@[simp] theorem Memory.redraw_map_fst (m : Memory) (ctr : Nat) :
    (Memory.redraw m ctr).map Prod.fst = m.map Prod.fst := by
  induction m generalizing ctr with
  | nil => rfl
  | cons c m ih => simp [Memory.redraw, ih]

theorem Memory.redraw_wf {m : Memory} (ctr : Nat) (h : m.wf) : (Memory.redraw m ctr).wf := by
  have hk : (m.map Prod.fst).Pairwise (· < ·) := List.pairwise_map.2 h
  rw [← Memory.redraw_map_fst m ctr] at hk
  exact List.pairwise_map.1 hk

/-- A redrawn memory has the addresses it had. -/
theorem Memory.mem_redraw {m : Memory} {ctr : Nat} {x : Host.Cell} (h : x ∈ Memory.redraw m ctr) :
    ∃ y ∈ m, y.1 = x.1 := by
  have : x.1 ∈ (Memory.redraw m ctr).map Prod.fst := List.mem_map_of_mem h
  simpa using this

/-- What a redrawn memory reads as: unwritten bytes stay unwritten, and each written one is a free value of its own. -/
theorem Memory.get_redraw (m : Memory) (ctr : Nat) :
    ∃ draw : Nat → Nat,
      (∀ a b, Memory.get m a ≠ none → Memory.get m b ≠ none → draw a = draw b → a = b) ∧
      ∀ a, (Memory.get m a = none → Memory.get (Memory.redraw m ctr) a = none) ∧
        (Memory.get m a ≠ none → ctr ≤ draw a ∧ draw a < ctr + m.length ∧
          Memory.get (Memory.redraw m ctr) a = some (Config.freeByte (draw a))) := by
  induction m generalizing ctr with
  | nil => exact ⟨id, by simp, by simp [Memory.redraw]⟩
  | cons c m ih =>
    obtain ⟨k, b⟩ := c
    obtain ⟨draw, hinj, hget⟩ := ih (ctr + 1)
    refine ⟨fun a => if k = a then ctr else draw a, fun a a' ha ha' h => ?_, fun a => ?_⟩
    · dsimp only at h
      split at h <;> split at h
      · omega
      · rename_i h2
        have := (hget a').2 (by simpa [h2] using ha')
        omega
      · rename_i h1 _
        have := (hget a).2 (by simpa [h1] using ha)
        omega
      · rename_i h1 h2
        exact hinj a a' (by simpa [h1] using ha) (by simpa [h2] using ha') h
    · by_cases h1 : k = a
      · simp [Memory.redraw, h1]
      · have := hget a
        simp only [Memory.redraw, Memory.get_cons, h1, if_false, List.length_cons]
        exact ⟨this.1, fun h => by have := this.2 h; exact ⟨by omega, by omega, this.2.2⟩⟩

/-- In canonical form, equal bytes mean equal lists. -/
theorem Memory.wf_ext {m m' : Memory} (h : m.wf) (h' : m'.wf)
    (heq : ∀ a, Memory.get m a = Memory.get m' a) : m = m' := by
  induction m generalizing m' with
  | nil =>
    cases m' with
    | nil => rfl
    | cons c m' => exact absurd (heq c.1) (by simp [Memory.get, Memory.unlisted])
  | cons c m ih =>
    obtain ⟨k, b⟩ := c
    obtain ⟨hk, hm⟩ := List.pairwise_cons.1 h
    cases m' with
    | nil => have := heq k; simp at this
    | cons c' m' =>
      obtain ⟨k', b'⟩ := c'
      obtain ⟨hk', hm'⟩ := List.pairwise_cons.1 h'
      have hkk : k = k' := by
        rcases lt_trichotomy k k' with hlt | heqk | hgt
        · have h1 := heq k
          have h2 : Memory.get ((k', b') :: m') k = none :=
            Memory.get_none_of_lt fun x hx => by
              rcases List.mem_cons.1 hx with rfl | hx
              · exact hlt
              · exact lt_trans hlt (hk' x hx)
          rw [h2] at h1; simp at h1
        · exact heqk
        · have h1 := heq k'
          have h2 : Memory.get ((k, b) :: m) k' = none :=
            Memory.get_none_of_lt fun x hx => by
              rcases List.mem_cons.1 hx with rfl | hx
              · exact hgt
              · exact lt_trans hgt (hk x hx)
          rw [h2] at h1; simp at h1
      subst hkk
      have hb : b = b' := by simpa using heq k
      subst hb
      have : m = m' := ih hm hm' fun a => by
        by_cases hka : k = a
        · subst hka
          rw [Memory.get_none_of_lt fun x hx => hk x hx, Memory.get_none_of_lt fun x hx => hk' x hx]
        · simpa [hka] using heq a
      rw [this]

end Sys2Proof.Machine
end

