-- ==== Sys2Proof/Laws/Checks.lean ====
section
/-! SUPPORT. What each shared operation can answer, said once: the checks, a command's frame of checks, a snapshot read, a
descriptor fetch, the engine's step, and the host's accesses. -/

namespace Sys2Proof.Machine

/-! ### Checks -/

theorem firstFailed_eq_none {ks : List Check} : firstFailed ks = none ↔ ∀ k ∈ ks, k.ok = true := by
  induction ks with
  | nil => simp [firstFailed]
  | cons k ks ih =>
    simp only [firstFailed]
    by_cases h : k.ok <;> simp [h, ih]

/-- The fault is that of a check which fails and before which every check holds. -/
theorem firstFailed_eq_some {ks : List Check} {t : Trap} :
    firstFailed ks = some t ↔
      ∃ pre k post, ks = pre ++ k :: post ∧ (∀ c ∈ pre, c.ok = true) ∧ k.ok = false ∧
        t = ⟨k.cause, k.info⟩ := by
  induction ks with
  | nil => simp [firstFailed]
  | cons k ks ih =>
    simp only [firstFailed]
    by_cases h : k.ok
    · rw [if_pos h, ih]
      constructor
      · rintro ⟨pre, c, post, rfl, hpre, hc, ht⟩
        refine ⟨k :: pre, c, post, rfl, ?_, hc, ht⟩
        intro x hx
        rcases List.mem_cons.1 hx with rfl | hx
        · exact h
        · exact hpre x hx
      · rintro ⟨pre, c, post, heq, hpre, hc, ht⟩
        cases pre with
        | nil =>
          obtain ⟨rfl, -⟩ := List.cons_eq_cons.1 heq
          simp [h] at hc
        | cons p pre =>
          obtain ⟨rfl, rfl⟩ := List.cons_eq_cons.1 heq
          exact ⟨pre, c, post, rfl, fun x hx => hpre x (List.mem_cons_of_mem _ hx), hc, ht⟩
    · rw [if_neg h]
      constructor
      · intro ht
        exact ⟨[], k, ks, rfl, by simp, by simpa using h, (Option.some.inj ht).symm⟩
      · rintro ⟨pre, c, post, heq, hpre, hc, ht⟩
        cases pre with
        | nil =>
          obtain ⟨rfl, -⟩ := List.cons_eq_cons.1 heq
          rw [ht]
        | cons p pre =>
          obtain ⟨rfl, -⟩ := List.cons_eq_cons.1 heq
          exact absurd (hpre k List.mem_cons_self) h

/-- The overlap checks pass exactly when no two regions, in order, share bytes they may not share. -/
theorem overlapChecks_ok {rs : List Region} :
    (∀ k ∈ overlapChecks rs, k.ok = true) ↔
      rs.Pairwise fun r q => ¬(r.exclusive q = true ∧ r.meets q = true) := by
  induction rs with
  | nil => simp [overlapChecks]
  | cons r rs ih =>
    rw [List.pairwise_cons, ← ih]
    simp only [overlapChecks, List.mem_append, List.mem_map]
    constructor
    · intro h
      refine ⟨fun q hq => ?_, fun k hk => h k (.inr hk)⟩
      have := h _ (.inl ⟨q, hq, rfl⟩)
      cases h1 : r.exclusive q <;> cases h2 : r.meets q <;> simp_all [overlapCheck]
    · rintro ⟨h1, h2⟩ k (⟨q, hq, rfl⟩ | hk)
      · have := h1 q hq
        cases h3 : r.exclusive q <;> cases h4 : r.meets q <;> simp_all [overlapCheck]
      · exact h2 k hk

/-- A command raises nothing exactly when its operand values are legal, its regions in bounds, and no forbidden pair of
regions meets. -/
theorem commandTrap_eq_none {c : Config} {i : Instr} :
    commandTrap c i = none ↔
      (∀ k ∈ paramChecks c i, k.ok = true) ∧
      (∀ r ∈ regionsOf i, r.addr + r.len ≤ c.memBytes) ∧
      (regionsOf i).Pairwise fun r q => ¬(r.exclusive q = true ∧ r.meets q = true) := by
  rw [commandTrap, firstFailed_eq_none, ← overlapChecks_ok]
  simp only [commandChecks, regionChecks, List.mem_append, List.mem_map]
  constructor
  · intro h
    refine ⟨fun k hk => h k (.inl hk), fun r hr => ?_, fun k hk => h k (.inr (.inr hk))⟩
    simpa [boundsCheck] using h _ (.inr (.inl ⟨r, hr, rfl⟩))
  · rintro ⟨h1, h2, h3⟩ k (hk | ⟨r, hr, rfl⟩ | hk)
    · exact h1 k hk
    · simpa [boundsCheck] using h2 r hr
    · exact h3 k hk

theorem fetchTrap_eq_none {s : State} :
    fetchTrap s = none ↔ s.cp.toNat % 64 = 0 ∧ s.cp.toNat + 64 ≤ s.cfg.memBytes := by
  simp [fetchTrap, firstFailed_eq_none]

/-! ### Commands and reads -/

/-- A command's two ways on: the fault its checks raise, or its body. -/
theorem command_cases {i : Instr} {s : State} {body : Unit → Result} :
    (∃ t, commandTrap s.cfg i = some t ∧ command i s body = .next (s.raise t)) ∨
      (commandTrap s.cfg i = none ∧ command i s body = body ()) := by
  unfold command
  cases h : commandTrap s.cfg i with
  | none => exact .inr ⟨rfl, rfl⟩
  | some t => exact .inl ⟨t, rfl, rfl⟩

theorem command_of_none {i : Instr} {s : State} (body : Unit → Result) (h : commandTrap s.cfg i = none) :
    command i s body = body () := by simp [command, h]

theorem command_of_some {i : Instr} {s : State} {t : Trap} (body : Unit → Result)
    (h : commandTrap s.cfg i = some t) : command i s body = .next (s.raise t) := by simp [command, h]

/-- A snapshot read's two ways on: the model's fault on an unwritten byte, or the continuation on the bytes. -/
theorem withRead_cases {s : State} {a : Word} {n : Nat} {k : List Byte → Result} :
    (s.mem.read a.toNat n = none ∧ withRead s a n k = .fault .unwrittenByte) ∨
      (∃ bs, s.mem.read a.toNat n = some bs ∧ bs.length = n ∧ withRead s a n k = k bs) := by
  unfold withRead
  cases h : s.mem.read a.toNat n with
  | none => exact .inl ⟨rfl, rfl⟩
  | some bs => exact .inr ⟨bs, rfl, Memory.read_length h, rfl⟩

theorem withRead_of_some {s : State} {a : Word} {n : Nat} {bs : List Byte} (k : List Byte → Result)
    (h : s.mem.read a.toNat n = some bs) : withRead s a n k = k bs := by simp [withRead, h]

/-- Inverting a snapshot read that leads to a next state. -/
theorem withRead_next {s t : State} {a : Word} {n : Nat} {k : List Byte → Result}
    (h : withRead s a n k = .next t) :
    ∃ bs, s.mem.read a.toNat n = some bs ∧ bs.length = n ∧ k bs = .next t := by
  rcases withRead_cases (s := s) (a := a) (n := n) (k := k) with ⟨-, h'⟩ | ⟨bs, h1, h2, h'⟩
  · rw [h'] at h; cases h
  · exact ⟨bs, h1, h2, h' ▸ h⟩

/-! ### The engine -/

/-- Everything an engine step with a next state can be: nothing while idle; or, while running, a fault of the fetch, a fault
of the decode, or the decoded command. -/
theorem engineStep_next {s t : State} (h : engineStep s = .next t) :
    (s.mode = .idle ∧ t = s) ∨
    (s.mode = .running ∧ ∃ tr, fetchTrap s = some tr ∧ t = s.raise tr) ∨
    (s.mode = .running ∧ fetchTrap s = none ∧ ∃ bs, s.mem.read s.cp.toNat 64 = some bs ∧
      ((∃ e, decode s.cfg bs = .error e ∧ t = s.raise (decodeTrap s.cp e)) ∨
       (∃ i, decode s.cfg bs = .ok i ∧ exec i s = .next t))) := by
  unfold engineStep at h
  split at h
  · rename_i hm
    cases h
    exact .inl ⟨hm, rfl⟩
  · rename_i hm
    unfold engineRun at h
    split at h
    · rename_i tr htr
      cases h
      exact .inr (.inl ⟨hm, tr, htr, rfl⟩)
    · rename_i hf
      obtain ⟨bs, h1, -, h⟩ := withRead_next h
      refine .inr (.inr ⟨hm, hf, bs, h1, ?_⟩)
      unfold runDescriptor at h
      split at h
      · rename_i e he
        cases h
        exact .inl ⟨e, he, rfl⟩
      · rename_i i hi
        exact .inr ⟨i, hi, h⟩

/-- A running engine whose descriptor decodes runs that command. -/
theorem engineStep_of_decode {s : State} {bs : List Byte} {i : Instr} (hm : s.mode = .running)
    (hf : fetchTrap s = none) (hr : s.mem.read s.cp.toNat 64 = some bs) (hd : decode s.cfg bs = .ok i) :
    engineStep s = exec i s := by
  simp [engineStep, hm, engineRun, hf, withRead, hr, runDescriptor, hd]

/-! ### The host -/

/-- What abandoning the command in execution can do: free the regions it writes, or, where a byte of its descriptor is
unwritten, every written byte. -/
theorem abandon_cases (s : State) :
    (∃ rs, interruptedRegions s = some rs ∧ abandon s = scramble rs s) ∨
    (interruptedRegions s = none ∧ abandon s = scrambleAll s) := by
  unfold abandon
  split
  · rename_i rs h
    exact .inl ⟨rs, h, rfl⟩
  · rename_i h
    exact .inr ⟨h, rfl⟩

/-- The command in execution is unknown exactly when the fetch passes its checks and reads an unwritten byte. -/
theorem interruptedRegions_eq_none {s : State} :
    interruptedRegions s = none ↔ fetchTrap s = none ∧ s.mem.read s.cp.toNat 64 = none := by
  unfold interruptedRegions
  cases hf : fetchTrap s with
  | some _ => simp
  | none =>
    cases hr : s.mem.read s.cp.toNat 64 with
    | none => simp
    | some bs =>
      cases hd : decode s.cfg bs with
      | error _ => simp [hd]
      | ok i => cases hc : commandTrap s.cfg i <;> simp [hd, hc]

/-- The regions of an interrupted command are the written regions of the command at `CP`, or none. -/
theorem interruptedRegions_cases {s : State} {rs : List Region} (h : interruptedRegions s = some rs) :
    rs = [] ∨ ∃ bs i, s.mem.read s.cp.toNat 64 = some bs ∧ decode s.cfg bs = .ok i ∧
      commandTrap s.cfg i = none ∧ rs = writtenRegions i := by
  unfold interruptedRegions at h
  split at h
  · exact .inl (Option.some.inj h).symm
  · split at h
    · cases h
    · rename_i bs hbs
      split at h
      · exact .inl (Option.some.inj h).symm
      · rename_i i hi
        split at h
        · exact .inl (Option.some.inj h).symm
        · rename_i hc
          exact .inr ⟨bs, i, hbs, hi, hc, (Option.some.inj h).symm⟩

/-- A host access with a next state went to the window or to the port. -/
theorem hostAccess_next {s t : State} {addr : Nat} {win port : Nat → Result}
    (h : hostAccess s addr win port = .next t) :
    s.cfg.hostOrdered = true ∧
    ((s.cfg.regBase ≤ addr ∧ addr < s.cfg.regBase + 64 ∧ win (addr - s.cfg.regBase) = .next t) ∨
     (s.cfg.hostBmBase ≤ addr ∧ addr < s.cfg.hostBmBase + s.cfg.memBytes ∧
       port (addr - s.cfg.hostBmBase) = .next t)) := by
  unfold hostAccess at h
  split at h
  · cases h
  · rename_i ho
    refine ⟨by simpa using ho, ?_⟩
    split at h
    · rename_i hw
      simp only [Bool.and_eq_true, decide_eq_true_eq] at hw
      exact .inl ⟨hw.1, hw.2, h⟩
    · split at h
      · rename_i hp
        simp only [Bool.and_eq_true, decide_eq_true_eq] at hp
        exact .inr ⟨hp.1, hp.2, h⟩
      · cases h

theorem windowAccess_next {off width : Nat} {t : State} {k : Reg → Result}
    (h : windowAccess off width k = .next t) : width = 4 ∧ off % 4 = 0 ∧ k (regAt off) = .next t := by
  unfold windowAccess at h
  split at h
  · rename_i hw
    simp only [Bool.and_eq_true, decide_eq_true_eq] at hw
    exact ⟨hw.1, hw.2, h⟩
  · cases h

theorem portAccess_next {s t : State} {width : Nat} {r : Result} (h : portAccess s width r = .next t) :
    s.mode = .idle ∧ width = 1 ∧ r = .next t := by
  unfold portAccess at h
  split at h
  · cases h
  · rename_i hb
    split at h
    · rename_i hw
      refine ⟨?_, hw, h⟩
      cases hm : s.mode with
      | idle => rfl
      | running => simp [State.busy, hm] at hb
    · cases h

/-- A host read changes only what the host read last. -/
theorem hostRead_next {s t : State} {addr width : Nat} (h : hostRead s addr width = .next t) :
    ∃ v, t = s.answer v := by
  obtain ⟨-, ⟨-, -, h⟩ | ⟨-, -, h⟩⟩ := hostAccess_next h
  · obtain ⟨-, -, h⟩ := windowAccess_next h
    cases h
    exact ⟨_, rfl⟩
  · obtain ⟨-, -, h⟩ := portAccess_next h
    cases h
    exact ⟨_, rfl⟩

/-- Everything a register write can be: a soft reset, a `CTRL` write of `IE` and `START`, a `DONE` clear, a `CP` write, or
nothing. -/
theorem writeReg_cases (s : State) (v : Word) (r : Reg) :
    (r = .ctrl ∧ v.getLsbD 2 = true ∧ writeReg s v r = softReset s) ∨
    (r = .ctrl ∧ v.getLsbD 2 = false ∧
      writeReg s v r = if v.getLsbD 0 then { s with ie := v.getLsbD 1 }.start else { s with ie := v.getLsbD 1 }) ∨
    (r = .status ∧ writeReg s v r = { s with done := s.done && !v.getLsbD 1 }) ∨
    (r = .cp ∧ writeReg s v r = { s with cp := if s.busy then s.cp else v }) ∨
    (r ≠ .ctrl ∧ r ≠ .status ∧ r ≠ .cp ∧ writeReg s v r = s) := by
  cases r
  case ctrl =>
    cases h : v.getLsbD 2
    · exact .inr (.inl ⟨rfl, rfl, if_neg (by rw [h]; simp)⟩)
    · exact .inl ⟨rfl, rfl, if_pos h⟩
  case status => exact .inr (.inr (.inl ⟨rfl, rfl⟩))
  case cp => exact .inr (.inr (.inr (.inl ⟨rfl, rfl⟩)))
  all_goals exact .inr (.inr (.inr (.inr ⟨nofun, nofun, nofun, rfl⟩)))

/-- A host write with a next state: a register write at an aligned word of the window, or one byte of `BM`, below
`MEM_BYTES`, while the block is idle. -/
theorem hostWrite_next {s t : State} {addr width : Nat} {v : Word} (h : hostWrite s addr width v = .next t) :
    (width = 4 ∧ s.cfg.regBase ≤ addr ∧ addr < s.cfg.regBase + 64 ∧ (addr - s.cfg.regBase) % 4 = 0 ∧
      t = writeReg s v (regAt (addr - s.cfg.regBase))) ∨
    (width = 1 ∧ s.mode = .idle ∧ s.cfg.hostBmBase ≤ addr ∧
      addr - s.cfg.hostBmBase < s.cfg.memBytes ∧
      t = { s with mem := s.mem.set (addr - s.cfg.hostBmBase) (v.extractLsb' 0 8) }) := by
  obtain ⟨-, ⟨h1, h2, h⟩ | ⟨h1, h2, h⟩⟩ := hostAccess_next h
  · obtain ⟨h3, h4, h⟩ := windowAccess_next h
    cases h
    exact .inl ⟨h3, h1, h2, h4, rfl⟩
  · obtain ⟨h3, h4, h⟩ := portAccess_next h
    cases h
    exact .inr ⟨h4, h3, h1, by omega, rfl⟩

end Sys2Proof.Machine
end

