-- ==== Sys2Proof/Laws/Encoding.lean ====
section
/-! SUPPORT. Descriptors: 64-bit operands, the length and words of an encoding, and what a decode says of its words. -/

namespace Sys2Proof

open Machine

/-- Splitting a 64-bit operand and joining it again (R52). -/
@[simp] theorem pair64_split (v : Word64) : pair64 (v.extractLsb' 0 32) (v.extractLsb' 32 32) = v := by
  apply BitVec.eq_of_toNat_eq
  have := v.isLt
  simp [pair64, BitVec.extractLsb'_toNat, Nat.shiftRight_eq_div_pow]
  omega
/-- `HI·2^32 + LO` (R52), with no wrap. -/
theorem pair64_toNat (lo hi : Word) : (pair64 lo hi).toNat = hi.toNat * 2 ^ 32 + lo.toNat := by
  have := lo.isLt
  have := hi.isLt
  simp only [pair64, BitVec.toNat_ofNat]
  omega
/-- Joining two words and splitting the result. -/
@[simp] theorem split64_pair64 (lo hi : Word) : split64 (pair64 lo hi) = [lo, hi] := by
  have h1 := lo.isLt
  have h2 := hi.isLt
  have h := pair64_toNat lo hi
  generalize pair64 lo hi = p at h
  have e1 : p.extractLsb' 0 32 = lo := by
    apply BitVec.eq_of_toNat_eq
    rw [BitVec.extractLsb'_toNat, Nat.shiftRight_eq_div_pow]
    omega
  have e2 : p.extractLsb' 32 32 = hi := by
    apply BitVec.eq_of_toNat_eq
    rw [BitVec.extractLsb'_toNat, Nat.shiftRight_eq_div_pow]
    omega
  rw [split64, e1, e2]

@[simp] theorem encodeWords_length (i : Instr) : (encodeWords i).length = 16 := by
  cases i <;> simp [encodeWords, operandWords, split64]

@[simp] theorem encode_length (i : Instr) : (encode i).length = 64 := by simp [encode]

/-- The sixteen words of a command's descriptor. -/
@[simp] theorem le32s_encode (i : Instr) : le32s 16 (encode i) = encodeWords i := by
  have h := le32s_le32sBytes (encodeWords i)
  rwa [encodeWords_length] at h

theorem decode_of_length (c : Config) {bs : List Byte} (h : bs.length = 64) :
    decode c bs = decodeWords c (le32s 16 bs) := if_pos h

theorem firstNonzero_eq_none {ws : List Word} {first : Nat} :
    firstNonzero ws first = none ↔ ∀ k, first ≤ k → k ≤ 15 → ws.getD k 0 = 0 := by
  simp only [firstNonzero, List.find?_eq_none, List.mem_range, Bool.and_eq_true, decide_eq_true_eq, bne_iff_ne]
  constructor
  · intro h k h1 h2
    by_contra h3
    exact h k (by omega) ⟨h1, h3⟩
  · rintro h k h1 ⟨h2, h3⟩
    exact h3 (h k h2 (by omega))

end Sys2Proof
end

