-- ==== Sys2Proof/Laws/Lengths.lean ====
section
/-! SUPPORT. How long every output is: each command writes exactly the bytes of its regions (spec/30_encoding.md R53). -/

namespace Sys2Proof.Machine

/-! ### SHA-2 -/

@[simp] theorem sha2Words_length {w : Nat} (x : Sha2Work w) : (sha2Words x).length = 8 := rfl

@[simp] theorem sha2Compress_length {w : Nat} (S : Sha2 w) (H : List (BitVec w)) (b : List Byte) :
    (sha2Compress S H b).length = 8 := by simp [sha2Compress]

theorem foldl_sha2Compress_length {w : Nat} (S : Sha2 w) {H : List (BitVec w)} (h : H.length = 8)
    (bs : List (List Byte)) : (bs.foldl (sha2Compress S) H).length = 8 := by
  induction bs generalizing H with
  | nil => exact h
  | cons b bs ih => exact ih (sha2Compress_length S H b)

theorem sha2Chain_length {w : Nat} (S : Sha2 w) {H : List (BitVec w)} (h : H.length = 8)
    (p : List Byte) : (sha2Chain S H p).length = 8 := foldl_sha2Compress_length S h _

@[simp] theorem sha256Image_length (H : List Word) : (sha256Image H).length = 4 * H.length := by
  simp [sha256Image]

@[simp] theorem sha512Image_length (H : List Word64) : (sha512Image H).length = 8 * H.length := by
  simp [sha512Image]

@[simp] theorem h256_length : h256.length = 8 := rfl

@[simp] theorem h512_length : h512.length = 8 := rfl

@[simp] theorem sha256CompressImage_length (st b : List Byte) : (sha256CompressImage st b).length = 32 := by
  simp [sha256CompressImage]

@[simp] theorem sha512CompressImage_length (st b : List Byte) : (sha512CompressImage st b).length = 64 := by
  simp [sha512CompressImage]

@[simp] theorem sha256Hash_length (m : List Byte) : (sha256Hash m).length = 32 := by
  simp only [sha256Hash, sha2Hash, beWordsBytes_length]
  rw [sha2Chain_length sha256Alg (H := sha256Alg.init) rfl]
  rfl

@[simp] theorem sha256dHash_length (m : List Byte) : (sha256dHash m).length = 32 := by simp [sha256dHash]

@[simp] theorem sha512Hash_length (m : List Byte) : (sha512Hash m).length = 64 := by
  simp only [sha512Hash, sha2Hash, beWordsBytes_length]
  rw [sha2Chain_length sha512Alg (H := sha512Alg.init) rfl]
  rfl

/-! ### HMAC and PBKDF2 -/

@[simp] theorem hmacSha256_length (k m : List Byte) : (hmacSha256 k m).length = 32 := by simp [hmacSha256]

theorem pbkdf2Loop_length (pwd : List Byte) (n : Nat) {u t : List Byte} (ht : t.length = 32) :
    (pbkdf2Loop pwd n u t).length = 32 := by
  induction n generalizing u t with
  | zero => exact ht
  | succ n ih => exact ih (by simp [ht])

@[simp] theorem pbkdf2Block_length (pwd salt : List Byte) (iter i : Nat) :
    (pbkdf2Block pwd salt iter i).length = 32 := pbkdf2Loop_length _ _ (by simp)

@[simp] theorem pbkdf2Sha256_length (pwd salt : List Byte) (iter dkLen : Nat) :
    (pbkdf2Sha256 pwd salt iter dkLen).length = dkLen := by
  have : ((List.range ((dkLen + 31) / 32)).flatMap
      fun k => pbkdf2Block pwd salt iter (k + 1)).length = 32 * ((dkLen + 31) / 32) := by
    simp [List.length_flatMap, Nat.mul_comm]
  rw [pbkdf2Sha256, List.length_take, this]
  omega

/-! ### Salsa, BlockMix, ROMix, scrypt -/

@[simp] theorem salsaStep_length (t p q n : Nat) (x : List Word) :
    (salsaStep t p q n x).length = x.length := by simp [salsaStep]

@[simp] theorem salsaQr_length (a b c d : Nat) (x : List Word) : (salsaQr a b c d x).length = x.length := by
  simp [salsaQr]

@[simp] theorem salsaDoubleRound_length (x : List Word) : (salsaDoubleRound x).length = x.length := by
  simp [salsaDoubleRound, salsaRows, salsaColumns]

@[simp] theorem salsaRounds_length (n : Nat) (x : List Word) : (salsaRounds n x).length = x.length := by
  induction n generalizing x with
  | zero => rfl
  | succ n ih => simp [salsaRounds, ih]

@[simp] theorem salsaCore_length (n : Nat) (b : List Byte) : (salsaCore n b).length = 64 := by
  simp [salsaCore]

@[simp] theorem blockmixChain_length (n : Nat) (x : List Byte) (bs : List (List Byte)) :
    (blockmixChain n x bs).length = bs.length := by
  induction bs generalizing x with
  | nil => rfl
  | cons b bs ih => simp [blockmixChain, ih]

theorem blockmixChain_piece_length (n : Nat) (x : List Byte) (bs : List (List Byte)) :
    ∀ y ∈ blockmixChain n x bs, y.length = 64 := by
  induction bs generalizing x with
  | nil => simp [blockmixChain]
  | cons b bs ih =>
    intro y hy
    simp only [blockmixChain, List.mem_cons] at hy
    rcases hy with rfl | hy
    · simp
    · exact ih _ y hy

theorem evens_length {α : Type} (l : List α) : (evens l).length = (l.length + 1) / 2 := by
  fun_induction evens l with
  | case1 => simp
  | case2 a => simp
  | case3 a b l ih => simp only [List.length_cons, ih]; omega

theorem mem_evens {α : Type} {l : List α} {y : α} (h : y ∈ evens l) : y ∈ l := by
  fun_induction evens l with
  | case1 => exact h
  | case2 a => exact h
  | case3 a b l ih =>
    rcases List.mem_cons.1 h with h | h
    · simp [h]
    · exact List.mem_cons_of_mem _ (List.mem_cons_of_mem _ (ih h))

theorem flatten_length_of_forall {n : Nat} {l : List (List Byte)} (h : ∀ y ∈ l, y.length = n) :
    l.flatten.length = n * l.length := by
  induction l with
  | nil => rfl
  | cons y l ih =>
    rw [List.flatten_cons, List.length_append, h y List.mem_cons_self,
      ih fun z hz => h z (List.mem_cons_of_mem _ hz), List.length_cons, Nat.mul_succ, Nat.add_comm]

@[simp] theorem blockmix_length (n r : Nat) (b : List Byte) : (blockmix n r b).length = 128 * r := by
  simp only [blockmix]
  rw [flatten_length_of_forall (n := 64)]
  · simp only [List.length_append, odds, evens_length, List.length_tail, blockmixChain_length,
      chunks_length]
    omega
  · intro y hy
    rcases List.mem_append.1 hy with hy | hy
    · exact blockmixChain_piece_length _ _ _ y (mem_evens hy)
    · exact blockmixChain_piece_length _ _ _ y (List.mem_of_mem_tail (mem_evens hy))

theorem romixFill_block_length (n r k : Nat) {x : List Byte} (h : x.length = 128 * r) :
    (romixFill n r k x).2.length = 128 * r := by
  induction k generalizing x with
  | zero => exact h
  | succ k ih => exact ih (by simp)

@[simp] theorem romixFill_table_length (n r k : Nat) (x : List Byte) : (romixFill n r k x).1.length = k := by
  induction k generalizing x with
  | zero => rfl
  | succ k ih => simp [romixFill, ih]

theorem romixFill_entry_length (n r k : Nat) {x : List Byte} (h : x.length = 128 * r) :
    ∀ y ∈ (romixFill n r k x).1, y.length = 128 * r := by
  induction k generalizing x with
  | zero => simp [romixFill]
  | succ k ih =>
    intro y hy
    simp only [romixFill, List.mem_cons] at hy
    rcases hy with rfl | hy
    · exact h
    · exact ih (by simp) y hy

theorem romixMix_length (n r m : Nat) (table : List (List Byte)) (k : Nat) {x : List Byte}
    (h : x.length = 128 * r) : (romixMix n r m table k x).length = 128 * r := by
  induction k generalizing x with
  | zero => exact h
  | succ k ih => exact ih (by simp)

theorem romix_block_length (rounds n r : Nat) {b : List Byte} (h : b.length = 128 * r) :
    (romix rounds n r b).1.length = 128 * r :=
  romixMix_length _ _ _ _ _ (romixFill_block_length _ _ _ h)

theorem romix_table_length (rounds n r : Nat) {b : List Byte} (h : b.length = 128 * r) :
    (romix rounds n r b).2.flatten.length = 128 * r * n := by
  rw [show (romix rounds n r b).2 = (romixFill rounds r n b).1 from rfl,
    flatten_length_of_forall (romixFill_entry_length rounds r n h), romixFill_table_length]

theorem scrypt_lanes_length (rounds : Nat) (pwd salt : List Byte) (n r p dkLen : Nat) :
    (scrypt rounds pwd salt n r p dkLen).lanes.length = 128 * r * p := by
  have hb : (pbkdf2Sha256 pwd salt 1 (128 * r * p)).length = 128 * r * p := by simp
  simp only [scrypt, List.flatMap_map]
  rw [List.flatMap_def, flatten_length_of_forall (n := 128 * r)]
  · simp
  · intro y hy
    obtain ⟨c, hc, rfl⟩ := List.mem_map.1 hy
    exact romix_block_length _ _ _ (chunks_piece_length hb c hc)

theorem scrypt_table_length (rounds : Nat) (pwd salt : List Byte) (n r p dkLen : Nat) (hp : 1 ≤ p) :
    (scrypt rounds pwd salt n r p dkLen).table.length = 128 * r * n := by
  have hb : (pbkdf2Sha256 pwd salt 1 (128 * r * p)).length = 128 * r * p := by simp
  simp only [scrypt]
  have hne : (chunks (128 * r) p (pbkdf2Sha256 pwd salt 1 (128 * r * p))).map (romix rounds n r) ≠ [] := by
    intro h
    have := congrArg List.length h
    simp at this
    omega
  rw [List.getLastD_eq_getLast?, List.getLast?_eq_some_getLast hne, Option.getD_some]
  obtain ⟨c, hc, h⟩ := List.mem_map.1 (List.getLast_mem hne)
  rw [← h]
  exact romix_table_length _ _ _ (chunks_piece_length hb c hc)

@[simp] theorem scrypt_key_length (rounds : Nat) (pwd salt : List Byte) (n r p dkLen : Nat) :
    (scrypt rounds pwd salt n r p dkLen).key.length = dkLen := by simp [scrypt]

/-! ### Permutation hash -/

@[simp] theorem permGHalf_length (a b c d : Nat) (m : Word) (p q : Nat) (v : List Word) :
    (permGHalf a b c d m p q v).length = v.length := by simp [permGHalf]

@[simp] theorem permRound_length (w : Nat → Word) (v : List Word) : (permRound w v).length = v.length := by
  simp [permRound, permG]

@[simp] theorem permRounds_length (m v : List Word) : (permRounds m v).length = v.length := by
  simp only [permRounds]
  generalize permSched = rows
  induction rows generalizing v with
  | nil => rfl
  | cons row rows ih => rw [List.foldl_cons, ih, permRound_length]

theorem permCompress_length {cv : List Word} (h : cv.length = 8) (m : List Word) (ctr : Word64)
    (blen flags : Word) : (permCompress cv m ctr blen flags).length = 16 := by
  simp [permCompress, permIv, h]

@[simp] theorem permIv_length : permIv.length = 8 := rfl

theorem permBlock_length {cv : List Word} (h : cv.length = 8) (chunk : List Byte) (first last : Bool) :
    (permBlock cv chunk first last).length = 8 := by
  simp [permBlock, permCompress_length h]

theorem permChain_length (n : Nat) (first : Bool) {cv : List Word} (h : cv.length = 8) (m : List Byte) :
    (permChain n first cv m).length = 8 := by
  induction n generalizing first cv m with
  | zero => exact h
  | succ n ih => exact ih _ (permBlock_length h _ _ _) _

@[simp] theorem permHash_length (m : List Byte) : (permHash m).length = 32 := by
  rw [permHash, le32sBytes_length, permChain_length _ _ permIv_length]

/-! ### Nonce search -/

@[simp] theorem resultRecord_length (r : SearchResult) : (resultRecord r).length = 24 := by
  simp [resultRecord]

end Sys2Proof.Machine
end

