-- ==== Sys2Proof/Laws/State.lean ====
section
/-! SUPPORT. The state: one lemma per field per update, so that no proof unfolds a record update. -/

namespace Sys2Proof.Machine

/-! ### `State.advance` -/

@[simp] theorem State.advance_mode (s : State) : (s.advance).mode = s.mode := rfl
@[simp] theorem State.advance_ie (s : State) : (s.advance).ie = s.ie := rfl
@[simp] theorem State.advance_done (s : State) : (s.advance).done = s.done := rfl
@[simp] theorem State.advance_cp (s : State) : (s.advance).cp = s.cp + 64 := rfl
@[simp] theorem State.advance_errCause (s : State) : (s.advance).errCause = s.errCause := rfl
@[simp] theorem State.advance_errInfo (s : State) : (s.advance).errInfo = s.errInfo := rfl
@[simp] theorem State.advance_resFound (s : State) : (s.advance).resFound = s.resFound := rfl
@[simp] theorem State.advance_resNonceLo (s : State) : (s.advance).resNonceLo = s.resNonceLo := rfl
@[simp] theorem State.advance_resNonceHi (s : State) : (s.advance).resNonceHi = s.resNonceHi := rfl
@[simp] theorem State.advance_resCountLo (s : State) : (s.advance).resCountLo = s.resCountLo := rfl
@[simp] theorem State.advance_resCountHi (s : State) : (s.advance).resCountHi = s.resCountHi := rfl
@[simp] theorem State.advance_mem (s : State) : (s.advance).mem = s.mem := rfl
@[simp] theorem State.advance_cfg (s : State) : (s.advance).cfg = s.cfg := rfl
@[simp] theorem State.advance_moves (s : State) : (s.advance).moves = s.moves := rfl
@[simp] theorem State.advance_lastRead (s : State) : (s.advance).lastRead = s.lastRead := rfl
@[simp] theorem State.advance_freeCtr (s : State) : (s.advance).freeCtr = s.freeCtr := rfl
@[simp] theorem State.advance_bmEpoch (s : State) : (s.advance).bmEpoch = s.bmEpoch := rfl

/-! ### `State.commit` -/

@[simp] theorem State.commit_mode (ws : List (Nat × List Byte)) (s : State) : (s.commit ws).mode = s.mode := rfl
@[simp] theorem State.commit_ie (ws : List (Nat × List Byte)) (s : State) : (s.commit ws).ie = s.ie := rfl
@[simp] theorem State.commit_done (ws : List (Nat × List Byte)) (s : State) : (s.commit ws).done = s.done := rfl
@[simp] theorem State.commit_cp (ws : List (Nat × List Byte)) (s : State) : (s.commit ws).cp = s.cp := rfl
@[simp] theorem State.commit_errCause (ws : List (Nat × List Byte)) (s : State) : (s.commit ws).errCause = s.errCause := rfl
@[simp] theorem State.commit_errInfo (ws : List (Nat × List Byte)) (s : State) : (s.commit ws).errInfo = s.errInfo := rfl
@[simp] theorem State.commit_resFound (ws : List (Nat × List Byte)) (s : State) : (s.commit ws).resFound = s.resFound := rfl
@[simp] theorem State.commit_resNonceLo (ws : List (Nat × List Byte)) (s : State) : (s.commit ws).resNonceLo = s.resNonceLo := rfl
@[simp] theorem State.commit_resNonceHi (ws : List (Nat × List Byte)) (s : State) : (s.commit ws).resNonceHi = s.resNonceHi := rfl
@[simp] theorem State.commit_resCountLo (ws : List (Nat × List Byte)) (s : State) : (s.commit ws).resCountLo = s.resCountLo := rfl
@[simp] theorem State.commit_resCountHi (ws : List (Nat × List Byte)) (s : State) : (s.commit ws).resCountHi = s.resCountHi := rfl
@[simp] theorem State.commit_mem (ws : List (Nat × List Byte)) (s : State) : (s.commit ws).mem = s.mem.writeAll ws := rfl
@[simp] theorem State.commit_cfg (ws : List (Nat × List Byte)) (s : State) : (s.commit ws).cfg = s.cfg := rfl
@[simp] theorem State.commit_moves (ws : List (Nat × List Byte)) (s : State) : (s.commit ws).moves = s.moves := rfl
@[simp] theorem State.commit_lastRead (ws : List (Nat × List Byte)) (s : State) : (s.commit ws).lastRead = s.lastRead := rfl
@[simp] theorem State.commit_freeCtr (ws : List (Nat × List Byte)) (s : State) : (s.commit ws).freeCtr = s.freeCtr := rfl
@[simp] theorem State.commit_bmEpoch (ws : List (Nat × List Byte)) (s : State) : (s.commit ws).bmEpoch = s.bmEpoch := rfl

/-! ### `State.complete` -/

@[simp] theorem State.complete_mode (ws : List (Nat × List Byte)) (s : State) : (s.complete ws).mode = s.mode := rfl
@[simp] theorem State.complete_ie (ws : List (Nat × List Byte)) (s : State) : (s.complete ws).ie = s.ie := rfl
@[simp] theorem State.complete_done (ws : List (Nat × List Byte)) (s : State) : (s.complete ws).done = s.done := rfl
@[simp] theorem State.complete_cp (ws : List (Nat × List Byte)) (s : State) : (s.complete ws).cp = s.cp + 64 := rfl
@[simp] theorem State.complete_errCause (ws : List (Nat × List Byte)) (s : State) : (s.complete ws).errCause = s.errCause := rfl
@[simp] theorem State.complete_errInfo (ws : List (Nat × List Byte)) (s : State) : (s.complete ws).errInfo = s.errInfo := rfl
@[simp] theorem State.complete_resFound (ws : List (Nat × List Byte)) (s : State) : (s.complete ws).resFound = s.resFound := rfl
@[simp] theorem State.complete_resNonceLo (ws : List (Nat × List Byte)) (s : State) : (s.complete ws).resNonceLo = s.resNonceLo := rfl
@[simp] theorem State.complete_resNonceHi (ws : List (Nat × List Byte)) (s : State) : (s.complete ws).resNonceHi = s.resNonceHi := rfl
@[simp] theorem State.complete_resCountLo (ws : List (Nat × List Byte)) (s : State) : (s.complete ws).resCountLo = s.resCountLo := rfl
@[simp] theorem State.complete_resCountHi (ws : List (Nat × List Byte)) (s : State) : (s.complete ws).resCountHi = s.resCountHi := rfl
@[simp] theorem State.complete_mem (ws : List (Nat × List Byte)) (s : State) : (s.complete ws).mem = s.mem.writeAll ws := rfl
@[simp] theorem State.complete_cfg (ws : List (Nat × List Byte)) (s : State) : (s.complete ws).cfg = s.cfg := rfl
@[simp] theorem State.complete_moves (ws : List (Nat × List Byte)) (s : State) : (s.complete ws).moves = s.moves := rfl
@[simp] theorem State.complete_lastRead (ws : List (Nat × List Byte)) (s : State) : (s.complete ws).lastRead = s.lastRead := rfl
@[simp] theorem State.complete_freeCtr (ws : List (Nat × List Byte)) (s : State) : (s.complete ws).freeCtr = s.freeCtr := rfl
@[simp] theorem State.complete_bmEpoch (ws : List (Nat × List Byte)) (s : State) : (s.complete ws).bmEpoch = s.bmEpoch := rfl

/-! ### `State.stop` -/

@[simp] theorem State.stop_mode (s : State) : (s.stop).mode = .idle := rfl
@[simp] theorem State.stop_ie (s : State) : (s.stop).ie = s.ie := rfl
@[simp] theorem State.stop_done (s : State) : (s.stop).done = true := rfl
@[simp] theorem State.stop_cp (s : State) : (s.stop).cp = s.cp := rfl
@[simp] theorem State.stop_errCause (s : State) : (s.stop).errCause = s.errCause := rfl
@[simp] theorem State.stop_errInfo (s : State) : (s.stop).errInfo = s.errInfo := rfl
@[simp] theorem State.stop_resFound (s : State) : (s.stop).resFound = s.resFound := rfl
@[simp] theorem State.stop_resNonceLo (s : State) : (s.stop).resNonceLo = s.resNonceLo := rfl
@[simp] theorem State.stop_resNonceHi (s : State) : (s.stop).resNonceHi = s.resNonceHi := rfl
@[simp] theorem State.stop_resCountLo (s : State) : (s.stop).resCountLo = s.resCountLo := rfl
@[simp] theorem State.stop_resCountHi (s : State) : (s.stop).resCountHi = s.resCountHi := rfl
@[simp] theorem State.stop_mem (s : State) : (s.stop).mem = s.mem := rfl
@[simp] theorem State.stop_cfg (s : State) : (s.stop).cfg = s.cfg := rfl
@[simp] theorem State.stop_moves (s : State) : (s.stop).moves = s.moves := rfl
@[simp] theorem State.stop_lastRead (s : State) : (s.stop).lastRead = s.lastRead := rfl
@[simp] theorem State.stop_freeCtr (s : State) : (s.stop).freeCtr = s.freeCtr := rfl
@[simp] theorem State.stop_bmEpoch (s : State) : (s.stop).bmEpoch = s.bmEpoch := rfl

/-! ### `State.raise` -/

@[simp] theorem State.raise_mode (t : Trap) (s : State) : (s.raise t).mode = .idle := rfl
@[simp] theorem State.raise_ie (t : Trap) (s : State) : (s.raise t).ie = s.ie := rfl
@[simp] theorem State.raise_done (t : Trap) (s : State) : (s.raise t).done = true := rfl
@[simp] theorem State.raise_cp (t : Trap) (s : State) : (s.raise t).cp = s.cp := rfl
@[simp] theorem State.raise_errCause (t : Trap) (s : State) : (s.raise t).errCause = t.cause.code := rfl
@[simp] theorem State.raise_errInfo (t : Trap) (s : State) : (s.raise t).errInfo = t.info := rfl
@[simp] theorem State.raise_resFound (t : Trap) (s : State) : (s.raise t).resFound = s.resFound := rfl
@[simp] theorem State.raise_resNonceLo (t : Trap) (s : State) : (s.raise t).resNonceLo = s.resNonceLo := rfl
@[simp] theorem State.raise_resNonceHi (t : Trap) (s : State) : (s.raise t).resNonceHi = s.resNonceHi := rfl
@[simp] theorem State.raise_resCountLo (t : Trap) (s : State) : (s.raise t).resCountLo = s.resCountLo := rfl
@[simp] theorem State.raise_resCountHi (t : Trap) (s : State) : (s.raise t).resCountHi = s.resCountHi := rfl
@[simp] theorem State.raise_mem (t : Trap) (s : State) : (s.raise t).mem = s.mem := rfl
@[simp] theorem State.raise_cfg (t : Trap) (s : State) : (s.raise t).cfg = s.cfg := rfl
@[simp] theorem State.raise_moves (t : Trap) (s : State) : (s.raise t).moves = s.moves := rfl
@[simp] theorem State.raise_lastRead (t : Trap) (s : State) : (s.raise t).lastRead = s.lastRead := rfl
@[simp] theorem State.raise_freeCtr (t : Trap) (s : State) : (s.raise t).freeCtr = s.freeCtr := rfl
@[simp] theorem State.raise_bmEpoch (t : Trap) (s : State) : (s.raise t).bmEpoch = s.bmEpoch := rfl

/-! ### `State.setResult` -/

@[simp] theorem State.setResult_mode (r : SearchResult) (s : State) : (s.setResult r).mode = s.mode := rfl
@[simp] theorem State.setResult_ie (r : SearchResult) (s : State) : (s.setResult r).ie = s.ie := rfl
@[simp] theorem State.setResult_done (r : SearchResult) (s : State) : (s.setResult r).done = s.done := rfl
@[simp] theorem State.setResult_cp (r : SearchResult) (s : State) : (s.setResult r).cp = s.cp := rfl
@[simp] theorem State.setResult_errCause (r : SearchResult) (s : State) : (s.setResult r).errCause = s.errCause := rfl
@[simp] theorem State.setResult_errInfo (r : SearchResult) (s : State) : (s.setResult r).errInfo = s.errInfo := rfl
@[simp] theorem State.setResult_resFound (r : SearchResult) (s : State) : (s.setResult r).resFound = r.found := rfl
@[simp] theorem State.setResult_resNonceLo (r : SearchResult) (s : State) : (s.setResult r).resNonceLo = r.nonce.extractLsb' 0 32 := rfl
@[simp] theorem State.setResult_resNonceHi (r : SearchResult) (s : State) : (s.setResult r).resNonceHi = r.nonce.extractLsb' 32 32 := rfl
@[simp] theorem State.setResult_resCountLo (r : SearchResult) (s : State) : (s.setResult r).resCountLo = r.count.extractLsb' 0 32 := rfl
@[simp] theorem State.setResult_resCountHi (r : SearchResult) (s : State) : (s.setResult r).resCountHi = r.count.extractLsb' 32 32 := rfl
@[simp] theorem State.setResult_mem (r : SearchResult) (s : State) : (s.setResult r).mem = s.mem := rfl
@[simp] theorem State.setResult_cfg (r : SearchResult) (s : State) : (s.setResult r).cfg = s.cfg := rfl
@[simp] theorem State.setResult_moves (r : SearchResult) (s : State) : (s.setResult r).moves = s.moves := rfl
@[simp] theorem State.setResult_lastRead (r : SearchResult) (s : State) : (s.setResult r).lastRead = s.lastRead := rfl
@[simp] theorem State.setResult_freeCtr (r : SearchResult) (s : State) : (s.setResult r).freeCtr = s.freeCtr := rfl
@[simp] theorem State.setResult_bmEpoch (r : SearchResult) (s : State) : (s.setResult r).bmEpoch = s.bmEpoch := rfl

/-! ### `State.clearRegisters` -/

@[simp] theorem State.clearRegisters_mode (s : State) : (s.clearRegisters).mode = .idle := rfl
@[simp] theorem State.clearRegisters_ie (s : State) : (s.clearRegisters).ie = false := rfl
@[simp] theorem State.clearRegisters_done (s : State) : (s.clearRegisters).done = false := rfl
@[simp] theorem State.clearRegisters_cp (s : State) : (s.clearRegisters).cp = 0 := rfl
@[simp] theorem State.clearRegisters_errCause (s : State) : (s.clearRegisters).errCause = 0 := rfl
@[simp] theorem State.clearRegisters_errInfo (s : State) : (s.clearRegisters).errInfo = 0 := rfl
@[simp] theorem State.clearRegisters_resFound (s : State) : (s.clearRegisters).resFound = false := rfl
@[simp] theorem State.clearRegisters_resNonceLo (s : State) : (s.clearRegisters).resNonceLo = 0 := rfl
@[simp] theorem State.clearRegisters_resNonceHi (s : State) : (s.clearRegisters).resNonceHi = 0 := rfl
@[simp] theorem State.clearRegisters_resCountLo (s : State) : (s.clearRegisters).resCountLo = 0 := rfl
@[simp] theorem State.clearRegisters_resCountHi (s : State) : (s.clearRegisters).resCountHi = 0 := rfl
@[simp] theorem State.clearRegisters_mem (s : State) : (s.clearRegisters).mem = s.mem := rfl
@[simp] theorem State.clearRegisters_cfg (s : State) : (s.clearRegisters).cfg = s.cfg := rfl
@[simp] theorem State.clearRegisters_moves (s : State) : (s.clearRegisters).moves = s.moves := rfl
@[simp] theorem State.clearRegisters_lastRead (s : State) : (s.clearRegisters).lastRead = s.lastRead := rfl
@[simp] theorem State.clearRegisters_freeCtr (s : State) : (s.clearRegisters).freeCtr = s.freeCtr := rfl
@[simp] theorem State.clearRegisters_bmEpoch (s : State) : (s.clearRegisters).bmEpoch = s.bmEpoch := rfl

/-! ### `State.answer` -/

@[simp] theorem State.answer_mode (v : Word) (s : State) : (s.answer v).mode = s.mode := rfl
@[simp] theorem State.answer_ie (v : Word) (s : State) : (s.answer v).ie = s.ie := rfl
@[simp] theorem State.answer_done (v : Word) (s : State) : (s.answer v).done = s.done := rfl
@[simp] theorem State.answer_cp (v : Word) (s : State) : (s.answer v).cp = s.cp := rfl
@[simp] theorem State.answer_errCause (v : Word) (s : State) : (s.answer v).errCause = s.errCause := rfl
@[simp] theorem State.answer_errInfo (v : Word) (s : State) : (s.answer v).errInfo = s.errInfo := rfl
@[simp] theorem State.answer_resFound (v : Word) (s : State) : (s.answer v).resFound = s.resFound := rfl
@[simp] theorem State.answer_resNonceLo (v : Word) (s : State) : (s.answer v).resNonceLo = s.resNonceLo := rfl
@[simp] theorem State.answer_resNonceHi (v : Word) (s : State) : (s.answer v).resNonceHi = s.resNonceHi := rfl
@[simp] theorem State.answer_resCountLo (v : Word) (s : State) : (s.answer v).resCountLo = s.resCountLo := rfl
@[simp] theorem State.answer_resCountHi (v : Word) (s : State) : (s.answer v).resCountHi = s.resCountHi := rfl
@[simp] theorem State.answer_mem (v : Word) (s : State) : (s.answer v).mem = s.mem := rfl
@[simp] theorem State.answer_cfg (v : Word) (s : State) : (s.answer v).cfg = s.cfg := rfl
@[simp] theorem State.answer_moves (v : Word) (s : State) : (s.answer v).moves = s.moves := rfl
@[simp] theorem State.answer_lastRead (v : Word) (s : State) : (s.answer v).lastRead = some v := rfl
@[simp] theorem State.answer_freeCtr (v : Word) (s : State) : (s.answer v).freeCtr = s.freeCtr := rfl
@[simp] theorem State.answer_bmEpoch (v : Word) (s : State) : (s.answer v).bmEpoch = s.bmEpoch := rfl

/-! ### `State.dropMove` -/

@[simp] theorem State.dropMove_mode (s : State) : (s.dropMove).mode = s.mode := rfl
@[simp] theorem State.dropMove_ie (s : State) : (s.dropMove).ie = s.ie := rfl
@[simp] theorem State.dropMove_done (s : State) : (s.dropMove).done = s.done := rfl
@[simp] theorem State.dropMove_cp (s : State) : (s.dropMove).cp = s.cp := rfl
@[simp] theorem State.dropMove_errCause (s : State) : (s.dropMove).errCause = s.errCause := rfl
@[simp] theorem State.dropMove_errInfo (s : State) : (s.dropMove).errInfo = s.errInfo := rfl
@[simp] theorem State.dropMove_resFound (s : State) : (s.dropMove).resFound = s.resFound := rfl
@[simp] theorem State.dropMove_resNonceLo (s : State) : (s.dropMove).resNonceLo = s.resNonceLo := rfl
@[simp] theorem State.dropMove_resNonceHi (s : State) : (s.dropMove).resNonceHi = s.resNonceHi := rfl
@[simp] theorem State.dropMove_resCountLo (s : State) : (s.dropMove).resCountLo = s.resCountLo := rfl
@[simp] theorem State.dropMove_resCountHi (s : State) : (s.dropMove).resCountHi = s.resCountHi := rfl
@[simp] theorem State.dropMove_mem (s : State) : (s.dropMove).mem = s.mem := rfl
@[simp] theorem State.dropMove_cfg (s : State) : (s.dropMove).cfg = s.cfg := rfl
@[simp] theorem State.dropMove_moves (s : State) : (s.dropMove).moves = s.moves.tail := rfl
@[simp] theorem State.dropMove_lastRead (s : State) : (s.dropMove).lastRead = s.lastRead := rfl
@[simp] theorem State.dropMove_freeCtr (s : State) : (s.dropMove).freeCtr = s.freeCtr := rfl
@[simp] theorem State.dropMove_bmEpoch (s : State) : (s.dropMove).bmEpoch = s.bmEpoch := rfl

/-! ### `State.start` -/

theorem State.start_idle {s : State} (h : s.mode = .idle) :
    s.start = { s with mode := .running, done := false, errCause := 0, errInfo := 0 } := by
  simp [State.start, h]

@[simp] theorem State.start_running {s : State} (h : s.mode = .running) : s.start = s := by
  simp [State.start, h]

@[simp] theorem State.start_mode (s : State) : s.start.mode = .running := by
  cases h : s.mode <;> simp [State.start, h]
@[simp] theorem State.start_ie (s : State) : s.start.ie = s.ie := by
  cases h : s.mode <;> simp [State.start, h]
@[simp] theorem State.start_cp (s : State) : s.start.cp = s.cp := by
  cases h : s.mode <;> simp [State.start, h]
@[simp] theorem State.start_resFound (s : State) : s.start.resFound = s.resFound := by
  cases h : s.mode <;> simp [State.start, h]
@[simp] theorem State.start_resNonceLo (s : State) : s.start.resNonceLo = s.resNonceLo := by
  cases h : s.mode <;> simp [State.start, h]
@[simp] theorem State.start_resNonceHi (s : State) : s.start.resNonceHi = s.resNonceHi := by
  cases h : s.mode <;> simp [State.start, h]
@[simp] theorem State.start_resCountLo (s : State) : s.start.resCountLo = s.resCountLo := by
  cases h : s.mode <;> simp [State.start, h]
@[simp] theorem State.start_resCountHi (s : State) : s.start.resCountHi = s.resCountHi := by
  cases h : s.mode <;> simp [State.start, h]
@[simp] theorem State.start_mem (s : State) : s.start.mem = s.mem := by
  cases h : s.mode <;> simp [State.start, h]
@[simp] theorem State.start_cfg (s : State) : s.start.cfg = s.cfg := by
  cases h : s.mode <;> simp [State.start, h]
@[simp] theorem State.start_moves (s : State) : s.start.moves = s.moves := by
  cases h : s.mode <;> simp [State.start, h]
@[simp] theorem State.start_lastRead (s : State) : s.start.lastRead = s.lastRead := by
  cases h : s.mode <;> simp [State.start, h]
@[simp] theorem State.start_freeCtr (s : State) : s.start.freeCtr = s.freeCtr := by
  cases h : s.mode <;> simp [State.start, h]
@[simp] theorem State.start_bmEpoch (s : State) : s.start.bmEpoch = s.bmEpoch := by
  cases h : s.mode <;> simp [State.start, h]

/-! ### `powerOn` -/

@[simp] theorem powerOn_mode (s : State) : (powerOn s).mode = .idle := rfl
@[simp] theorem powerOn_ie (s : State) : (powerOn s).ie = false := rfl
@[simp] theorem powerOn_done (s : State) : (powerOn s).done = false := rfl
@[simp] theorem powerOn_cp (s : State) : (powerOn s).cp = 0 := rfl
@[simp] theorem powerOn_errCause (s : State) : (powerOn s).errCause = 0 := rfl
@[simp] theorem powerOn_errInfo (s : State) : (powerOn s).errInfo = 0 := rfl
@[simp] theorem powerOn_resFound (s : State) : (powerOn s).resFound = false := rfl
@[simp] theorem powerOn_resNonceLo (s : State) : (powerOn s).resNonceLo = 0 := rfl
@[simp] theorem powerOn_resNonceHi (s : State) : (powerOn s).resNonceHi = 0 := rfl
@[simp] theorem powerOn_resCountLo (s : State) : (powerOn s).resCountLo = 0 := rfl
@[simp] theorem powerOn_resCountHi (s : State) : (powerOn s).resCountHi = 0 := rfl
@[simp] theorem powerOn_mem (s : State) : (powerOn s).mem = [] := rfl
@[simp] theorem powerOn_cfg (s : State) : (powerOn s).cfg = s.cfg := rfl
@[simp] theorem powerOn_moves (s : State) : (powerOn s).moves = s.moves := rfl
@[simp] theorem powerOn_lastRead (s : State) : (powerOn s).lastRead = s.lastRead := rfl
@[simp] theorem powerOn_freeCtr (s : State) : (powerOn s).freeCtr = s.freeCtr := rfl
@[simp] theorem powerOn_bmEpoch (s : State) : (powerOn s).bmEpoch = s.bmEpoch + 1 := rfl

/-! ### `scramble`: only the memory and the counter change -/

theorem scramble_fields (rs : List Region) (s : State) :
    scramble rs s = { s with mem := (scramble rs s).mem, freeCtr := (scramble rs s).freeCtr } := by
  induction rs generalizing s with
  | nil => rfl
  | cons r rs ih => rw [scramble, ih]

@[simp] theorem scramble_mode (rs : List Region) (s : State) : (scramble rs s).mode = s.mode := by
  rw [scramble_fields]
@[simp] theorem scramble_ie (rs : List Region) (s : State) : (scramble rs s).ie = s.ie := by
  rw [scramble_fields]
@[simp] theorem scramble_done (rs : List Region) (s : State) : (scramble rs s).done = s.done := by
  rw [scramble_fields]
@[simp] theorem scramble_cp (rs : List Region) (s : State) : (scramble rs s).cp = s.cp := by
  rw [scramble_fields]
@[simp] theorem scramble_errCause (rs : List Region) (s : State) : (scramble rs s).errCause = s.errCause := by
  rw [scramble_fields]
@[simp] theorem scramble_errInfo (rs : List Region) (s : State) : (scramble rs s).errInfo = s.errInfo := by
  rw [scramble_fields]
@[simp] theorem scramble_resFound (rs : List Region) (s : State) : (scramble rs s).resFound = s.resFound := by
  rw [scramble_fields]
@[simp] theorem scramble_resNonceLo (rs : List Region) (s : State) : (scramble rs s).resNonceLo = s.resNonceLo := by
  rw [scramble_fields]
@[simp] theorem scramble_resNonceHi (rs : List Region) (s : State) : (scramble rs s).resNonceHi = s.resNonceHi := by
  rw [scramble_fields]
@[simp] theorem scramble_resCountLo (rs : List Region) (s : State) : (scramble rs s).resCountLo = s.resCountLo := by
  rw [scramble_fields]
@[simp] theorem scramble_resCountHi (rs : List Region) (s : State) : (scramble rs s).resCountHi = s.resCountHi := by
  rw [scramble_fields]
@[simp] theorem scramble_cfg (rs : List Region) (s : State) : (scramble rs s).cfg = s.cfg := by
  rw [scramble_fields]
@[simp] theorem scramble_moves (rs : List Region) (s : State) : (scramble rs s).moves = s.moves := by
  rw [scramble_fields]
@[simp] theorem scramble_lastRead (rs : List Region) (s : State) : (scramble rs s).lastRead = s.lastRead := by
  rw [scramble_fields]

@[simp] theorem scramble_bmEpoch (rs : List Region) (s : State) : (scramble rs s).bmEpoch = s.bmEpoch := by
  rw [scramble_fields]

/-! ### `abandon`: only the memory and the two counts change -/

theorem abandon_fields (s : State) :
    abandon s = { s with mem := (abandon s).mem, freeCtr := (abandon s).freeCtr, bmEpoch := (abandon s).bmEpoch } := by
  unfold abandon
  split
  · rw [scramble_fields]
  · rfl

@[simp] theorem abandon_mode (s : State) : (abandon s).mode = s.mode := by rw [abandon_fields]
@[simp] theorem abandon_ie (s : State) : (abandon s).ie = s.ie := by rw [abandon_fields]
@[simp] theorem abandon_done (s : State) : (abandon s).done = s.done := by rw [abandon_fields]
@[simp] theorem abandon_cp (s : State) : (abandon s).cp = s.cp := by rw [abandon_fields]
@[simp] theorem abandon_errCause (s : State) : (abandon s).errCause = s.errCause := by rw [abandon_fields]
@[simp] theorem abandon_errInfo (s : State) : (abandon s).errInfo = s.errInfo := by rw [abandon_fields]
@[simp] theorem abandon_resFound (s : State) : (abandon s).resFound = s.resFound := by rw [abandon_fields]
@[simp] theorem abandon_resNonceLo (s : State) : (abandon s).resNonceLo = s.resNonceLo := by rw [abandon_fields]
@[simp] theorem abandon_resNonceHi (s : State) : (abandon s).resNonceHi = s.resNonceHi := by rw [abandon_fields]
@[simp] theorem abandon_resCountLo (s : State) : (abandon s).resCountLo = s.resCountLo := by rw [abandon_fields]
@[simp] theorem abandon_resCountHi (s : State) : (abandon s).resCountHi = s.resCountHi := by rw [abandon_fields]
@[simp] theorem abandon_cfg (s : State) : (abandon s).cfg = s.cfg := by rw [abandon_fields]
@[simp] theorem abandon_moves (s : State) : (abandon s).moves = s.moves := by rw [abandon_fields]
@[simp] theorem abandon_lastRead (s : State) : (abandon s).lastRead = s.lastRead := by rw [abandon_fields]

/-! ### `softReset` -/

/-- A soft reset: the registers cleared, and `BM` as it was, or as the abandoned command leaves it when the block ran. -/
theorem softReset_eq (s : State) :
    softReset s = (match s.mode with | .idle => s | .running => abandon s).clearRegisters := by
  unfold softReset
  split <;> simp_all

@[simp] theorem softReset_mode (s : State) : (softReset s).mode = .idle := by
  cases h : s.mode <;> simp [softReset, h]
@[simp] theorem softReset_ie (s : State) : (softReset s).ie = false := by
  cases h : s.mode <;> simp [softReset, h]
@[simp] theorem softReset_done (s : State) : (softReset s).done = false := by
  cases h : s.mode <;> simp [softReset, h]
@[simp] theorem softReset_cp (s : State) : (softReset s).cp = 0 := by
  cases h : s.mode <;> simp [softReset, h]
@[simp] theorem softReset_errCause (s : State) : (softReset s).errCause = 0 := by
  cases h : s.mode <;> simp [softReset, h]
@[simp] theorem softReset_errInfo (s : State) : (softReset s).errInfo = 0 := by
  cases h : s.mode <;> simp [softReset, h]
@[simp] theorem softReset_resFound (s : State) : (softReset s).resFound = false := by
  cases h : s.mode <;> simp [softReset, h]
@[simp] theorem softReset_resNonceLo (s : State) : (softReset s).resNonceLo = 0 := by
  cases h : s.mode <;> simp [softReset, h]
@[simp] theorem softReset_resNonceHi (s : State) : (softReset s).resNonceHi = 0 := by
  cases h : s.mode <;> simp [softReset, h]
@[simp] theorem softReset_resCountLo (s : State) : (softReset s).resCountLo = 0 := by
  cases h : s.mode <;> simp [softReset, h]
@[simp] theorem softReset_resCountHi (s : State) : (softReset s).resCountHi = 0 := by
  cases h : s.mode <;> simp [softReset, h]
@[simp] theorem softReset_cfg (s : State) : (softReset s).cfg = s.cfg := by
  cases h : s.mode <;> simp [softReset, h]
@[simp] theorem softReset_moves (s : State) : (softReset s).moves = s.moves := by
  cases h : s.mode <;> simp [softReset, h]
@[simp] theorem softReset_lastRead (s : State) : (softReset s).lastRead = s.lastRead := by
  cases h : s.mode <;> simp [softReset, h]

/-! ### `completeSearch` -/

@[simp] theorem completeSearch_mode (res : Word) (r : SearchResult) (s : State) :
    (completeSearch res r s).mode = s.mode := by simp [completeSearch]
@[simp] theorem completeSearch_ie (res : Word) (r : SearchResult) (s : State) :
    (completeSearch res r s).ie = s.ie := by simp [completeSearch]
@[simp] theorem completeSearch_done (res : Word) (r : SearchResult) (s : State) :
    (completeSearch res r s).done = s.done := by simp [completeSearch]
@[simp] theorem completeSearch_cp (res : Word) (r : SearchResult) (s : State) :
    (completeSearch res r s).cp = s.cp + 64 := by simp [completeSearch]
@[simp] theorem completeSearch_errCause (res : Word) (r : SearchResult) (s : State) :
    (completeSearch res r s).errCause = s.errCause := by simp [completeSearch]
@[simp] theorem completeSearch_errInfo (res : Word) (r : SearchResult) (s : State) :
    (completeSearch res r s).errInfo = s.errInfo := by simp [completeSearch]
@[simp] theorem completeSearch_resFound (res : Word) (r : SearchResult) (s : State) :
    (completeSearch res r s).resFound = r.found := by simp [completeSearch]
@[simp] theorem completeSearch_resNonceLo (res : Word) (r : SearchResult) (s : State) :
    (completeSearch res r s).resNonceLo = r.nonce.extractLsb' 0 32 := by simp [completeSearch]
@[simp] theorem completeSearch_resNonceHi (res : Word) (r : SearchResult) (s : State) :
    (completeSearch res r s).resNonceHi = r.nonce.extractLsb' 32 32 := by simp [completeSearch]
@[simp] theorem completeSearch_resCountLo (res : Word) (r : SearchResult) (s : State) :
    (completeSearch res r s).resCountLo = r.count.extractLsb' 0 32 := by simp [completeSearch]
@[simp] theorem completeSearch_resCountHi (res : Word) (r : SearchResult) (s : State) :
    (completeSearch res r s).resCountHi = r.count.extractLsb' 32 32 := by simp [completeSearch]
@[simp] theorem completeSearch_mem (res : Word) (r : SearchResult) (s : State) :
    (completeSearch res r s).mem = s.mem.write res.toNat (resultRecord r) := by simp [completeSearch, Memory.writeAll]
@[simp] theorem completeSearch_cfg (res : Word) (r : SearchResult) (s : State) :
    (completeSearch res r s).cfg = s.cfg := by simp [completeSearch]
@[simp] theorem completeSearch_moves (res : Word) (r : SearchResult) (s : State) :
    (completeSearch res r s).moves = s.moves := by simp [completeSearch]
@[simp] theorem completeSearch_lastRead (res : Word) (r : SearchResult) (s : State) :
    (completeSearch res r s).lastRead = s.lastRead := by simp [completeSearch]
@[simp] theorem completeSearch_freeCtr (res : Word) (r : SearchResult) (s : State) :
    (completeSearch res r s).freeCtr = s.freeCtr := by simp [completeSearch]
@[simp] theorem completeSearch_bmEpoch (res : Word) (r : SearchResult) (s : State) :
    (completeSearch res r s).bmEpoch = s.bmEpoch := by simp [completeSearch]

/-! ### Completions, written out -/

/-- The state after a command that stores one byte string. -/
theorem State.complete_one (s : State) (a : Nat) (bs : List Byte) :
    s.complete [(a, bs)] = { s with mem := s.mem.write a bs, cp := s.cp + 64 } := rfl

/-- The state after a command that stores two byte strings. -/
theorem State.complete_two (s : State) (a b : Nat) (xs ys : List Byte) :
    s.complete [(a, xs), (b, ys)] = { s with mem := (s.mem.write a xs).write b ys, cp := s.cp + 64 } := rfl

end Sys2Proof.Machine
end

