-- ==== Sys2Proof/Laws/Exec.lean ====
section
/-! SUPPORT. Everything `exec` can answer with a next state, said once for all commands. -/

namespace Sys2Proof.Machine

/-- These writes fill regions the command writes, each exactly. -/
def WritesFit (i : Instr) (ws : List (Nat × List Byte)) : Prop :=
  ∀ w ∈ ws, ∃ r ∈ writtenRegions i, w.1 = r.addr ∧ w.2.length = r.len

/-- The next state of a command that raises nothing: `HALT` stops the list; every other command writes regions of its own
and moves `CP`; a nonce search writes the result registers too. -/
def Completes (i : Instr) (s t : State) : Prop :=
  (i = .halt ∧ t = s.advance.stop) ∨
  (i ≠ .halt ∧ ∃ ws, WritesFit i ws ∧
    ((isSearch i = false ∧ t = s.complete ws) ∨
     (isSearch i = true ∧ ∃ r, t = (s.complete ws).setResult r)))

theorem completes_of_writes {i : Instr} {s : State} {ws : List (Nat × List Byte)} (h : i ≠ .halt)
    (hs : isSearch i = false) (hw : WritesFit i ws) : Completes i s (s.complete ws) :=
  .inr ⟨h, ws, hw, .inl ⟨hs, rfl⟩⟩

/-- Everything `exec` can answer with a next state: the fault of the first failing check, or a completion. -/
theorem exec_next {i : Instr} {s t : State} (h : exec i s = .next t) :
    (∃ tr, commandTrap s.cfg i = some tr ∧ t = s.raise tr) ∨
      (commandTrap s.cfg i = none ∧ Completes i s t) := by
  have key : ∀ {body : Unit → Result}, command i s body = .next t →
      (commandTrap s.cfg i = none → body () = .next t → Completes i s t) →
      (∃ tr, commandTrap s.cfg i = some tr ∧ t = s.raise tr) ∨
        (commandTrap s.cfg i = none ∧ Completes i s t) := by
    intro body hb hk
    rcases command_cases (i := i) (s := s) (body := body) with ⟨tr, h1, h2⟩ | ⟨h1, h2⟩
    · rw [h2] at hb; cases hb; exact .inl ⟨tr, h1, rfl⟩
    · exact .inr ⟨h1, hk h1 (h2 ▸ hb)⟩
  cases i with
  | halt => cases h; exact .inr ⟨rfl, .inl ⟨rfl, rfl⟩⟩
  | nop =>
    cases h
    refine .inr ⟨rfl, ?_⟩
    exact completes_of_writes (ws := []) (by simp) rfl (by simp [WritesFit])
  | sha256Iv dst =>
    simp only [exec, execSha256Iv] at h
    refine key h fun _ hb => ?_
    cases hb
    exact completes_of_writes (by simp) rfl (by simp [WritesFit, writtenRegions, regionsOf, region, RegionClass.written])
  | sha256Compress dst state block =>
    simp only [exec, execSha256Compress] at h
    refine key h fun _ hb => ?_
    obtain ⟨st, -, -, hb⟩ := withRead_next hb
    obtain ⟨bl, -, -, hb⟩ := withRead_next hb
    cases hb
    exact completes_of_writes (by simp) rfl (by simp [WritesFit, writtenRegions, regionsOf, region, RegionClass.written])
  | sha256 dst src len =>
    simp only [exec, execSha256] at h
    refine key h fun _ hb => ?_
    obtain ⟨m, -, -, hb⟩ := withRead_next hb
    cases hb
    exact completes_of_writes (by simp) rfl (by simp [WritesFit, writtenRegions, regionsOf, region, RegionClass.written])
  | sha256d dst src len =>
    simp only [exec, execSha256d] at h
    refine key h fun _ hb => ?_
    obtain ⟨m, -, -, hb⟩ := withRead_next hb
    cases hb
    exact completes_of_writes (by simp) rfl (by simp [WritesFit, writtenRegions, regionsOf, region, RegionClass.written])
  | sha512Iv dst =>
    simp only [exec, execSha512Iv] at h
    refine key h fun _ hb => ?_
    cases hb
    exact completes_of_writes (by simp) rfl (by simp [WritesFit, writtenRegions, regionsOf, region, RegionClass.written])
  | sha512Compress dst state block =>
    simp only [exec, execSha512Compress] at h
    refine key h fun _ hb => ?_
    obtain ⟨st, -, -, hb⟩ := withRead_next hb
    obtain ⟨bl, -, -, hb⟩ := withRead_next hb
    cases hb
    exact completes_of_writes (by simp) rfl (by simp [WritesFit, writtenRegions, regionsOf, region, RegionClass.written])
  | sha512 dst src len =>
    simp only [exec, execSha512] at h
    refine key h fun _ hb => ?_
    obtain ⟨m, -, -, hb⟩ := withRead_next hb
    cases hb
    exact completes_of_writes (by simp) rfl (by simp [WritesFit, writtenRegions, regionsOf, region, RegionClass.written])
  | hmacSha256 dst key' keyLen msg msgLen =>
    simp only [exec, execHmacSha256] at h
    refine key h fun _ hb => ?_
    obtain ⟨k, -, -, hb⟩ := withRead_next hb
    obtain ⟨m, -, -, hb⟩ := withRead_next hb
    cases hb
    exact completes_of_writes (by simp) rfl (by simp [WritesFit, writtenRegions, regionsOf, region, RegionClass.written])
  | pbkdf2Sha256 dst dkLen pwd pwdLen salt saltLen iter =>
    simp only [exec, execPbkdf2Sha256] at h
    refine key h fun _ hb => ?_
    obtain ⟨p, -, -, hb⟩ := withRead_next hb
    obtain ⟨sa, -, -, hb⟩ := withRead_next hb
    cases hb
    exact completes_of_writes (by simp) rfl (by simp [WritesFit, writtenRegions, regionsOf, region, RegionClass.written])
  | salsaCore dst src =>
    simp only [exec, execSalsaCore] at h
    refine key h fun _ hb => ?_
    obtain ⟨b, -, -, hb⟩ := withRead_next hb
    cases hb
    exact completes_of_writes (by simp) rfl (by simp [WritesFit, writtenRegions, regionsOf, region, RegionClass.written])
  | blockmix dst src r =>
    simp only [exec, execBlockmix] at h
    refine key h fun _ hb => ?_
    obtain ⟨b, -, -, hb⟩ := withRead_next hb
    cases hb
    exact completes_of_writes (by simp) rfl (by simp [WritesFit, writtenRegions, regionsOf, region, RegionClass.written])
  | romix blk v n r =>
    simp only [exec, execRomix] at h
    refine key h fun _ hb => ?_
    obtain ⟨b, -, hl, hb⟩ := withRead_next hb
    cases hb
    exact completes_of_writes (by simp) rfl
      (by simp [WritesFit, writtenRegions, regionsOf, region, RegionClass.written,
        romix_block_length _ _ _ hl, romix_table_length _ _ _ hl, -List.length_flatten])
  | scrypt dst dkLen pwd pwdLen salt saltLen n r p work =>
    simp only [exec, execScrypt] at h
    refine key h fun hc hb => ?_
    obtain ⟨pw, -, -, hb⟩ := withRead_next hb
    obtain ⟨sa, -, -, hb⟩ := withRead_next hb
    have hp : 1 ≤ p.toNat := by
      simpa [paramChecks, paramCheck] using
        (commandTrap_eq_none.1 hc).1 (paramCheck (1 ≤ p.toNat) 9) (by simp [paramChecks])
    cases hb
    exact completes_of_writes (by simp) rfl
      (by simp [WritesFit, writtenRegions, regionsOf, region, RegionClass.written,
        scrypt_lanes_length, scrypt_table_length _ _ _ _ _ _ _ hp, Nat.mul_add])
  | permIv dst =>
    simp only [exec, execPermIv] at h
    refine key h fun _ hb => ?_
    cases hb
    exact completes_of_writes (by simp) rfl (by simp [WritesFit, writtenRegions, regionsOf, region, RegionClass.written])
  | permCompress dst cv block ctr blen flags =>
    simp only [exec, execPermCompress] at h
    refine key h fun _ hb => ?_
    obtain ⟨c, -, -, hb⟩ := withRead_next hb
    obtain ⟨b, -, -, hb⟩ := withRead_next hb
    cases hb
    exact completes_of_writes (by simp) rfl
      (by simp [WritesFit, writtenRegions, regionsOf, region, RegionClass.written, permCompress_length])
  | permHash dst src len =>
    simp only [exec, execPermHash] at h
    refine key h fun _ hb => ?_
    obtain ⟨m, -, -, hb⟩ := withRead_next hb
    cases hb
    exact completes_of_writes (by simp) rfl (by simp [WritesFit, writtenRegions, regionsOf, region, RegionClass.written])
  | mineSha256d res hdr target start stop =>
    simp only [exec, execMineSha256d] at h
    refine key h fun _ hb => ?_
    obtain ⟨m, -, -, hb⟩ := withRead_next hb
    obtain ⟨t', -, -, hb⟩ := withRead_next hb
    cases hb
    exact .inr ⟨by simp, _, by simp [WritesFit, writtenRegions, regionsOf, region, RegionClass.written],
      .inr ⟨rfl, _, rfl⟩⟩
  | minePerm res data dlen diff start stop =>
    simp only [exec, execMinePerm] at h
    refine key h fun _ hb => ?_
    obtain ⟨m, -, -, hb⟩ := withRead_next hb
    cases hb
    exact .inr ⟨by simp, _, by simp [WritesFit, writtenRegions, regionsOf, region, RegionClass.written],
      .inr ⟨rfl, _, rfl⟩⟩

/-- A command whose checks fail takes the fault of the first that does. -/
theorem exec_trap {i : Instr} {s : State} {t : Trap} (h : commandTrap s.cfg i = some t) :
    exec i s = .next (s.raise t) := by
  cases i with
  | halt => cases h
  | nop => cases h
  | sha256Iv _ => unfold exec execSha256Iv; exact command_of_some _ h
  | sha256Compress _ _ _ => unfold exec execSha256Compress; exact command_of_some _ h
  | sha256 _ _ _ => unfold exec execSha256; exact command_of_some _ h
  | sha256d _ _ _ => unfold exec execSha256d; exact command_of_some _ h
  | sha512Iv _ => unfold exec execSha512Iv; exact command_of_some _ h
  | sha512Compress _ _ _ => unfold exec execSha512Compress; exact command_of_some _ h
  | sha512 _ _ _ => unfold exec execSha512; exact command_of_some _ h
  | hmacSha256 _ _ _ _ _ => unfold exec execHmacSha256; exact command_of_some _ h
  | pbkdf2Sha256 _ _ _ _ _ _ _ => unfold exec execPbkdf2Sha256; exact command_of_some _ h
  | salsaCore _ _ => unfold exec execSalsaCore; exact command_of_some _ h
  | blockmix _ _ _ => unfold exec execBlockmix; exact command_of_some _ h
  | romix _ _ _ _ => unfold exec execRomix; exact command_of_some _ h
  | scrypt _ _ _ _ _ _ _ _ _ _ => unfold exec execScrypt; exact command_of_some _ h
  | permIv _ => unfold exec execPermIv; exact command_of_some _ h
  | permCompress _ _ _ _ _ _ => unfold exec execPermCompress; exact command_of_some _ h
  | permHash _ _ _ => unfold exec execPermHash; exact command_of_some _ h
  | mineSha256d _ _ _ _ _ => unfold exec execMineSha256d; exact command_of_some _ h
  | minePerm _ _ _ _ _ _ => unfold exec execMinePerm; exact command_of_some _ h

/-- The spans a command stores to are its written regions. -/
theorem mem_storeSpans {i : Instr} {p : Nat × Nat} :
    p ∈ storeSpans i ↔ ∃ r ∈ writtenRegions i, (r.addr, r.len) = p := by
  cases i <;>
    simp [storeSpans, writtenRegions, regionsOf, region, RegionClass.written, eq_comm]

/-- Two regions share a byte exactly when some address lies in both. -/
theorem Region.meets_iff {r q : Region} :
    r.meets q = true ↔ ∃ a, inSpans [(r.addr, r.len)] a ∧ inSpans [(q.addr, q.len)] a := by
  simp only [Region.meets, Bool.and_eq_true, decide_eq_true_eq, inSpans, List.mem_singleton, exists_eq_left]
  constructor
  · rintro ⟨⟨⟨h1, h2⟩, h3⟩, h4⟩
    exact ⟨max r.addr q.addr, by omega, by omega⟩
  · rintro ⟨a, h1, h2⟩
    omega

/-- A completion keeps the report and moves `CP` by one descriptor. -/
theorem Completes.report {i : Instr} {s t : State} (h : Completes i s t) :
    t.errCause = s.errCause ∧ t.errInfo = s.errInfo ∧ t.cp = s.cp + 64 := by
  rcases h with ⟨_, rfl⟩ | ⟨_, ws, _, ⟨_, rfl⟩ | ⟨_, r, rfl⟩⟩ <;> simp

/-- A completion keeps every byte outside the spans of the command. -/
theorem WritesFit.get_outside {i : Instr} {ws : List (Nat × List Byte)} (h : WritesFit i ws) {m : Memory} {a : Nat}
    (ha : ¬inSpans (storeSpans i) a) : (m.writeAll ws).get a = m.get a := by
  apply Memory.get_writeAll_outside
  intro w hw
  obtain ⟨r, hr, h1, h2⟩ := h w hw
  by_contra hc
  exact ha ⟨(r.addr, r.len), mem_storeSpans.2 ⟨r, hr, rfl⟩, by simp; omega⟩

/-- A running engine's step with a next state: a fault of the fetch, the decode or the command's checks; or the completion of
the command that the descriptor at `CP` decodes to. -/
theorem engineStep_running {s t : State} (hm : s.mode = .running) (h : engineStep s = .next t) :
    (∃ tr, t = s.raise tr) ∨
    (fetchTrap s = none ∧ ∃ bs i, s.mem.read s.cp.toNat 64 = some bs ∧ decode s.cfg bs = .ok i ∧
      commandTrap s.cfg i = none ∧ Completes i s t) := by
  rcases engineStep_next h with ⟨h1, -⟩ | ⟨-, tr, -, rfl⟩ | ⟨-, hf, bs, hbs, ⟨e, he, rfl⟩ | ⟨i, hi, he⟩⟩
  · rw [hm] at h1; cases h1
  · exact .inl ⟨_, rfl⟩
  · exact .inl ⟨_, rfl⟩
  · rcases exec_next he with ⟨tr, -, rfl⟩ | ⟨hc, hcomp⟩
    · exact .inl ⟨_, rfl⟩
    · exact .inr ⟨hf, bs, i, hbs, hi, hc, hcomp⟩

end Sys2Proof.Machine
end

