-- ==== Sys2Proof/Laws/PerInstr.lean ====
section
/-! SUPPORT. What holds of every command as syntax (spec/30_encoding.md R50 to R54), one lemma per constructor. -/

namespace Sys2Proof.Laws.Encoding

open Sys2Proof.Machine

/-- A command's descriptor is 64 bytes; its opcode word is an assigned opcode with zeros above it; and it uses as many operand words
as the table of R53 gives that opcode, at most ten, all the others being 0. -/
def Statement (i : Instr) : Prop :=
  (encode i).length = 64 ∧ usedWordCount (opcodeOf i).toNat = some (operandWords i).length ∧
    (operandWords i).length ≤ 10 ∧
    encodeWords i = opcodeOf i :: operandWords i ++ List.replicate (15 - (operandWords i).length) 0

theorem halt : Statement .halt := ⟨by simp, rfl, by decide, rfl⟩

theorem nop : Statement .nop := ⟨by simp, rfl, by decide, rfl⟩

theorem sha256Iv (dst : Word) : Statement (.sha256Iv dst) := ⟨by simp, rfl, by simp [operandWords], rfl⟩

theorem sha256Compress (dst state block : Word) : Statement (.sha256Compress dst state block) :=
  ⟨by simp, rfl, by simp [operandWords], rfl⟩

theorem sha256 (dst src len : Word) : Statement (.sha256 dst src len) := ⟨by simp, rfl, by simp [operandWords], rfl⟩

theorem sha256d (dst src len : Word) : Statement (.sha256d dst src len) := ⟨by simp, rfl, by simp [operandWords], rfl⟩

theorem sha512Iv (dst : Word) : Statement (.sha512Iv dst) := ⟨by simp, rfl, by simp [operandWords], rfl⟩

theorem sha512Compress (dst state block : Word) : Statement (.sha512Compress dst state block) :=
  ⟨by simp, rfl, by simp [operandWords], rfl⟩

theorem sha512 (dst src len : Word) : Statement (.sha512 dst src len) := ⟨by simp, rfl, by simp [operandWords], rfl⟩

theorem hmacSha256 (dst key keyLen msg msgLen : Word) : Statement (.hmacSha256 dst key keyLen msg msgLen) :=
  ⟨by simp, rfl, by simp [operandWords], rfl⟩

theorem pbkdf2Sha256 (dst dkLen pwd pwdLen salt saltLen iter : Word) :
    Statement (.pbkdf2Sha256 dst dkLen pwd pwdLen salt saltLen iter) := ⟨by simp, rfl, by simp [operandWords], rfl⟩

theorem salsaCore (dst src : Word) : Statement (.salsaCore dst src) := ⟨by simp, rfl, by simp [operandWords], rfl⟩

theorem blockmix (dst src r : Word) : Statement (.blockmix dst src r) := ⟨by simp, rfl, by simp [operandWords], rfl⟩

theorem romix (blk v n r : Word) : Statement (.romix blk v n r) := ⟨by simp, rfl, by simp [operandWords], rfl⟩

theorem scrypt (dst dkLen pwd pwdLen salt saltLen n r p work : Word) :
    Statement (.scrypt dst dkLen pwd pwdLen salt saltLen n r p work) := ⟨by simp, rfl, by simp [operandWords], rfl⟩

theorem permIv (dst : Word) : Statement (.permIv dst) := ⟨by simp, rfl, by simp [operandWords], rfl⟩

theorem permCompress (dst cv block : Word) (ctr : Word64) (blen flags : Word) :
    Statement (.permCompress dst cv block ctr blen flags) := ⟨by simp, rfl, by simp [operandWords, split64], rfl⟩

theorem permHash (dst src len : Word) : Statement (.permHash dst src len) := ⟨by simp, rfl, by simp [operandWords], rfl⟩

theorem mineSha256d (res hdr target start stop : Word) : Statement (.mineSha256d res hdr target start stop) :=
  ⟨by simp, rfl, by simp [operandWords], rfl⟩

theorem minePerm (res data dlen diff : Word) (start stop : Word64) :
    Statement (.minePerm res data dlen diff start stop) := ⟨by simp, rfl, by simp [operandWords, split64], rfl⟩

end Sys2Proof.Laws.Encoding
end

