-- ==== Sys2Proof/Laws/Step.lean ====
section
/-! SUPPORT. The step: which move it takes, and what the engine and a window access do in it. -/

namespace Sys2Proof.Machine

theorem step_of_nil {s : State} (h : s.moves = []) : step s = engineStep s := by simp [step, h]

theorem step_cons {s : State} {m : Move} {ms : List Move} (h : s.moves = m :: ms) :
    step s = runMove m { s with moves := ms } := by simp [step, h, State.dropMove]

/-- A fault in the words of Safety. -/
theorem State.raise_eq_faulted (t : Trap) (s : State) : s.raise t = s.faulted t.cause.code t.info := rfl

theorem Cause.code_bounds (c : Cause) : 1 ≤ c.code.toNat ∧ c.code.toNat ≤ 7 := by cases c <;> decide

theorem Cause.code_ne_zero (c : Cause) : c.code ≠ 0 := by cases c <;> decide

/-- A running engine with an aligned `CP` inside `BM` runs the descriptor there. -/
theorem engineStep_of_read {s : State} {bs : List Byte} (hm : s.mode = .running) (ha : s.cp.toNat % 64 = 0)
    (hb : s.cp.toNat + 64 ≤ s.cfg.memBytes) (hr : s.mem.read s.cp.toNat 64 = some bs) :
    engineStep s = runDescriptor bs s := by
  have hf : fetchTrap s = none := fetchTrap_eq_none.2 ⟨ha, hb⟩
  simp [engineStep, hm, engineRun, hf, withRead_of_some _ hr]

/-- Fetched words that are no command are their fault. -/
theorem State.Fetches.step_error {s : State} {ws : List Word} {e : DecodeError} (h : s.Fetches ws)
    (hd : decodeWords s.cfg ws = .error e) : step s = .next (s.raise (decodeTrap s.cp e)) := by
  obtain ⟨bs, hbs, rfl⟩ := Option.map_eq_some_iff.1 h.words
  rw [step_of_nil h.noMove, engineStep_of_read h.running h.aligned h.inside hbs, runDescriptor,
    decode_of_length _ (Memory.read_length hbs), hd]

/-- Fetched words that are a command run it. -/
theorem State.Fetches.step_ok {s : State} {ws : List Word} {i : Instr} (h : s.Fetches ws)
    (hd : decodeWords s.cfg ws = .ok i) : step s = exec i s := by
  obtain ⟨bs, hbs, rfl⟩ := Option.map_eq_some_iff.1 h.words
  rw [step_of_nil h.noMove, engineStep_of_read h.running h.aligned h.inside hbs, runDescriptor,
    decode_of_length _ (Memory.read_length hbs), hd]

/-- A host access at an aligned word of the window reaches the register there. -/
theorem hostAccess_window {s : State} {off : Nat} {win port : Nat → Result} (ho : s.cfg.hostOrdered = true)
    (h : off < 64) : hostAccess s (s.cfg.regBase + off) win port = win off := by
  simp [hostAccess, ho, h]

theorem hostRead_window {s : State} {off : Nat} (ho : s.cfg.hostOrdered = true) (h : off < 64) (ha : off % 4 = 0) :
    hostRead s (s.cfg.regBase + off) 4 = .next (s.answer (readReg s (regAt off))) := by
  simp [hostRead, hostAccess_window ho h, windowAccess, ha]

theorem hostWrite_window {s : State} {off : Nat} {v : Word} (ho : s.cfg.hostOrdered = true) (h : off < 64)
    (ha : off % 4 = 0) : hostWrite s (s.cfg.regBase + off) 4 v = .next (writeReg s v (regAt off)) := by
  simp [hostWrite, hostAccess_window ho h, windowAccess, ha]

/-- A run whose first step has a next state goes on from it. -/
theorem run_of_next {s t : State} (h : step s = .next t) (n : Nat) : core.run (n + 1) s = core.run n t := by
  have h' : core.step s = .next t := h
  simp only [Host.Core.run, h']

/-- A run whose first step faults ends there. -/
theorem run_of_fault {s : State} {f : Fault} (h : step s = .fault f) (n : Nat) : core.run (n + 1) s = .fault f := by
  have h' : core.step s = .fault f := h
  simp only [Host.Core.run, h']

/-- An idle block with no pending move stays as it is. -/
theorem run_of_idle {s : State} (hm : s.mode = .idle) (hn : s.moves = []) (n : Nat) : core.run n s = .next s := by
  have h : step s = .next s := by rw [step_of_nil hn, engineStep, hm]
  induction n with
  | zero => rfl
  | succ n ih => rw [run_of_next h, ih]

/-- Everything a step with a next state can be: the engine's step, a power-on reset, a host read, which changes nothing but what
the host read last, or a host write. -/
theorem step_next {s t : State} (h : step s = .next t) :
    ((s.moves = [] ∨ ∃ ms, s.moves = .engine :: ms) ∧ engineStep { s with moves := s.moves.tail } = .next t) ∨
    (∃ ms, s.moves = .powerOn :: ms ∧ t = powerOn { s with moves := ms }) ∨
    (∃ a w ms, s.moves = .read a w :: ms ∧ ∃ v, t = ({ s with moves := ms } : State).answer v) ∨
    (∃ a w v ms, s.moves = .write a w v :: ms ∧ hostWrite { s with moves := ms } a w v = .next t) := by
  cases hm : s.moves with
  | nil =>
    rw [step_of_nil hm] at h
    have hs : ({ s with moves := ([] : List Move) } : State) = s := by cases s; simp_all
    refine .inl ⟨.inl rfl, ?_⟩
    simp only [List.tail_nil, hs]
    exact h
  | cons m ms =>
    rw [step_cons hm] at h
    cases m with
    | engine => exact .inl ⟨.inr ⟨ms, rfl⟩, h⟩
    | powerOn => exact .inr (.inl ⟨ms, rfl, by cases h; rfl⟩)
    | read a w => exact .inr (.inr (.inl ⟨a, w, ms, rfl, hostRead_next h⟩))
    | write a w v => exact .inr (.inr (.inr ⟨a, w, v, ms, rfl, h⟩))

/-- A byte in none of the scrambled regions keeps its value. -/
theorem scramble_get_outside {rs : List Region} {s : State} {a : Nat}
    (h : ∀ r ∈ rs, ¬(r.addr ≤ a ∧ a < r.addr + r.len)) : (scramble rs s).mem.get a = s.mem.get a := by
  induction rs generalizing s with
  | nil => rfl
  | cons r rs ih =>
    rw [scramble, ih fun q hq => h q (List.mem_cons_of_mem _ hq)]
    refine Memory.get_write_outside _ ?_
    have := h r List.mem_cons_self
    simp only [freeBytes, List.length_map, List.length_range]
    omega

end Sys2Proof.Machine
end

