-- ==== Sys2Proof/Tests/Slice0.lean ====
section
/-! SUPPORT. Small tests: ill-formed parameters and commands, descriptors written out byte by byte, one command on a small state
with the result that spec/95_test_vectors.md gives, and, for every statement with hypotheses, a witness that meets them. -/

namespace Sys2Proof.Tests

-- One kernel evaluation at a time: all of them at once would need more threads than the memory limit leaves room for.
set_option Elab.async false

open Sys2Proof.Machine

/-! ### Helpers -/

/-- The state after a step, if it has one. -/
def after : Result → Option State
  | .next t => some t
  | .fault _ => none
  | .refused _ => none

/-- Bytes of `BM` after a step. -/
def bytesAfter (r : Result) (a n : Nat) : Option (List Byte) := (after r).bind fun t => t.mem.read a n

/-- The error report after a step: cause and information. -/
def reportAfter (r : Result) : Option (Nat × Nat) := (after r).map fun t => (t.errCause.toNat, t.errInfo.toNat)

/-- The step is the model's fault. -/
def isFault : Result → Bool
  | .fault _ => true
  | .next _ => false
  | .refused _ => false

/-- The refusal of a step. -/
def refusalOf : Result → Option Refusal
  | .refused r => some r
  | .next _ => none
  | .fault _ => none

/-- This hardware, its list running at 0, with these bytes written. -/
def running (ws : List (Nat × List Byte)) : State :=
  { State.reset with mode := .running, mem := Memory.writeAll [] ws }

/-- The same at another `CP`. -/
def runningAt (cp : Word) (ws : List (Nat × List Byte)) : State := { running ws with cp := cp }

/-- A descriptor of these leading words, the others 0. -/
def descriptor (ws : List Word) : List Byte := le32sBytes (ws ++ List.replicate (16 - ws.length) 0)

/-- This hardware about to fetch a descriptor of these leading words. -/
def listOf (ws : List Word) : State := running [(0, descriptor ws)]

/-- This hardware without the option `SHA512`. -/
def noSha512 (s : State) : State := { s with cfg := { s.cfg with hasSha512 := false } }

/-- "abc". -/
def abc : List Byte := [0x61, 0x62, 0x63]

/-- The initial state image of SHA-256. -/
def ivImage : List Byte := beBytes 32 0x6a09e667bb67ae853c6ef372a54ff53a510e527f9b05688c1f83d9ab5be0cd19

theorem fetches_iff (s : State) (ws : List Word) : s.Fetches ws ↔
    (s.mode = .running ∧ s.moves = [] ∧ s.cp.toNat % 64 = 0 ∧ s.cp.toNat + 64 ≤ s.cfg.memBytes ∧
      (s.mem.read s.cp.toNat 64).map (le32s 16) = some ws) :=
  ⟨fun h => ⟨h.running, h.noMove, h.aligned, h.inside, h.words⟩,
    fun ⟨h1, h2, h3, h4, h5⟩ => ⟨h1, h2, h3, h4, h5⟩⟩

/-! ### Well-formedness: one ill-formed term for each check -/

/-- R5: `MEM_BYTES` is a multiple of 64, at least 4096, at most 2^31. -/
theorem test_memBytes_checks :
    Config.default.wf = true ∧
    { Config.default with memBytes := 4097 }.wf = false ∧
    { Config.default with memBytes := 4032 }.wf = false ∧
    { Config.default with memBytes := 2 ^ 31 + 64 }.wf = false ∧
    { Config.default with memBytes := 4096 }.wf = true ∧
    { Config.default with memBytes := 2 ^ 31 }.wf = true := by decide

/-- R5: `SALSA_DOUBLE_ROUNDS` is 1 to 15. -/
theorem test_rounds_checks :
    { Config.default with salsaDoubleRounds := 0 }.wf = false ∧
    { Config.default with salsaDoubleRounds := 16 }.wf = false ∧
    { Config.default with salsaDoubleRounds := 4 }.wf = true := by decide

/-- Log 8: a misaligned window, and a window inside the port's range. -/
theorem test_placement_checks :
    { Config.default with regBase := 0x80000002 }.wf = false ∧
    { Config.default with regBase := 0x1000 }.wf = false ∧
    { Config.default with regBase := 0x10000 }.wf = true := by decide

/-- R56: the three commands of the option are ill-formed without it, and no other is. -/
theorem test_option_checks :
    (Instr.sha512Iv 0).wf { Config.default with hasSha512 := false } = false ∧
    (Instr.sha512Compress 0 0 0).wf { Config.default with hasSha512 := false } = false ∧
    (Instr.sha512 0 0 0).wf { Config.default with hasSha512 := false } = false ∧
    (Instr.sha256 0 0 0).wf { Config.default with hasSha512 := false } = true := by decide

/-! ### Descriptors written out from the table of R53 -/

/-- What this hardware decodes from leading bytes followed by zeros. -/
def decoded (bs : List Byte) : Option Instr := (decode .default (bs ++ zeros (64 - bs.length))).toOption

theorem test_decode_control :
    decoded [0x01] = some .halt ∧ decoded [0x02] = some .nop := by decide +kernel

theorem test_decode_sha256 :
    decoded [0x10, 0, 0, 0, 0x04, 0x03, 0x02, 0x01] = some (.sha256Iv 0x01020304) ∧
    decoded ([0x11, 0, 0, 0, 0x01, 0, 0, 0] ++ [0x02, 0, 0, 0, 0x03, 0, 0, 0x80])
      = some (.sha256Compress 1 2 0x80000003) ∧
    decoded ([0x12, 0, 0, 0, 0x00, 0x20, 0, 0] ++ [0x00, 0x10, 0, 0, 0x03, 0, 0, 0])
      = some (.sha256 0x2000 0x1000 3) ∧
    decoded ([0x13, 0, 0, 0, 0x20, 0x20, 0, 0] ++ [0x00, 0x10, 0, 0, 0x03, 0, 0, 0])
      = some (.sha256d 0x2020 0x1000 3) := by decide +kernel

theorem test_decode_sha512 :
    decoded [0x18, 0, 0, 0, 0x40, 0, 0, 0] = some (.sha512Iv 0x40) ∧
    decoded ([0x19, 0, 0, 0, 0x01, 0, 0, 0] ++ [0x02, 0, 0, 0, 0x03, 0, 0, 0])
      = some (.sha512Compress 1 2 3) ∧
    decoded ([0x1A, 0, 0, 0, 0x40, 0x20, 0, 0] ++ [0x00, 0x11, 0, 0, 0x03, 0, 0, 0])
      = some (.sha512 0x2040 0x1100 3) := by decide +kernel

theorem test_decode_keyed :
    decoded ([0x20, 0, 0, 0, 0x01, 0, 0, 0] ++ [0x02, 0, 0, 0, 0x03, 0, 0, 0]
        ++ [0x04, 0, 0, 0, 0x05, 0, 0, 0])
      = some (.hmacSha256 1 2 3 4 5) ∧
    decoded ([0x21, 0, 0, 0, 0x01, 0, 0, 0] ++ [0x02, 0, 0, 0, 0x03, 0, 0, 0]
        ++ [0x04, 0, 0, 0, 0x05, 0, 0, 0] ++ [0x06, 0, 0, 0, 0x07, 0, 0, 0])
      = some (.pbkdf2Sha256 1 2 3 4 5 6 7) := by decide +kernel

theorem test_decode_memory_hard :
    decoded ([0x28, 0, 0, 0, 0x01, 0, 0, 0] ++ [0x02, 0, 0, 0]) = some (.salsaCore 1 2) ∧
    decoded ([0x29, 0, 0, 0, 0x01, 0, 0, 0] ++ [0x02, 0, 0, 0, 0x03, 0, 0, 0])
      = some (.blockmix 1 2 3) ∧
    decoded ([0x2A, 0, 0, 0, 0x01, 0, 0, 0] ++ [0x02, 0, 0, 0, 0x03, 0, 0, 0] ++ [0x04, 0, 0, 0])
      = some (.romix 1 2 3 4) ∧
    decoded ([0x2B, 0, 0, 0, 0x01, 0, 0, 0] ++ [0x02, 0, 0, 0, 0x03, 0, 0, 0]
        ++ [0x04, 0, 0, 0, 0x05, 0, 0, 0] ++ [0x06, 0, 0, 0, 0x07, 0, 0, 0]
        ++ [0x08, 0, 0, 0, 0x09, 0, 0, 0] ++ [0x0A, 0, 0, 0])
      = some (.scrypt 1 2 3 4 5 6 7 8 9 10) := by decide +kernel

theorem test_decode_permutation :
    decoded [0x30, 0, 0, 0, 0x80, 0x20, 0, 0] = some (.permIv 0x2080) ∧
    decoded ([0x31, 0, 0, 0, 0x01, 0, 0, 0] ++ [0x02, 0, 0, 0, 0x03, 0, 0, 0]
        ++ [0x04, 0, 0, 0, 0x05, 0, 0, 0] ++ [0x06, 0, 0, 0, 0x07, 0, 0, 0])
      = some (.permCompress 1 2 3 0x0000000500000004 6 7) ∧
    decoded ([0x32, 0, 0, 0, 0x60, 0x20, 0, 0] ++ [0x00, 0x10, 0, 0, 0x03, 0, 0, 0])
      = some (.permHash 0x2060 0x1000 3) := by decide +kernel

theorem test_decode_search :
    decoded ([0x40, 0, 0, 0, 0x01, 0, 0, 0] ++ [0x02, 0, 0, 0, 0x03, 0, 0, 0]
        ++ [0x04, 0, 0, 0, 0x05, 0, 0, 0])
      = some (.mineSha256d 1 2 3 4 5) ∧
    decoded ([0x41, 0, 0, 0, 0x01, 0, 0, 0] ++ [0x02, 0, 0, 0, 0x03, 0, 0, 0]
        ++ [0x04, 0, 0, 0, 0x05, 0, 0, 0] ++ [0x06, 0, 0, 0, 0x07, 0, 0, 0] ++ [0x08, 0, 0, 0])
      = some (.minePerm 1 2 3 4 0x0000000600000005 0x0000000800000007) := by decide +kernel

/-- R50: a string that is not 64 bytes long is no descriptor. -/
theorem test_decode_truncated :
    (decode .default (zeros 63)).toOption = none ∧ (decode .default (zeros 65)).toOption = none := by decide

/-- The word of the table's row, bit 0 the least significant bit of `w0`, and the first step after the placement. -/
theorem test_table_word :
    decodeTableWord 32 0x12 = some (.sha256 0 0 0) ∧
    after (step (State.reset.withFetchWord 32 0x02)) = some { State.reset.withFetchWord 32 0x02 with cp := 64 } := by
  decide +kernel

/-! ### One command on a small state (expected bytes: spec/95_test_vectors.md) -/

/-- R68's example: `CP` = 0x40 and `STATUS` = 2. -/
theorem test_halt :
    (after (step (listOf [1]))).map (fun t => (t.cp, t.statusWord)) = some (0x40, 2) := by decide +kernel

/-- R69's example: from 0x40 to 0x80, and the list continues. -/
theorem test_nop :
    (after (step (runningAt 0x40 [(0x40, descriptor [2])]))).map (fun t => (t.cp, t.mode)) = some (0x80, .running) := by
  decide +kernel

/-- R77's example, at the last legal address. -/
theorem test_sha256Iv : bytesAfter (exec (.sha256Iv 0xFFE0) (running [])) 0xFFE0 32 = some ivImage := by decide +kernel

/-- Section 2.3: the initial state and a zero block; R78: in place. -/
theorem test_sha256Compress :
    bytesAfter (exec (.sha256Compress 0x40 0x40 0x80) (running [(0x40, ivImage), (0x80, zeros 64)])) 0x40 32
      = some (beBytes 32 0xda5698be17b9b46962335799779fbeca8ce5d491c0d26243bafef9ea1837a9d8) := by decide +kernel

/-- Section 2.3: "abc", the digest written over the input (F16). -/
theorem test_sha256_abc :
    bytesAfter (exec (.sha256 0x40 0x40 3) (running [(0x40, abc)])) 0x40 32
      = some (beBytes 32 0xba7816bf8f01cfea414140de5dae2223b00361a396177a9cb410ff61f20015ad) := by decide +kernel

/-- E4: 80 zero bytes, two blocks, the length field 640. -/
theorem test_sha256_header :
    bytesAfter (exec (.sha256 0x100 0x40 80) (running [(0x40, zeros 80)])) 0x100 32
      = some (beBytes 32 0x5b6fb58e61fa475939767d68a446f97f1bff02c0e5935a3ea8bb51e6515783d8) := by decide +kernel

/-- Section 2.3: the empty string, at an address equal to `MEM_BYTES` (E2). -/
theorem test_sha256d_empty :
    bytesAfter (exec (.sha256d 0x40 0x10000 0) (running [])) 0x40 32
      = some (beBytes 32 0x5df6e0e2761359d30a8275058e299fcc0381534545f55cf43e41983f5d4c9456) := by decide +kernel

/-- Section 2.4. -/
theorem test_sha512Iv :
    bytesAfter (exec (.sha512Iv 0x40) (running [])) 0x40 16 = some (beBytes 16 0x6a09e667f3bcc908bb67ae8584caa73b) := by
  decide +kernel

/-- Section 2.4: the initial state and 128 zero bytes; the first 16 bytes of the result. -/
theorem test_sha512Compress :
    bytesAfter (exec (.sha512Compress 0x40 0x40 0x100) (running [(0x40, beWordsBytes 8 h512), (0x100, zeros 128)])) 0x40 16
      = some (beBytes 16 0xcf7881d5774acbe8533362e0fbc78070) := by decide +kernel

/-- Section 2.4: "abc"; the first 16 bytes of the digest. -/
theorem test_sha512 :
    bytesAfter (exec (.sha512 0x40 0x100 3) (running [(0x100, abc)])) 0x40 16
      = some (beBytes 16 0xddaf35a193617abacc417349ae204131) := by decide +kernel

/-- F11: the option's commands without the option. -/
theorem test_sha512_absent :
    reportAfter (step (noSha512 (listOf [0x1A, 0x2000, 0x1000, 3]))) = some (3, 0x1A) := by decide +kernel

/-- Section 2.5: key and message "abc" (F43: the result over the key). -/
theorem test_hmacSha256 :
    bytesAfter (exec (.hmacSha256 0x40 0x40 3 0x40 3) (running [(0x40, abc)])) 0x40 32
      = some (beBytes 32 0x2f02e24ae2e1fe880399f27600afa88364e6062bf9bbe114b32fa8f23d03608a) := by decide +kernel

/-- Section 2.5: "password", "salt", one iteration, the first block truncated to one byte. -/
theorem test_pbkdf2Sha256 :
    bytesAfter (exec (.pbkdf2Sha256 0x100 1 0x40 8 0x80 4 1)
      (running [(0x40, beBytes 8 0x70617373776f7264), (0x80, beBytes 4 0x73616c74)])) 0x100 1 = some [0x12] := by
  decide +kernel

/-- Section 2.6: the RFC 7914 block, 8 double rounds; the first 16 bytes. -/
theorem test_salsaCore :
    bytesAfter (exec (.salsaCore 0x40 0x40) (running [(0x40,
      beBytes 32 0x7e879a214f3ec9867ca940e641718f26baee555b8c61c1b50df846116dcd3b1d ++
      beBytes 32 0xee24f319df9b3d8514121e4b5ac5aa3276021d2909c74829edebc68db8b8c25e)])) 0x40 16
      = some (beBytes 16 0x0e1b1a41427cbee6791296641037cfc3) := by decide +kernel

/-- Section 2.6: `SEQ128` in place; the first 16 bytes. -/
theorem test_blockmix :
    bytesAfter (exec (.blockmix 0x40 0x40 1) (running [(0x40, (List.range 128).map (BitVec.ofNat 8))])) 0x40 16
      = some (beBytes 16 0x55f0be2645a1bff2a7bf20858f38bede) := by decide +kernel

/-- Section 2.6: `N` = 1 on `SEQ128`, the table right after the block: the last 8 bytes of the block, and the first 8 of the table,
which is the input. -/
theorem test_romix :
    bytesAfter (exec (.romix 0x40 0xC0 1 1) (running [(0x40, (List.range 128).map (BitVec.ofNat 8))])) 0xB8 16
      = some (beBytes 8 0x7ce833024e581a60 ++ [0, 1, 2, 3, 4, 5, 6, 7]) := by decide +kernel

/-- Section 2.6: "abc" for password and salt, `N` = 1. -/
theorem test_scrypt :
    bytesAfter (exec (.scrypt 0x100 32 0x40 3 0x40 3 1 1 1 0x200) (running [(0x40, abc)])) 0x100 32
      = some (beBytes 32 0xe91065cf983b6f87e48d0ab65868c74962affdf5d991b152cb4e1ea6dba75c58) := by decide +kernel

/-- Section 2.7: the initial value, little-endian. -/
theorem test_permIv :
    bytesAfter (exec (.permIv 0x40) (running [])) 0x40 32
      = some (beBytes 32 0x67e6096a85ae67bb72f36e3c3af54fa57f520e518c68059babd9831f19cde05b) := by decide +kernel

/-- Section 2.7, third row: both counter words and 64 different bytes. -/
theorem test_permCompress :
    bytesAfter (exec (.permCompress 0x100 0x40 0x80 0x0000000100000002 64 3)
      (running [(0x40, le32sBytes permIv), (0x80, (List.range 64).map (BitVec.ofNat 8))])) 0x100 64
      = some (beBytes 32 0x8267c3e0d1db0227da86cec3be5c6d102de87c7f8c2ac4698390e9ac086333c5 ++
        beBytes 32 0x2f10afeb8683e43c586cfa04e1b84be1d58daad06f854049304bb08e3817da18) := by decide +kernel

/-- Section 2.7: the empty string. -/
theorem test_permHash_empty :
    bytesAfter (exec (.permHash 0x40 0 0) (running [])) 0x40 32
      = some (beBytes 32 0xaf1349b9f5f9a1a6a0404dea36dcc9499bcb25c9adc112b7cc9a93cae41f3262) := by decide +kernel

/-- Section 2.7: 65 bytes, two blocks. -/
theorem test_permHash_two_blocks :
    bytesAfter (exec (.permHash 0x40 0x100 65) (running [(0x100, (List.range 65).map (BitVec.ofNat 8))])) 0x40 32
      = some (beBytes 32 0xde1e5fa0be70df6d2be8fffd0e99ceaa8eb6e8c93a63f2d8d1c30ecb6b263dee) := by decide +kernel

/-- E12: the digest of nonce 0 as the target succeeds (equality). -/
theorem test_mineSha256d :
    bytesAfter (exec (.mineSha256d 0x200 0x40 0x100 0 0) (running [(0x40, zeros 80),
      (0x100, beBytes 32 0x4be7570e8f70eb093640c8468274ba759745a7aa2b7d25ab1e0421b259845014)])) 0x200 24
      = some (leBytes 8 0 ++ leBytes 8 1 ++ leBytes 4 1 ++ zeros 4) := by decide +kernel

/-- Section 2.8: the target table, and the leading zeros of `00ff…` and `0008…`. -/
theorem test_predicates :
    meetsTarget .byte0First (0x01 :: zeros 31) (0x00 :: List.replicate 31 0xFF) = false ∧
    meetsTarget .byte31First (0x01 :: zeros 31) (0x00 :: List.replicate 31 0xFF) = true ∧
    meetsTarget .byte31First (List.replicate 32 0xFF) (0x00 :: List.replicate 31 0xFF) = false ∧
    leadingZeros ([0x00, 0xFF] ++ zeros 30) = 8 ∧ leadingZeros ([0x00, 0x08] ++ zeros 30) = 12 := by decide +kernel

/-- Section 2.8: "abc", 4 bits, the top sixteen nonces: found at 2^64 − 11 with 6 attempts. -/
theorem test_minePerm :
    (after (exec (.minePerm 0x200 0x40 3 4 0xFFFFFFFFFFFFFFF0 0xFFFFFFFFFFFFFFFF) (running [(0x40, abc)]))).map
      (fun t => (t.resFound, t.resNonceHi, t.resNonceLo, t.resCountLo, t.resCountHi))
      = some (true, 0xFFFFFFFF, 0xFFFFFFF5, 6, 0) := by decide +kernel

/-- Section 2.8: no success, so nonce 0 and the size of the range. -/
theorem test_minePerm_exhausted :
    bytesAfter (exec (.minePerm 0x200 0x40 3 256 0 1) (running [(0x40, abc)])) 0x200 24
      = some (leBytes 8 0 ++ leBytes 8 2 ++ zeros 8) := by decide +kernel

/-! ### Faults, the host and text -/

/-- Section 2.2, F1 to F10. -/
theorem test_fetch_and_decode_faults :
    reportAfter (step (runningAt 0x20 [])) = some (1, 0x20) ∧
    reportAfter (step (runningAt 0x10000 [])) = some (2, 0x10000) ∧
    reportAfter (step (runningAt 0xFFE0 [])) = some (1, 0xFFE0) ∧
    reportAfter (step (listOf [0xFF14])) = some (3, 0x14) ∧
    reportAfter (step (listOf [0x101])) = some (4, 0) ∧
    reportAfter (step (listOf [0x12, 0x2000, 0x1000, 3, 7])) = some (4, 4) := by decide +kernel

/-- Section 2.2, F12, F14, F15, F34, F42 and F35: bounds and overlaps. -/
theorem test_region_faults :
    reportAfter (exec (.sha256 0x2000 0xFFF0 0x11) (running [])) = some (6, 2) ∧
    reportAfter (exec (.sha256 0xFFF0 0xFFFF 2) (running [])) = some (6, 1) ∧
    reportAfter (exec (.sha256 0x2000 0xFFFFFFFF 0) (running [])) = some (6, 2) ∧
    reportAfter (exec (.scrypt 0x2000 32 0x1000 3 0x1000 3 1024 1 1 0x3000) (running [])) = some (6, 10) ∧
    reportAfter (exec (.sha512Compress 0x2000 0x2000 0xFF90) (running [])) = some (6, 3) ∧
    reportAfter (exec (.scrypt 0x3010 32 0x1000 3 0x1000 3 16 1 1 0x3000) (running [])) = some (7, 0x0A01) := by
  decide +kernel

/-- V1 and V3: `ID`, `CFG` and `MEMSIZE`. -/
theorem test_identification :
    readReg .reset .id = 0x4D484501 ∧ readReg .reset .cfg = 0x00000801 ∧ readReg .reset .memSize = 0x00010000 ∧
    cfgWord { Config.default with hasSha512 := false, targetOrder := .byte31First, salsaDoubleRounds := 4 } = 0x402 := by
  decide +kernel

/-- R49: a fetch and a snapshot read of unwritten bytes. -/
theorem test_unwritten :
    isFault (step (runningAt 0x40 [])) = true ∧ isFault (exec (.sha256 0x100 0x40 1) (running [])) = true := by
  decide +kernel

/-- R58, R59: one line in either case with a comment, and the pseudo-instruction. -/
theorem test_assembler :
    parseLine "sha256 0x2000, 0x1000, 3 ; digest".toList = some (.command (.sha256 0x2000 0x1000 3)) ∧
    parseLine ".org 0x40".toList = some (.org 0x40) ∧
    assembleCommand "HASHSCRYPT" [0x2040, 0x1000, 3, 16, 1, 1, 0x3000]
      = some (.scrypt 0x2040 32 0x1000 3 0x1000 3 16 1 1 0x3000) := by decide +kernel

/-! ### Witnesses: concrete values that meet the hypotheses of each statement, one for each of its clauses -/

theorem next_of_after {r : Result} {t : State} (h : after r = some t) : r = .next t := by
  cases r <;> simp_all [after]

theorem next_of_isSome {r : Result} (h : (after r).isSome = true) : ∃ t, r = .next t := by
  cases r <;> simp_all [after]

/-- `DecodeOfEncode`. -/
theorem witness_DecodeOfEncode :
    (Instr.sha512 1 2 3).wf .default = true ∧
    (Instr.permCompress 1 2 3 0x100000000 65 0xFFFFFFFF).wf { Config.default with hasSha512 := false } = true := by decide

/-- `EncodeOfDecode`. -/
theorem witness_EncodeOfDecode : decode .default ([0x02] ++ zeros 63) = .ok .nop := by rfl

/-- `IllegalOpcodeFaults`: both ends of every range, with bits above the opcode too. -/
theorem witness_IllegalOpcodeFaults :
    ∀ op ∈ [0x00, 0x03, 0x0F, 0x14, 0x17, 0x1B, 0x1F, 0x22, 0x27, 0x2C, 0x2F, 0x33, 0x3F, 0x42, 0xFF],
      (listOf [BitVec.ofNat 32 (0xAB00 + op)]).Fetches (BitVec.ofNat 32 (0xAB00 + op) :: List.replicate 15 0) ∧
      (BitVec.ofNat 32 (0xAB00 + op)).toNat % 256 = op ∧
      reportAfter (step (listOf [BitVec.ofNat 32 (0xAB00 + op)])) = some (3, op) := by
  simp only [fetches_iff]
  decide +kernel

/-- `IllegalOpcodeFaults`: the option's opcodes without the option. -/
theorem witness_IllegalOpcodeFaults_option :
    ∀ op ∈ [0x18, 0x1A],
      (noSha512 (listOf [BitVec.ofNat 32 op])).Fetches (BitVec.ofNat 32 op :: List.replicate 15 0) ∧
      (noSha512 (listOf [BitVec.ofNat 32 op])).cfg.hasSha512 = false := by
  simp only [fetches_iff]
  decide +kernel

/-- `ReservedBitsFault`: the lowest and the highest reserved bit of word 0. -/
theorem witness_ReservedBitsFault_word0 :
    ∀ w ∈ [0x00000102, 0x80000002],
      (listOf [BitVec.ofNat 32 w]).Fetches (BitVec.ofNat 32 w :: List.replicate 15 0) ∧
      usedWordCount ((BitVec.ofNat 32 w).toNat % 256) = some 0 ∧ 256 ≤ (BitVec.ofNat 32 w).toNat := by
  simp only [fetches_iff]
  decide +kernel

/-- `ReservedBitsFault`: the first and the last unused word, of `NOP` and of `SCRYPT`. -/
theorem witness_ReservedBitsFault_unused :
    (listOf [2, 7]).Fetches ([2, 7] ++ List.replicate 14 0) ∧
    (listOf ([2] ++ List.replicate 14 0 ++ [1])).Fetches ([2] ++ List.replicate 14 0 ++ [1]) ∧
    (listOf ([0x2B] ++ List.replicate 11 1)).Fetches ([0x2B] ++ List.replicate 11 1 ++ List.replicate 4 0) ∧
    usedWordCount 0x2B = some 10 ∧
    reportAfter (step (listOf ([2] ++ List.replicate 14 0 ++ [1]))) = some (4, 15) ∧
    reportAfter (step (listOf ([0x2B] ++ List.replicate 11 1))) = some (4, 11) := by
  simp only [fetches_iff]
  decide +kernel

/-- `ReservedBitsFault`: every unused word 0. -/
theorem witness_ReservedBitsFault_decodes :
    (listOf [0x10, 0xFFFFFFFF]).Fetches ([0x10, 0xFFFFFFFF] ++ List.replicate 14 0) ∧
    usedWordCount 0x10 = some 1 ∧
    ∀ j < 16, 1 < j → ([0x10, 0xFFFFFFFF] ++ List.replicate 14 0 : List Word).getD j 0 = 0 := by
  simp only [fetches_iff]
  decide +kernel

/-- `StepRunsDecodedCommand`. -/
theorem witness_StepRunsDecodedCommand :
    (listOf [2]).mode = .running ∧ (listOf [2]).cp.toNat % 64 = 0 ∧
    (listOf [2]).cp.toNat + 64 ≤ (listOf [2]).cfg.memBytes ∧
    (listOf [2]).mem.read (listOf [2]).cp.toNat 64 = some ([0x02] ++ zeros 63) ∧
    (decode (listOf [2]).cfg ([0x02] ++ zeros 63)).toOption = some .nop ∧ (listOf [2]).moves = [] := by
  decide +kernel

/-- `FetchFaults`: each clause at a boundary. -/
theorem witness_FetchFaults :
    ((runningAt 0x3F []).mode = .running ∧ (runningAt 0x3F []).moves = [] ∧ (runningAt 0x3F []).cp.toNat % 64 ≠ 0) ∧
    ((runningAt 0x10000 []).cp.toNat % 64 = 0 ∧
      (runningAt 0x10000 []).cfg.memBytes < (runningAt 0x10000 []).cp.toNat + 64) ∧
    ((runningAt 0xFFC0 [(0xFFC0, zeros 63)]).cp.toNat + 64 ≤ (runningAt 0xFFC0 []).cfg.memBytes ∧
      (runningAt 0xFFC0 [(0xFFC0, zeros 63)]).mem.get (0xFFC0 + 63) = none) := by decide +kernel

/-- `ParameterFaults`: each clause at a boundary of its range, with the report (F18 to F33, F37 to F41). -/
theorem witness_ParameterFaults :
    reportAfter (exec (.pbkdf2Sha256 0x2000 0 0x1000 3 0x1000 3 0) (running [])) = some (5, 2) ∧
    reportAfter (exec (.pbkdf2Sha256 0x2000 32 0x1000 3 0x1000 3 0) (running [])) = some (5, 7) ∧
    reportAfter (exec (.blockmix 0x2000 0x1000 0) (running [])) = some (5, 3) ∧
    reportAfter (exec (.blockmix 0x2000 0x1000 0x02000000) (running [])) = some (5, 3) ∧
    reportAfter (exec (.blockmix 0x2000 0x1000 0x01FFFFFF) (running [])) = some (6, 1) ∧
    reportAfter (exec (.romix 0x2000 0x4000 0 0) (running [])) = some (5, 3) ∧
    reportAfter (exec (.romix 0x2000 0x4000 16 0) (running [])) = some (5, 4) ∧
    reportAfter (exec (.romix 0x2000 0x4000 0x02000000 1) (running [])) = some (5, 3) ∧
    reportAfter (exec (.scrypt 0x2000 0 0x1000 3 0x1000 3 0 0 0 0x3000) (running [])) = some (5, 2) ∧
    reportAfter (exec (.scrypt 0x2000 32 0x1000 3 0x1000 3 0 0 0 0x3000) (running [])) = some (5, 7) ∧
    reportAfter (exec (.scrypt 0x2000 32 0x1000 3 0x1000 3 16 0 0 0x3000) (running [])) = some (5, 8) ∧
    reportAfter (exec (.scrypt 0x2000 32 0x1000 3 0x1000 3 16 1 0 0x3000) (running [])) = some (5, 9) ∧
    reportAfter (exec (.scrypt 0x2000 32 0x1000 3 0x1000 3 0x01FFFFFF 1 1 0x3000) (running [])) = some (5, 7) ∧
    reportAfter (exec (.mineSha256d 0x2000 0x1000 0x1080 5 4) (running [])) = some (5, 5) ∧
    reportAfter (exec (.minePerm 0x2000 0x1000 249 257 1 0) (running [])) = some (5, 3) ∧
    reportAfter (exec (.minePerm 0x2000 0x1000 248 257 1 0) (running [])) = some (5, 4) ∧
    reportAfter (exec (.minePerm 0x2000 0x1000 248 256 0x100000000 0xFFFFFFFF) (running [])) = some (5, 7) := by
  decide +kernel

/-- `FirstRegionOutOfBoundsFaults`: the first region, a later one by one byte, an empty one, and the last of a command with a
gap in its address words (F34: the information is 10). -/
theorem witness_FirstRegionOutOfBoundsFaults :
    (regionTable (.sha256 0xFFE1 0xFFFF 2) = [] ++ (1, 0xFFE1, 32) :: [(2, 0xFFFF, 2)] ∧
      Config.default.memBytes < 0xFFE1 + 32) ∧
    (regionTable (.sha256 0x2000 0xFFF0 0x11) = [(1, 0x2000, 32)] ++ (2, 0xFFF0, 0x11) :: [] ∧
      Config.default.memBytes < 0xFFF0 + 0x11) ∧
    (regionTable (.permHash 0x2000 0x10001 0) = [(1, 0x2000, 32)] ++ (2, 0x10001, 0) :: [] ∧
      Config.default.memBytes < 0x10001 + 0) ∧
    (regionTable (.scrypt 0x2000 32 0x1000 3 0x1000 3 1024 1 1 0x3000)
        = [(1, 0x2000, 32), (3, 0x1000, 3), (5, 0x1000, 3)] ++ (10, 0x3000, 131200) :: [] ∧
      Config.default.memBytes < 0x3000 + 131200) := by decide +kernel

/-- `FirstRegionOutOfBoundsFaults`: legal operand values at the ends of their ranges. -/
theorem witness_legalValues :
    legalValues .default (.sha256 0x2000 0xFFF0 0x11) ∧ legalValues .default (.sha512 0x2000 0x1000 3) ∧
    legalValues .default (.pbkdf2Sha256 0x2000 1 0x1000 0 0x1000 0 1) ∧
    legalValues .default (.blockmix 0x2000 0x1000 0x01FFFFFF) ∧
    legalValues .default (.romix 0x2000 0x1000 0x01FFFFFF 1) ∧
    legalValues .default (.scrypt 0x2000 1 0x1000 3 0x1000 3 0x01FFFFFE 1 1 0x3000) ∧
    legalValues .default (.mineSha256d 0x2000 0x1000 0x1080 5 5) ∧
    legalValues .default (.minePerm 0x2000 0x1000 248 256 5 5) := by
  unfold legalValues
  decide

/-- `OverlapFaults`: regions that share one byte only. -/
theorem witness_OverlapFaults :
    (inSpans [(0x2000, 128)] 0x2000 ∧ inSpans [(0x1F81, 128)] 0x2000 ∧
      reportAfter (exec (.romix 0x2000 0x1F81 1 1) (running [])) = some (7, 0x0201)) ∧
    (inSpans [(0x30FF, 32)] 0x30FF ∧ inSpans [(0x3000, 256)] 0x30FF ∧
      reportAfter (exec (.scrypt 0x30FF 32 0x30FF 1 0x30FF 1 1 1 1 0x3000) (running [])) = some (7, 0x0A01)) ∧
    (¬(∃ x, inSpans [(0x2000, 32)] x ∧ inSpans [(0x3000, 256)] x) ∧
      reportAfter (exec (.scrypt 0x2000 32 0x30FF 1 0x30FF 1 1 1 1 0x3000) (running [])) = some (7, 0x0A03)) ∧
    (¬(∃ x, inSpans [(0x3000, 0)] x ∧ inSpans [(0x3000, 256)] x) ∧
      reportAfter (exec (.scrypt 0x2000 32 0x3000 0 0x30FF 1 1 1 1 0x3000) (running [])) = some (7, 0x0A05)) ∧
    commandTrap .default (.romix 0x2000 0x1F81 1 1) = some ⟨.overlap, 0x0201⟩ := by
  refine ⟨⟨by simp [inSpans], by simp [inSpans], by decide +kernel⟩, ⟨by simp [inSpans], by simp [inSpans], by decide +kernel⟩,
    ⟨?_, by decide +kernel⟩, ⟨?_, by decide +kernel⟩, by decide +kernel⟩
  · rintro ⟨x, h1, h2⟩
    simp only [inSpans, List.mem_singleton, exists_eq_left] at h1 h2
    omega
  · rintro ⟨x, h1, h2⟩
    simp only [inSpans, List.mem_singleton, exists_eq_left] at h1 h2
    omega

/-- `EngineFaultIsPrecise`: an illegal descriptor. -/
theorem witness_EngineFaultIsPrecise :
    (listOf [0]).runningClean ∧ (listOf [0]).mode = .running ∧ (listOf [0]).moves = [] ∧
    step (listOf [0]) = .next ((listOf [0]).faulted 3 0) ∧ ((listOf [0]).faulted 3 0).errCause ≠ 0 :=
  ⟨fun _ => ⟨rfl, rfl, rfl⟩, rfl, rfl, next_of_after (by decide +kernel), by decide⟩

/-- `OnlyUnwrittenBytesStopACommand`. -/
theorem witness_OnlyUnwrittenBytesStopACommand :
    checksPass .default (.sha256 0x100 0x40 2) ∧ inSpans (loadSpans (.sha256 0x100 0x40 2)) 0x41 ∧
    (running [(0x40, [0x61])]).mem.get 0x41 = none ∧ (running []).moves = [] :=
  ⟨by unfold checksPass; decide +kernel, by simp [inSpans, loadSpans], by decide, rfl⟩

/-- `ListStopsInTime`, for a list at the start and for one at the top of `BM`. -/
theorem witness_ListStopsInTime :
    ∀ s ∈ [listOf [1], runningAt 0x10000 []], s.cfg.wf = true ∧ s.mode = .running ∧ s.moves = [] := by decide +kernel

/-- `CommandPointerNeverWraps`: a command at the last descriptor, and the top of `BM`. -/
theorem witness_CommandPointerNeverWraps :
    (∃ t, (runningAt 0xFFC0 [(0xFFC0, descriptor [2])]).runningClean ∧
      step (runningAt 0xFFC0 [(0xFFC0, descriptor [2])]) = .next t ∧ t.cp = 0x10000) ∧
    (runningAt 0x10000 []).cp.toNat = (runningAt 0x10000 []).cfg.memBytes :=
  ⟨⟨{ runningAt 0xFFC0 [(0xFFC0, descriptor [2])] with cp := 0x10000 }, fun _ => ⟨rfl, rfl, rfl⟩,
    next_of_after (by decide +kernel), rfl⟩, by decide⟩

/-- `InitialValuesComplete`: the last legal addresses. -/
theorem witness_InitialValuesComplete :
    (0xFFE0 : Word).toNat + 32 ≤ State.reset.cfg.memBytes ∧ (0xFFC0 : Word).toNat + 64 ≤ State.reset.cfg.memBytes ∧
    State.reset.cfg.hasSha512 = true := by decide

/-- 256 written bytes at 0x40, the inputs of the completion witnesses. -/
def filledMem : Memory := Memory.write [] 0x40 (zeros 256)

/-- The state that holds it. -/
def filled : State := { State.reset with mode := .running, mem := filledMem }

theorem filled_mem : filled.mem = filledMem := by simp only [filled]

theorem filled_read {n : Nat} (h : n ≤ 256) : filled.mem.read 0x40 n = some (zeros n) := by
  refine Memory.read_eq_some.2 ⟨by simp, fun k hk => ?_⟩
  rw [filled_mem]
  unfold filledMem
  rw [Memory.get_write_inside _ (by rw [zeros_length]; omega)]
  unfold zeros
  rw [List.getElem_replicate, List.getElem?_replicate, if_pos hk]

/-- `Sha256CommandsComplete`, `Sha512CommandsComplete`, `KeyedHashCommandsComplete`, `PermCommandsComplete`: inputs of the lengths
they name, output over input, and an empty input at `MEM_BYTES`. -/
theorem witness_hash_commands :
    filled.cfg.hasSha512 = true ∧ (0xFFC0 : Word).toNat + 64 ≤ filled.cfg.memBytes ∧
    (∀ n ∈ [3, 32, 64, 128], 0x40 + n ≤ filled.cfg.memBytes ∧ filled.mem.read 0x40 n = some (zeros n)) ∧
    (0x10000 : Word).toNat + 0 ≤ filled.cfg.memBytes ∧ filled.mem.read 0x10000 0 = some [] ∧
    (1 : Word) ≠ 0 := by
  refine ⟨by decide, by decide, fun n hn => ?_, by decide, rfl, by decide⟩
  have h : n ≤ 128 := by simp at hn; omega
  exact ⟨by show 0x40 + n ≤ 65536; omega, filled_read (by omega)⟩

/-- `SalsaAndBlockmixComplete`: `R` = 1 and `R` = 2. -/
theorem witness_SalsaAndBlockmixComplete :
    ∀ r ∈ ([1, 2] : List Word), r ≠ 0 ∧ 128 * r.toNat < 2 ^ 32 ∧ 0x40 + 128 * r.toNat ≤ filled.cfg.memBytes ∧
      filled.mem.read 0x40 (128 * r.toNat) = some (zeros (128 * r.toNat)) := by
  intro r hr
  have h : r = 1 ∨ r = 2 := by simpa using hr
  rcases h with rfl | rfl <;> exact ⟨by decide, by decide, by decide, filled_read (by decide)⟩

/-- `RomixCompletes`: the table right after the block. -/
theorem witness_RomixCompletes :
    (0x40 : Word).toNat + 128 * (1 : Word).toNat ≤ filled.cfg.memBytes ∧
    (0xC0 : Word).toNat + 128 * (1 : Word).toNat * (3 : Word).toNat ≤ filled.cfg.memBytes ∧
    (∀ a, ¬(inSpans [((0x40 : Word).toNat, 128 * (1 : Word).toNat)] a ∧
      inSpans [((0xC0 : Word).toNat, 128 * (1 : Word).toNat * (3 : Word).toNat)] a)) ∧
    filled.mem.read 0x40 128 = some (zeros 128) := by
  refine ⟨by decide, by decide, ?_, filled_read (by decide)⟩
  rintro a ⟨h1, h2⟩
  simp [inSpans] at h1 h2
  omega

/-- `ScryptCompletes`: the scratch region right after the other regions, of which the password and the salt are one. -/
theorem witness_ScryptCompletes :
    128 * (1 : Word).toNat * ((1 : Word).toNat + (16 : Word).toNat) < 2 ^ 32 ∧
    (0x43 : Word).toNat + 128 * (1 : Word).toNat * ((1 : Word).toNat + (16 : Word).toNat) ≤ filled.cfg.memBytes ∧
    (∀ a, inSpans [((0x60 : Word).toNat, 128 * 17)] a →
      ¬inSpans [((0x40 : Word).toNat, 32), ((0x40 : Word).toNat, 3), ((0x40 : Word).toNat, 3)] a) ∧
    filled.mem.read 0x40 3 = some (zeros 3) := by
  refine ⟨by decide, by decide, ?_, filled_read (by decide)⟩
  intro a h1 h2
  simp [inSpans] at h1 h2
  omega

/-- `MineSha256dCompletes` and `MinePermCompletes`: the top nonce alone, the whole ranges, the longest data, and the last legal
address of the record. -/
theorem witness_search_commands :
    (0xFFFFFFFF : Word).toNat ≤ (0xFFFFFFFF : Word).toNat ∧ (0 : Word).toNat ≤ (0xFFFFFFFF : Word).toNat ∧
    (0 : Word64).toNat ≤ (0xFFFFFFFFFFFFFFFF : Word64).toNat ∧ (0xFFE8 : Word).toNat + 24 ≤ filled.cfg.memBytes ∧
    filled.mem.read 0x40 80 = some (zeros 80) ∧ filled.mem.read 0x40 32 = some (zeros 32) ∧
    (248 : Word).toNat ≤ 248 ∧ (256 : Word).toNat ≤ 256 ∧ filled.mem.read 0x40 248 = some (zeros 248) :=
  ⟨Nat.le_refl _, by simp, by simp, by decide, filled_read (by decide), filled_read (by decide), by decide, by decide,
    filled_read (by decide)⟩

/-- `CommandFrame`: a completed store, a completed search, a fault and `HALT`. -/
theorem witness_CommandFrame :
    (∃ t, exec (.sha256Iv 0x100) filled = .next t ∧ checksPass filled.cfg (.sha256Iv 0x100) ∧
      ¬inSpans (storeSpans (.sha256Iv 0x100)) 0x120) ∧
    (∃ t, exec (.sha256Iv 0xFFE1) filled = .next t ∧ ¬checksPass filled.cfg (.sha256Iv 0xFFE1)) ∧
    (∃ t, exec (.minePerm 0x200 0x40 0 0 5 5) filled = .next t ∧ isSearch (.minePerm 0x200 0x40 0 0 5 5) = true ∧
      checksPass filled.cfg (.minePerm 0x200 0x40 0 0 5 5)) ∧
    ∃ t, exec .halt filled = .next t ∧ isHalt .halt = true := by
  obtain ⟨t1, h1⟩ := next_of_isSome (r := exec (.sha256Iv 0x100) filled) (by decide +kernel)
  obtain ⟨t2, h2⟩ := next_of_isSome (r := exec (.sha256Iv 0xFFE1) filled) (by decide +kernel)
  obtain ⟨t3, h3⟩ := next_of_isSome (r := exec (.minePerm 0x200 0x40 0 0 5 5) filled) (by decide +kernel)
  exact ⟨⟨t1, h1, by unfold checksPass; decide +kernel, by simp [inSpans, storeSpans]⟩,
    ⟨t2, h2, by unfold checksPass; decide +kernel⟩,
    ⟨t3, h3, rfl, by unfold checksPass; decide +kernel⟩, ⟨_, rfl, rfl⟩⟩

/-- `StepKeepsInv`, `ParametersNeverChange`, `OnlySearchesWriteResults`: the state after reset, and a running one. -/
theorem witness_StepKeepsInv :
    State.reset.Inv ∧ step .reset = .next .reset ∧ (listOf [1]).Inv ∧ ∃ t, step (listOf [1]) = .next t := by
  refine ⟨⟨by decide, by decide, by unfold State.memInBounds; decide, by unfold State.errorReportOk; decide, by unfold State.runningClean; decide⟩,
    rfl, ⟨by decide, by decide +kernel, by unfold State.memInBounds; decide +kernel, by unfold State.errorReportOk; decide,
      fun _ => ⟨rfl, rfl, rfl⟩⟩, ?_⟩
  exact ⟨{ listOf [1] with cp := 64, mode := .idle, done := true }, next_of_after (by decide +kernel)⟩

/-- `ResetInv`. -/
theorem witness_ResetInv :
    Config.default.wf = true ∧ { Config.default with memBytes := 4096, salsaDoubleRounds := 4 }.wf = true := by decide

/-- `OnlyStartEntersRunning`: a START; HALT; a soft reset of a running list; a power-on reset. -/
theorem witness_OnlyStartEntersRunning :
    (after (step { State.reset with moves := [.write 0x8000000C 4 1] })).map (·.mode) = some .running ∧
    (after (step (listOf [1]))).map (·.mode) = some .idle ∧
    (after (step { listOf [1] with moves := [.write 0x8000000C 4 7] })).map (·.mode) = some .idle ∧
    (after (step { listOf [1] with moves := [.powerOn] })).map (·.mode) = some .idle := by decide +kernel

/-- `filled` with other registers, another pending move, and a byte of `BM` that `filled` has not. -/
def otherRegisters : State :=
  { filled with
    cp := 0x80, ie := true, errInfo := 9, resFound := true, resNonceLo := 5, moves := [.powerOn]
    mem := filledMem.set 0x300 7 }

theorem otherRegisters_mem : otherRegisters.mem = filledMem.set 0x300 7 := by simp only [otherRegisters]

theorem mem_back (s : State) (m : Memory) : { ({ s with mem := m } : State) with mem := s.mem } = s := rfl

/-- `ResultsDependOnInputsAlone`: a search over 3 bytes of data, in two states that differ in everything else; and two that differ
in `BM` alone. -/
theorem witness_ResultsDependOnInputsAlone :
    checksPass filled.cfg (.minePerm 0x200 0x40 3 0 5 5) ∧ isSearch (.minePerm 0x200 0x40 3 0 5 5) = true ∧
    (∃ t, exec (.minePerm 0x200 0x40 3 0 5 5) filled = .next t) ∧ otherRegisters.cfg = filled.cfg ∧
    (∀ a, inSpans (loadSpans (.minePerm 0x200 0x40 3 0 5 5)) a → otherRegisters.mem.get a = filled.mem.get a) ∧
    inSpans (loadSpans (.minePerm 0x200 0x40 3 0 5 5)) 0x42 ∧ otherRegisters.mem.get 0x300 ≠ filled.mem.get 0x300 ∧
    { ({ filled with mem := otherRegisters.mem } : State) with mem := filled.mem } = filled := by
  refine ⟨by unfold checksPass; decide +kernel, rfl, next_of_isSome (by decide +kernel), rfl, ?_, by simp [inSpans, loadSpans],
    by decide +kernel, mem_back _ _⟩
  intro a h
  simp only [inSpans, loadSpans, List.mem_singleton, exists_eq_left] at h
  rw [filled_mem, otherRegisters_mem]
  exact Memory.get_set_other _ _ (by simp at h; omega)

/-- `RegisterReads`, `RegisterWrites`, `HostAccessesRefused`, `PortReadsWhatWasWritten`: this hardware's parameters. -/
theorem witness_host_accesses :
    State.reset.cfg.hostOrdered = true ∧ State.reset.cfg.roundsOk = true ∧ State.reset.cfg.wf = true ∧
    State.reset.mode = .idle ∧ 0xFFFF < State.reset.cfg.memBytes ∧
    (running [(0xFFFF, [7])]).mem.get 0xFFFF = some 7 := by decide

/-- `RegisterReads`: `STATUS` of a running block and of a fault, and the last reserved word. -/
theorem witness_RegisterReads :
    (after (step { listOf [1] with moves := [.read 0x80000010 4] })).map (·.lastRead) = some (some 1) ∧
    (after (step { (listOf [1]).faulted 5 3 with moves := [.read 0x80000010 4] })).map (·.lastRead) = some (some 6) ∧
    (after (step { listOf [1] with moves := [.read 0x8000003C 4] })).map (·.lastRead) = some (some 0) := by decide +kernel

/-- `HostAccessesRefused`: each clause at the edges of its range. -/
theorem witness_HostAccessesRefused :
    (∀ a ∈ [0x80000001, 0x8000003E, 0x8000003F],
      refusalOf (step { State.reset with moves := [.read a 4] }) = some .windowAccess) ∧
    refusalOf (step { State.reset with moves := [.write 0x8000003C 2 0] }) = some .windowAccess ∧
    (∀ a ∈ [0, 0xFFFF], refusalOf (step { running [] with moves := [.write a 1 0] }) = some .portWhileBusy) ∧
    (∀ a ∈ [0, 0xFFFF], refusalOf (step { State.reset with moves := [.write a 4 0] }) = some .portWidth) ∧
    (∀ a ∈ [0x10000, 0x7FFFFFFF, 0x80000040],
      refusalOf (step { State.reset with moves := [.read a 4] }) = some .notTheBlock) := by decide +kernel

/-- `ControlWriteStarts`: START while idle; without START; START while running. -/
theorem witness_ControlWriteStarts :
    State.reset.mode = .idle ∧ (0xFFFFFFFB : Word).getLsbD 2 = false ∧ (0xFFFFFFFB : Word).getLsbD 0 = true ∧
    (0xFFFFFFFA : Word).getLsbD 2 = false ∧ (0xFFFFFFFA : Word).getLsbD 0 = false ∧ (running []).mode = .running := by
  decide

/-- `StartResumesAfterFault`. -/
theorem witness_StartResumesAfterFault :
    (listOf [0]).cfg.hostOrdered = true ∧ (listOf [0]).mode = .running ∧ (listOf [0]).runningClean ∧
    (listOf [0]).moves = [] := ⟨rfl, rfl, fun _ => ⟨rfl, rfl, rfl⟩, rfl⟩

/-- `ResetsClearTheRegisters`: a soft reset while idle, one of a running list, and a power-on reset. -/
theorem witness_ResetsClearTheRegisters :
    (4 : Word).getLsbD 2 = true ∧ State.reset.cfg.hostOrdered = true ∧ State.reset.mode = .idle ∧
    ∀ m ∈ [Move.powerOn, .write 0x8000000C 4 0xFFFFFFFF],
      (after (step { (listOf [1]).faulted 5 3 with ie := true, cp := 64, moves := [m] })).map
        (fun t => (t.mode, t.cp, t.ie, t.done, t.errCause, t.errInfo)) = some (.idle, 0, false, false, 0, 0) := by
  decide +kernel

/-- `InterruptedRegionsAreFree`: a hash of 3 bytes about to run. -/
theorem witness_InterruptedRegionsAreFree :
    (listOf [0x32, 0x2000, 0, 3]).mode = .running ∧ (listOf [0x32, 0x2000, 0, 3]).cp = 0 ∧
    (listOf [0x32, 0x2000, 0, 3]).mem.read 0 64 = some (encode (.permHash 0x2000 0 3)) ∧
    (Instr.permHash 0x2000 0 3).wf .default = true ∧ checksPass .default (.permHash 0x2000 0 3) ∧
    inSpans (storeSpans (.permHash 0x2000 0 3)) 0x201F ∧ ¬inSpans (storeSpans (.permHash 0x2000 0 3)) 0x2020 :=
  ⟨rfl, rfl, by decide +kernel, rfl, by unfold checksPass; decide +kernel, by simp [inSpans, storeSpans],
    by simp [inSpans, storeSpans]⟩

/-- `InterruptedRegionsAreFree`: descriptors that would fault, by a misaligned address, at the top of `BM`, by an illegal opcode, by
an unused word, and by their bounds check; the reset is taken and `BM` stays. -/
theorem witness_InterruptedRegionsAreFree_faulting :
    (runningAt 0x3F []).cp.toNat % 64 ≠ 0 ∧
    (runningAt 0x10000 []).cfg.memBytes < (runningAt 0x10000 []).cp.toNat + 64 ∧
    (decode .default (descriptor [0])).toOption = none ∧ (decode .default (descriptor [2, 7])).toOption = none ∧
    (decode .default (descriptor [0x12, 0xFFFF, 0, 3])).toOption = some (.sha256 0xFFFF 0 3) ∧
    ¬checksPass .default (.sha256 0xFFFF 0 3) ∧
    ∀ s ∈ [runningAt 0x3F [(0, [7])], runningAt 0x10000 [(0, [7])], listOf [0], listOf [2, 7], listOf [0x12, 0xFFFF, 0, 3]],
      (after (step { s with moves := [.write 0x8000000C 4 4] })).map (fun t => (t.mode, t.cp, t.mem))
        = some (.idle, 0, s.mem) := by
  unfold checksPass
  decide +kernel

/-- `UnwrittenBytesAreFree` and R132: a port read of an unwritten byte; and a soft reset of a running block whose descriptor lacks
its last byte, which is taken. -/
theorem witness_UnwrittenBytesAreFree :
    (State.reset.mode = .idle ∧ 0xFFFF < State.reset.cfg.memBytes ∧ State.reset.mem.get 0xFFFF = none ∧
      ∃ t, step { State.reset with moves := [.read 0xFFFF 1] } = .next t) ∧
    ((runningAt 0xFFC0 [(0xFFC0, zeros 63)]).mem.get (0xFFC0 + 63) = none ∧
      (runningAt 0xFFC0 [(0xFFC0, zeros 63)]).mem.get 0xFFC0 ≠ none ∧
      (after (step { runningAt 0xFFC0 [(0xFFC0, zeros 63)] with
          ie := true, resFound := true, moves := [.write 0x8000000C 4 5] })).map
        (fun t => (t.mode, t.cp, t.ie, t.resFound, t.freeCtr, t.bmEpoch)) = some (.idle, 0, false, false, 63, 1)) :=
  ⟨⟨rfl, by decide, rfl, next_of_isSome (by decide +kernel)⟩, by decide +kernel⟩

/-- `InterruptLevel` (V4, V5, V6): a stop with `IE` set raises the level, and `STATUS` and `CTRL` writes drop it. -/
theorem witness_InterruptLevel :
    (after (step { listOf [1] with ie := true })).map State.irq = some true ∧
    (after (step { listOf [1] with ie := true, mode := .idle, done := true, moves := [.write 0x80000010 4 2] })).map
      State.irq = some false ∧
    (after (step { listOf [1] with ie := true, mode := .idle, done := true, moves := [.write 0x8000000C 4 0] })).map
      (fun t => (t.irq, t.done)) = some (false, true) ∧
    (after (step { listOf [1] with ie := true, mode := .idle, done := true, moves := [.powerOn] })).map State.irq
      = some false := by decide +kernel

/-- `KeyedHashesAreTheConstructions`: keys of 64 and 65 bytes; one iteration, and more than one block of output. -/
theorem witness_KeyedHashesAreTheConstructions :
    (zeros 64).length ≤ 64 ∧ 64 < (zeros 65).length ∧ 1 ≤ 1 ∧ 1 ≤ 33 := by decide

/-- `SalsaQuarterRound` and `PermMixingFunction`: the last diagonal group. -/
theorem witness_four_words :
    (List.replicate 16 (0 : Word)).length = 16 ∧ ([3, 4, 9, 14] : List Nat).Nodup ∧ ∀ k ∈ [3, 4, 9, 14], k < 16 := by decide

/-- `BlockmixInterleaves`, `RomixFillsThenMixes`, `ScryptMixesEveryLane`. -/
theorem witness_memory_hard :
    (zeros 128).length = 128 * 1 ∧ (zeros 256).length = 128 * 2 ∧ 1 ≤ 1 ∧ 1 ≤ 2 := by decide +kernel

/-- `PermCompressIsTheLoop`. -/
theorem witness_PermCompressIsTheLoop :
    (List.replicate 8 (0 : Word)).length = 8 ∧ (List.replicate 16 (0 : Word)).length = 16 := by decide

/-- `TargetIsANumberComparison` and `DifficultyCountsLeadingZeros`. -/
theorem witness_digests : (zeros 32).length = 32 ∧ (List.replicate 32 (0xFF : Byte)).length = 32 := by decide +kernel

/-- `SearchFindsTheSmallestNonce`: found at once, at the end, and never; and a range cut after its first nonce. -/
theorem witness_SearchFindsTheSmallestNonce :
    search 5 5 (fun n => n == 5) = ⟨true, 5, 1⟩ ∧ search 5 9 (fun n => n == 9) = ⟨true, 9, 5⟩ ∧
    search 5 9 (fun n => n == 4) = ⟨false, 0, 5⟩ ∧ search 5 5 (fun n => n == 9) = ⟨false, 0, 1⟩ ∧
    search 6 9 (fun n => n == 9) = ⟨true, 9, 4⟩ := by decide

end Sys2Proof.Tests
end

section
/-! The machine invariant: what each operation does to the buffer memory's half of it and to the report's half, and that
every step of every agent keeps it (spec/00_scope.md R5, R6; spec/10_state.md R24, R27; spec/40_control.md R60). -/

namespace Sys2Proof.Machine

/-! ### The buffer memory: canonical and below a bound -/

/-- A memory in canonical form whose addresses are below a bound: the memory's half of the invariant
(`State.Inv.within`). -/
def Memory.Within (m : Memory) (n : Nat) : Prop := m.wf ∧ ∀ x ∈ m, x.1 < n

theorem Memory.Within.nil (n : Nat) : Memory.Within [] n := ⟨List.Pairwise.nil, by simp⟩

theorem Memory.Within.set {m : Memory} {n a : Nat} (h : m.Within n) (v : Byte) (ha : a < n) :
    (m.set a v).Within n := by
  refine ⟨Memory.set_wf a v h.1, fun x hx => ?_⟩
  rcases Memory.mem_set hx with rfl | hx
  · exact ha
  · exact h.2 x hx

theorem Memory.Within.write {m : Memory} {n a : Nat} {bs : List Byte} (h : m.Within n)
    (hb : a + bs.length ≤ n) : (m.write a bs).Within n := by
  refine ⟨Memory.write_wf a bs h.1, fun x hx => ?_⟩
  rcases Memory.mem_write hx with ⟨-, hx⟩ | hx
  · exact hx.trans_le hb
  · exact h.2 x hx

theorem Memory.Within.writeAll {m : Memory} {n : Nat} {ws : List (Nat × List Byte)} (h : m.Within n)
    (hb : ∀ w ∈ ws, w.1 + w.2.length ≤ n) : (m.writeAll ws).Within n := by
  refine ⟨Memory.writeAll_wf ws h.1, fun x hx => ?_⟩
  rcases Memory.mem_writeAll hx with ⟨w, hw, -, hx⟩ | hx
  · exact hx.trans_le (hb w hw)
  · exact h.2 x hx

theorem Memory.Within.redraw {m : Memory} {n : Nat} (h : m.Within n) (ctr : Nat) :
    (m.redraw ctr).Within n := by
  refine ⟨Memory.redraw_wf ctr h.1, fun x hx => ?_⟩
  obtain ⟨y, hy, hyx⟩ := Memory.mem_redraw hx
  exact hyx ▸ h.2 y hy

@[simp] theorem freeBytes_length (ctr n : Nat) : (freeBytes ctr n).length = n := by simp [freeBytes]

theorem Memory.Within.scramble {rs : List Region} {s : State} {n : Nat} (h : s.mem.Within n)
    (hb : ∀ r ∈ rs, r.addr + r.len ≤ n) : (scramble rs s).mem.Within n := by
  induction rs generalizing s with
  | nil => exact h
  | cons r rs ih =>
    have hr := hb r List.mem_cons_self
    exact ih (h.write (by simpa using hr)) fun q hq => hb q (List.mem_cons_of_mem _ hq)

/-! ### The regions a command writes -/

/-- A command whose checks pass writes inside `BM` only (R63). -/
theorem writtenRegions_inBounds {c : Config} {i : Instr} (h : commandTrap c i = none) :
    ∀ r ∈ writtenRegions i, r.addr + r.len ≤ c.memBytes := by
  obtain ⟨-, hb, -⟩ := commandTrap_eq_none.1 h
  exact fun r hr => hb r (List.mem_of_mem_filter hr)

theorem WritesFit.inBounds {c : Config} {i : Instr} {ws : List (Nat × List Byte)} (h : WritesFit i ws)
    (hc : commandTrap c i = none) : ∀ w ∈ ws, w.1 + w.2.length ≤ c.memBytes := by
  intro w hw
  obtain ⟨r, hr, ha, hl⟩ := h w hw
  rw [ha, hl]
  exact writtenRegions_inBounds hc r hr

/-- Abandoning a command frees bytes inside `BM` only (R133). -/
theorem Memory.Within.abandon {s : State} (h : s.mem.Within s.cfg.memBytes) :
    (abandon s).mem.Within s.cfg.memBytes := by
  rcases abandon_cases s with ⟨rs, hrs, heq⟩ | ⟨-, heq⟩ <;> rw [heq]
  · rcases interruptedRegions_cases hrs with rfl | ⟨_, i, -, -, hc, rfl⟩
    · exact h
    · exact h.scramble (writtenRegions_inBounds hc)
  · exact h.redraw _

theorem Memory.Within.softReset {s : State} (h : s.mem.Within s.cfg.memBytes) :
    (softReset s).mem.Within s.cfg.memBytes := by
  cases hm : s.mode with
  | idle => simpa [Machine.softReset, hm] using h
  | running => simpa [Machine.softReset, hm] using h.abandon

/-! ### The invariant by its parts -/

theorem State.Inv.within {s : State} (h : s.Inv) : s.mem.Within s.cfg.memBytes := ⟨h.memWf, h.memIn⟩

/-- An idle state has the invariant as soon as its report agrees with itself. -/
theorem State.inv_of_idle {s : State} (hc : s.cfg.wf = true) (hmem : s.mem.Within s.cfg.memBytes)
    (hm : s.mode = .idle) (hr : s.errorReportOk) : s.Inv :=
  ⟨hc, hmem.1, hmem.2, hr, fun h => by simp [hm] at h⟩

/-- The invariant speaks of `BM`, the parameters, the mode, `DONE` and the report, and of nothing else. -/
theorem State.Inv.of_frame {s t : State} (h : s.Inv) (hcfg : t.cfg = s.cfg)
    (hmem : t.mem.Within s.cfg.memBytes) (hmode : t.mode = s.mode) (hdone : t.done = s.done)
    (hcause : t.errCause = s.errCause) (hinfo : t.errInfo = s.errInfo) : t.Inv where
  cfgOk := hcfg ▸ h.cfgOk
  memWf := hmem.1
  memIn := by simpa only [State.memInBounds, hcfg] using hmem.2
  report := by simpa only [State.errorReportOk, hcause, hinfo] using h.report
  clean := by simpa only [State.runningClean, hmode, hdone, hcause, hinfo] using h.clean

/-- A report without a cause and without information. -/
theorem State.errorReportOk_of_zero {s : State} (hc : s.errCause = 0) (hi : s.errInfo = 0) :
    s.errorReportOk := ⟨by simp [hc], fun _ => hi⟩

/-! ### The operations on the state -/

theorem State.Inv.setMoves {s : State} (h : s.Inv) (ms : List Move) : ({ s with moves := ms } : State).Inv :=
  h.of_frame rfl h.within rfl rfl rfl rfl

theorem State.Inv.answer {s : State} (h : s.Inv) (v : Word) : (s.answer v).Inv :=
  h.of_frame rfl h.within rfl rfl rfl rfl

/-- A fault saves a cause that R121 names and leaves the block idle. -/
theorem State.Inv.raise {s : State} (h : s.Inv) (t : Trap) : (s.raise t).Inv :=
  State.inv_of_idle h.cfgOk h.within rfl
    ⟨(Cause.code_bounds t.cause).2, fun h0 => absurd h0 (Cause.code_ne_zero t.cause)⟩

/-- A START write leaves a clear report, whether it starts a list or is ignored (R60). -/
theorem State.Inv.start {s : State} (h : s.Inv) : s.start.Inv := by
  cases hm : s.mode with
  | idle =>
    rw [State.start_idle hm]
    exact ⟨h.cfgOk, h.memWf, h.memIn, State.errorReportOk_of_zero rfl rfl, fun _ => ⟨rfl, rfl, rfl⟩⟩
  | running => rwa [State.start_running hm]

theorem State.inv_resetWith {c : Config} (h : c.wf = true) : (State.resetWith c).Inv :=
  State.inv_of_idle h (Memory.Within.nil _) rfl (State.errorReportOk_of_zero rfl rfl)

theorem State.Inv.powerOn {s : State} (h : s.Inv) : (powerOn s).Inv :=
  State.inv_of_idle h.cfgOk (Memory.Within.nil _) rfl (State.errorReportOk_of_zero rfl rfl)

theorem State.Inv.softReset {s : State} (h : s.Inv) : (softReset s).Inv :=
  State.inv_of_idle (by simpa using h.cfgOk) (by simpa using h.within.softReset) (by simp)
    (State.errorReportOk_of_zero (by simp) (by simp))

theorem State.Inv.writeReg {s : State} (h : s.Inv) (v : Word) (r : Reg) : (writeReg s v r).Inv := by
  have hie : ({ s with ie := v.getLsbD 1 } : State).Inv := h.of_frame rfl h.within rfl rfl rfl rfl
  rcases writeReg_cases s v r with
    ⟨-, -, heq⟩ | ⟨-, -, heq⟩ | ⟨-, heq⟩ | ⟨-, heq⟩ | ⟨-, -, -, heq⟩ <;> rw [heq]
  · exact h.softReset
  · split
    · exact hie.start
    · exact hie
  · refine ⟨h.cfgOk, h.memWf, h.memIn, h.report, fun hm => ?_⟩
    obtain ⟨hd, hc, hi⟩ := h.clean hm
    exact ⟨by simp [hd], hc, hi⟩
  · exact h.of_frame rfl h.within rfl rfl rfl rfl
  · exact h

/-- A port write stays below `MEM_BYTES`; a window write is a register write. -/
theorem State.Inv.hostWrite {s t : State} {addr width : Nat} {v : Word} (h : s.Inv)
    (hw : hostWrite s addr width v = .next t) : t.Inv := by
  rcases hostWrite_next hw with ⟨-, -, -, -, rfl⟩ | ⟨-, -, -, ha, rfl⟩
  · exact h.writeReg _ _
  · exact h.of_frame rfl (h.within.set _ ha) rfl rfl rfl rfl

/-- A completion writes inside `BM` and keeps the report; `HALT` also stops the list (R64, R65). -/
theorem State.Inv.completes {s t : State} {i : Instr} (h : s.Inv) (hc : commandTrap s.cfg i = none)
    (ht : Completes i s t) : t.Inv := by
  rcases ht with ⟨-, rfl⟩ | ⟨-, ws, hws, ⟨-, rfl⟩ | ⟨-, r, rfl⟩⟩
  · exact State.inv_of_idle h.cfgOk h.within rfl h.report
  all_goals exact h.of_frame rfl (h.within.writeAll (hws.inBounds hc)) rfl rfl rfl rfl

theorem State.Inv.engineStep {s t : State} (h : s.Inv) (he : engineStep s = .next t) : t.Inv := by
  cases hm : s.mode with
  | idle =>
    obtain rfl : s = t := by simpa [Machine.engineStep, hm] using he
    exact h
  | running =>
    rcases engineStep_running hm he with ⟨tr, rfl⟩ | ⟨-, _, _, -, -, hc, ht⟩
    · exact h.raise tr
    · exact h.completes hc ht

theorem State.Inv.step {s t : State} (h : s.Inv) (ht : step s = .next t) : t.Inv := by
  rcases step_next ht with ⟨-, he⟩ | ⟨ms, -, rfl⟩ | ⟨_, _, ms, -, v, rfl⟩ | ⟨_, _, _, ms, -, hw⟩
  · exact (h.setMoves _).engineStep he
  · exact (h.setMoves ms).powerOn
  · exact (h.setMoves ms).answer v
  · exact (h.setMoves ms).hostWrite hw

/-! ### No agent changes a parameter -/

@[simp] theorem writeReg_cfg (s : State) (v : Word) (r : Reg) : (writeReg s v r).cfg = s.cfg := by
  rcases writeReg_cases s v r with
    ⟨-, -, heq⟩ | ⟨-, -, heq⟩ | ⟨-, heq⟩ | ⟨-, heq⟩ | ⟨-, -, -, heq⟩ <;> rw [heq]
  · exact softReset_cfg s
  · split
    · exact State.start_cfg _
    · rfl

theorem hostWrite_cfg {s t : State} {addr width : Nat} {v : Word} (h : hostWrite s addr width v = .next t) :
    t.cfg = s.cfg := by
  rcases hostWrite_next h with ⟨-, -, -, -, rfl⟩ | ⟨-, -, -, -, rfl⟩
  · exact writeReg_cfg s _ _
  · rfl

theorem Completes.cfg {i : Instr} {s t : State} (h : Completes i s t) : t.cfg = s.cfg := by
  rcases h with ⟨-, rfl⟩ | ⟨-, _, -, ⟨-, rfl⟩ | ⟨-, _, rfl⟩⟩ <;> rfl

theorem engineStep_cfg {s t : State} (h : engineStep s = .next t) : t.cfg = s.cfg := by
  cases hm : s.mode with
  | idle =>
    obtain rfl : s = t := by simpa [engineStep, hm] using h
    rfl
  | running =>
    rcases engineStep_running hm h with ⟨tr, rfl⟩ | ⟨-, _, _, -, -, -, ht⟩
    · rfl
    · exact ht.cfg

theorem step_cfg {s t : State} (h : step s = .next t) : t.cfg = s.cfg := by
  rcases step_next h with ⟨-, he⟩ | ⟨_, -, rfl⟩ | ⟨_, _, _, -, _, rfl⟩ | ⟨_, _, _, _, -, hw⟩
  · exact (engineStep_cfg he :)
  · rfl
  · rfl
  · exact (hostWrite_cfg hw :)

/-! ### The statements -/

/-- Settles O28: each agent's move keeps the invariant. -/
theorem stepKeepsInv : Obligations.StepKeepsInv := fun _ _ hs ht => hs.step ht

/-- Settles O29. -/
theorem resetInv : Obligations.ResetInv :=
  ⟨State.inv_resetWith (by decide), fun _ hc => State.inv_resetWith hc⟩

/-- Settles O30: `CFG` and `MEMSIZE` are computed from the parameters, and no agent's move changes those. -/
theorem parametersNeverChange : Obligations.ParametersNeverChange := fun _ _ ht =>
  have hcfg := step_cfg ht
  ⟨hcfg, congrArg cfgWord hcfg, congrArg memSizeWord hcfg⟩

end Sys2Proof.Machine
end

section
/-! The host's accesses and the resets: what a step does when the oldest pending move is an access of the window or of the
port (spec/10_state.md R16 to R27, spec/20_memory.md R36), and what follows for the interrupt level (R26,
spec/60_exceptions.md R129) and for both resets (spec/70_reset_and_hazards.md R131, R132). -/

namespace Sys2Proof.Machine

/-! ### The step of a host's or platform's move -/

theorem step_read (s : State) (ms : List Move) (addr width : Nat) :
    step { s with moves := .read addr width :: ms } = hostRead { s with moves := ms } addr width := rfl

theorem step_write (s : State) (ms : List Move) (addr width : Nat) (v : Word) :
    step { s with moves := .write addr width v :: ms } = hostWrite { s with moves := ms } addr width v := rfl

theorem step_powerOn (s : State) (ms : List Move) :
    step { s with moves := .powerOn :: ms } = .next (powerOn { s with moves := ms }) := rfl

section
variable {s : State} {ms : List Move} {off : Nat}

theorem step_readWindow (ho : s.cfg.hostOrdered = true) (h : off < 64) (ha : off % 4 = 0) :
    step { s with moves := .read (s.cfg.regBase + off) 4 :: ms }
      = .next { s with moves := ms, lastRead := some (readReg { s with moves := ms } (regAt off)) } :=
  (step_read s ms _ _).trans (hostRead_window (s := { s with moves := ms }) ho h ha)

theorem step_writeWindow (v : Word) (ho : s.cfg.hostOrdered = true) (h : off < 64) (ha : off % 4 = 0) :
    step { s with moves := .write (s.cfg.regBase + off) 4 v :: ms }
      = .next (writeReg { s with moves := ms } v (regAt off)) :=
  (step_write s ms _ _ v).trans (hostWrite_window (s := { s with moves := ms }) ho h ha)

/-- A write of a window word that has a next state is the register's write, whatever the platform's placement. -/
theorem step_writeWindow_next {t : State} {v : Word}
    (ht : step { s with moves := .write (s.cfg.regBase + off) 4 v :: ms } = .next t) :
    t = writeReg { s with moves := ms } v (regAt off) := by
  rw [step_write] at ht
  rcases hostWrite_next ht with ⟨-, -, -, -, rfl⟩ | ⟨hw, -⟩
  · simp
  · omega

end

/-! ### The words the window shows -/

/-- `CFG` (R19) as a sum: the fields do not overlap, as `SDR` is below 16. -/
theorem cfgWord_eq {c : Config} (h : c.roundsOk = true) :
    cfgWord c = BitVec.ofNat 32 ((if c.hasSha512 then 1 else 0)
      + (if c.targetOrder = .byte31First then 2 else 0) + 256 * c.salsaDoubleRounds) := by
  have fields : ∀ (b : Bool) (o : TargetOrder) (r : Fin 16),
      flagAt b 0 ||| flagAt (o == .byte31First) 1 ||| ((BitVec.ofNat 4 r.val).zeroExtend 32 <<< 8)
        = BitVec.ofNat 32 ((if b then 1 else 0) + (if o = .byte31First then 2 else 0) + 256 * r.val) := by
    intro b o
    cases b <;> cases o <;> decide
  obtain ⟨-, hr⟩ : 1 ≤ c.salsaDoubleRounds ∧ c.salsaDoubleRounds ≤ 15 := by simpa [Config.roundsOk] using h
  exact fields c.hasSha512 c.targetOrder ⟨c.salsaDoubleRounds, by omega⟩

/-- `STATUS` (R22) as a sum of its three bits. -/
theorem State.statusWord_eq (s : State) :
    s.statusWord = BitVec.ofNat 32 ((if s.mode = .running then 1 else 0) + (if s.done then 2 else 0)
      + (if s.errCause = 0 then 0 else 4)) := by
  have bits : ∀ (m : Mode) (d e : Bool), flagAt (m == .running) 0 ||| flagAt d 1 ||| flagAt (!e) 2
      = BitVec.ofNat 32 ((if m = .running then 1 else 0) + (if d then 2 else 0) + (if e then 0 else 4)) := by
    intro m d e
    cases m <;> cases d <;> cases e <;> decide
  have := bits s.mode s.done (s.errCause == 0)
  simpa [State.statusWord, State.busy, State.err, bne] using this

theorem State.errCauseWord_eq (s : State) : s.errCauseWord = BitVec.ofNat 32 s.errCause.toNat := by
  simp [State.errCauseWord]

/-- Settles O34: each word of the window is its register's value, the views computed from the state being the sums the
rules of R19 and R22 write. -/
theorem registerReads : Obligations.RegisterReads := by
  intro s ms off v ho hr hv
  rw [← cfgWord_eq hr, ← State.statusWord_eq s, ← State.errCauseWord_eq s] at hv
  have hreg : off < 64 ∧ off % 4 = 0 ∧ readReg { s with moves := ms } (regAt off) = v := by
    simp only [List.mem_cons, Prod.mk.injEq, List.not_mem_nil, or_false] at hv
    rcases hv with ⟨rfl, rfl⟩ | ⟨rfl, rfl⟩ | ⟨rfl, rfl⟩ | ⟨rfl, rfl⟩ | ⟨rfl, rfl⟩ | ⟨rfl, rfl⟩ | ⟨rfl, rfl⟩ |
      ⟨rfl, rfl⟩ | ⟨rfl, rfl⟩ | ⟨rfl, rfl⟩ | ⟨rfl, rfl⟩ | ⟨rfl, rfl⟩ | ⟨rfl, rfl⟩ | ⟨rfl, rfl⟩ | ⟨rfl, rfl⟩ |
      ⟨rfl, rfl⟩
    all_goals exact ⟨by decide, by decide, rfl⟩
  obtain ⟨h, ha, rfl⟩ := hreg
  exact step_readWindow ho h ha

/-- Settles O35: `STATUS` and `CP` take their writes by R22 and R23, and a write of any other word but `CTRL` is ignored. -/
theorem registerWrites : Obligations.RegisterWrites := by
  intro s ms v ho
  refine ⟨?_, ?_, fun off hoff => ?_⟩
  · rw [step_writeWindow v ho (by decide) (by decide)]
    cases hv : v.getLsbD 1 <;> simp [regAt, writeReg, hv, -BitVec.getLsbD_eq_getElem]
  · rw [step_writeWindow v ho (by decide) (by decide)]
    cases s.mode <;> simp [regAt, writeReg, State.busy]
  · have hwin : off < 64 ∧ off % 4 = 0 ∧ regAt off ≠ .ctrl ∧ regAt off ≠ .status ∧ regAt off ≠ .cp := by
      revert off
      decide
    obtain ⟨h, ha, h1, h2, h3⟩ := hwin
    rw [step_writeWindow v ho h ha]
    congr 1
    rcases writeReg_cases { s with moves := ms } v (regAt off) with
      ⟨hr, -⟩ | ⟨hr, -⟩ | ⟨hr, -⟩ | ⟨hr, -⟩ | ⟨-, -, -, heq⟩
    · exact absurd hr h1
    · exact absurd hr h1
    · exact absurd hr h2
    · exact absurd hr h3
    · exact heq

/-! ### `CTRL` writes -/

/-- A `CTRL` write with `SRST` is a soft reset, whatever its other bits (R132). -/
theorem writeReg_ctrl_srst (s : State) {v : Word} (h : v.getLsbD 2 = true) : writeReg s v .ctrl = softReset s :=
  if_pos h

/-- A `CTRL` write without `SRST` and `START` takes `IE` alone (R21). -/
theorem writeReg_ctrl_ie (s : State) {v : Word} (h2 : v.getLsbD 2 = false) (h0 : v.getLsbD 0 = false) :
    writeReg s v .ctrl = { s with ie := v.getLsbD 1 } := by
  simp [writeReg, h2, h0, -BitVec.getLsbD_eq_getElem]

/-- A `CTRL` write with `START` takes `IE` and then starts the block (R21, R60). -/
theorem writeReg_ctrl_start (s : State) {v : Word} (h2 : v.getLsbD 2 = false) (h0 : v.getLsbD 0 = true) :
    writeReg s v .ctrl = ({ s with ie := v.getLsbD 1 } : State).start := by
  simp [writeReg, h2, h0, -BitVec.getLsbD_eq_getElem]

/-- Settles O36: `IE` first, then the start of an idle block; a running one ignores `START`. -/
theorem controlWriteStarts : Obligations.ControlWriteStarts := by
  intro s ms v ho h2
  have hstep : step { s with moves := .write (s.cfg.regBase + 0x0C) 4 v :: ms }
      = .next (writeReg { s with moves := ms } v .ctrl) := step_writeWindow v ho (by decide) (by decide)
  refine ⟨fun h0 hm => hstep.trans (congrArg _ ?_), fun h => hstep.trans (congrArg _ ?_)⟩
  · exact (writeReg_ctrl_start _ h2 h0).trans (State.start_idle hm)
  · cases h0 : v.getLsbD 0 with
    | false => exact writeReg_ctrl_ie _ h2 h0
    | true =>
      have hm : s.mode = .running := by simpa [h0, -BitVec.getLsbD_eq_getElem] using h
      exact (writeReg_ctrl_start _ h2 h0).trans (State.start_running hm)

/-! ### The resets -/

/-- Every register and the mode as after a reset (R31). -/
structure State.Cleared (t : State) : Prop where
  mode : t.mode = .idle
  cp : t.cp = 0
  ie : t.ie = false
  done : t.done = false
  errCause : t.errCause = 0
  errInfo : t.errInfo = 0
  resFound : t.resFound = false
  resNonceLo : t.resNonceLo = 0
  resNonceHi : t.resNonceHi = 0
  resCountLo : t.resCountLo = 0
  resCountHi : t.resCountHi = 0

theorem powerOn_cleared (s : State) : (powerOn s).Cleared := by constructor <;> rfl

theorem softReset_cleared (s : State) : (softReset s).Cleared := by constructor <;> simp

/-- `STATUS` reads 0 after a reset. -/
theorem State.Cleared.statusWord {t : State} (h : t.Cleared) : t.statusWord = 0 := by
  simp [State.statusWord_eq, h.mode, h.done, h.errCause]

theorem State.irq_of_done {s : State} (h : s.done = false) : s.irq = false := by simp [State.irq, h]

theorem State.irq_of_ie {s : State} (h : s.ie = false) : s.irq = false := by simp [State.irq, h]

theorem State.Cleared.irq {t : State} (h : t.Cleared) : t.irq = false := State.irq_of_done h.done

/-- A soft reset of an idle block leaves `BM` as it was (R132). -/
theorem softReset_mem_of_idle {s : State} (h : s.mode = .idle) : (softReset s).mem = s.mem := by
  simp [softReset, h]

/-- Settles O38: both resets clear every register; a power-on reset empties `BM`, a soft reset of an idle block keeps it. -/
theorem resetsClearTheRegisters : Obligations.ResetsClearTheRegisters := by
  intro s ms v ho h2 zeroed
  have hzero : ∀ t : State, t.Cleared → t.cfg = s.cfg → t.moves = ms → t.lastRead = s.lastRead → zeroed t :=
    fun t h hcfg hmoves hlast =>
      ⟨h.mode, h.cp, h.ie, h.statusWord, h.errCause, h.errInfo, h.resFound, h.resNonceLo, h.resNonceHi,
        h.resCountLo, h.resCountHi, h.irq, hcfg, hmoves, hlast⟩
  have hsoft : step { s with moves := .write (s.cfg.regBase + 0x0C) 4 v :: ms }
      = .next (softReset { s with moves := ms }) :=
    (step_writeWindow v ho (by decide) (by decide)).trans (congrArg _ (writeReg_ctrl_srst _ h2))
  have hz : zeroed (softReset { s with moves := ms }) :=
    hzero _ (softReset_cleared _) (by simp) (by simp) (by simp)
  refine ⟨⟨_, step_powerOn s ms, hzero _ (powerOn_cleared _) rfl rfl rfl, fun a => rfl⟩,
    fun hm => ⟨_, hsoft, hz, softReset_mem_of_idle hm⟩, _, hsoft, hz⟩

/-! ### The interrupt level -/

theorem State.irq_iff (s : State) : s.irq = true ↔ s.done = true ∧ s.ie = true := by simp [State.irq]

/-- A start that takes effect clears `DONE` (R60). -/
theorem State.start_done {s : State} (h : s.mode = .idle) : s.start.done = false := by rw [State.start_idle h]

/-- A `CTRL` write that clears `IE`, resets, or starts an idle block leaves the level low (R129). -/
theorem writeReg_ctrl_irq {s : State} {v : Word}
    (h : v.getLsbD 1 = false ∨ v.getLsbD 2 = true ∨ (v.getLsbD 0 = true ∧ s.mode = .idle)) :
    (writeReg s v .ctrl).irq = false := by
  cases h2 : v.getLsbD 2 with
  | true =>
    rw [writeReg_ctrl_srst s h2]
    exact (softReset_cleared s).irq
  | false =>
    rw [h2] at h
    cases h0 : v.getLsbD 0 with
    | false =>
      have h1 : v.getLsbD 1 = false := by simpa [h0, -BitVec.getLsbD_eq_getElem] using h
      rw [writeReg_ctrl_ie s h2 h0]
      exact State.irq_of_ie h1
    | true =>
      rw [writeReg_ctrl_start s h2 h0]
      rcases h with h1 | h | ⟨-, hm⟩
      · exact State.irq_of_ie ((State.start_ie _).trans h1)
      · cases h
      · exact State.irq_of_done (State.start_done hm)

/-- A running engine's step that ends its list sets `DONE` and keeps `IE` (R65). -/
theorem engineStep_stop {s t : State} (hm : s.mode = .running) (h : engineStep s = .next t) (ht : t.mode = .idle) :
    t.done = true ∧ t.ie = s.ie := by
  rcases engineStep_running hm h with ⟨tr, rfl⟩ | ⟨-, _, _, -, -, -, hc⟩
  · exact ⟨rfl, rfl⟩
  · rcases hc with ⟨-, rfl⟩ | ⟨-, _, -, ⟨-, rfl⟩ | ⟨-, _, rfl⟩⟩
    · exact ⟨rfl, rfl⟩
    all_goals
      have : s.mode = .idle := ht
      simp [hm] at this

/-- Settles O40: a stop sets `DONE` and keeps `IE`; each clearing event clears one of the two. -/
theorem interruptLevel : Obligations.InterruptLevel := by
  refine ⟨State.irq_iff, fun s t hm hn h ht => ?_, fun s t ms v h h1 => ?_, fun s t ms v h hv => ?_,
    fun s t ms h => ?_⟩
  · obtain ⟨hd, hie⟩ := engineStep_stop hm (step_of_nil hn ▸ h) ht
    simp [State.irq, hd, hie]
  · rw [step_writeWindow_next h]
    exact State.irq_of_done (by simp [regAt, writeReg, h1, -BitVec.getLsbD_eq_getElem])
  · rw [step_writeWindow_next h]
    exact writeReg_ctrl_irq hv
  · cases (step_powerOn s ms).symm.trans h
    exact (powerOn_cleared _).irq

/-! ### Where an access goes -/

section
variable {s : State} {addr : Nat} {win port : Nat → Result}

theorem hostAccess_inWindow (ho : s.cfg.hostOrdered = true) (h1 : s.cfg.regBase ≤ addr)
    (h2 : addr < s.cfg.regBase + 64) : hostAccess s addr win port = win (addr - s.cfg.regBase) := by
  simp [hostAccess, ho, h1, h2]

/-- A legal placement keeps the port's addresses out of the window (log 8). -/
theorem Config.not_inWindow_of_inPort {c : Config} (hc : c.wf = true) (h1 : c.hostBmBase ≤ addr)
    (h2 : addr < c.hostBmBase + c.memBytes) : ¬(c.regBase ≤ addr ∧ addr < c.regBase + 64) := by
  have hp : c.regBase + 64 ≤ c.hostBmBase ∨ c.hostBmBase + c.memBytes ≤ c.regBase := by
    simp only [Config.wf, Config.placementOk, Bool.and_eq_true, Bool.or_eq_true, decide_eq_true_eq] at hc
    exact hc.2.2
  omega

theorem hostAccess_inPort (ho : s.cfg.hostOrdered = true) (hc : s.cfg.wf = true) (h1 : s.cfg.hostBmBase ≤ addr)
    (h2 : addr < s.cfg.hostBmBase + s.cfg.memBytes) :
    hostAccess s addr win port = port (addr - s.cfg.hostBmBase) := by
  have := Config.not_inWindow_of_inPort hc h1 h2
  simp [hostAccess, ho, h1, h2, this]

theorem hostAccess_elsewhere (ho : s.cfg.hostOrdered = true)
    (hw : addr < s.cfg.regBase ∨ s.cfg.regBase + 64 ≤ addr)
    (hp : addr < s.cfg.hostBmBase ∨ s.cfg.hostBmBase + s.cfg.memBytes ≤ addr) :
    hostAccess s addr win port = .refused .notTheBlock := by
  have hw' : ¬(s.cfg.regBase ≤ addr ∧ addr < s.cfg.regBase + 64) := by omega
  have hp' : ¬(s.cfg.hostBmBase ≤ addr ∧ addr < s.cfg.hostBmBase + s.cfg.memBytes) := by omega
  simp [hostAccess, ho, hw', hp']

theorem windowAccess_refused {off width : Nat} (k : Reg → Result) (h : width ≠ 4 ∨ off % 4 ≠ 0) :
    windowAccess off width k = .refused .windowAccess := by
  have h' : ¬(width = 4 ∧ off % 4 = 0) := by omega
  simp [windowAccess, h']

theorem portAccess_running {width : Nat} (r : Result) (h : s.mode = .running) :
    portAccess s width r = .refused .portWhileBusy := by simp [portAccess, State.busy, h]

theorem portAccess_wide {width : Nat} (r : Result) (h : s.mode = .idle) (hw : width ≠ 1) :
    portAccess s width r = .refused .portWidth := by simp [portAccess, State.busy, h, hw]

theorem portAccess_byte (r : Result) (h : s.mode = .idle) : portAccess s 1 r = r := by
  simp [portAccess, State.busy, h]

end

/-! ### The refusals, for a read and a write at one place -/

section
variable {s : State} {addr width : Nat} {v : Word}

theorem window_refuses (ho : s.cfg.hostOrdered = true) (h1 : s.cfg.regBase ≤ addr)
    (h2 : addr < s.cfg.regBase + 64) (hbad : width ≠ 4 ∨ (addr - s.cfg.regBase) % 4 ≠ 0) :
    hostRead s addr width = .refused .windowAccess ∧ hostWrite s addr width v = .refused .windowAccess :=
  ⟨(hostAccess_inWindow ho h1 h2).trans (windowAccess_refused _ hbad),
    (hostAccess_inWindow ho h1 h2).trans (windowAccess_refused _ hbad)⟩

theorem port_refuses_while_running (ho : s.cfg.hostOrdered = true) (hc : s.cfg.wf = true)
    (h1 : s.cfg.hostBmBase ≤ addr) (h2 : addr < s.cfg.hostBmBase + s.cfg.memBytes) (hm : s.mode = .running) :
    hostRead s addr width = .refused .portWhileBusy ∧ hostWrite s addr width v = .refused .portWhileBusy :=
  ⟨(hostAccess_inPort ho hc h1 h2).trans (portAccess_running _ hm),
    (hostAccess_inPort ho hc h1 h2).trans (portAccess_running _ hm)⟩

theorem port_refuses_wide (ho : s.cfg.hostOrdered = true) (hc : s.cfg.wf = true)
    (h1 : s.cfg.hostBmBase ≤ addr) (h2 : addr < s.cfg.hostBmBase + s.cfg.memBytes) (hm : s.mode = .idle)
    (hw : width ≠ 1) :
    hostRead s addr width = .refused .portWidth ∧ hostWrite s addr width v = .refused .portWidth :=
  ⟨(hostAccess_inPort ho hc h1 h2).trans (portAccess_wide _ hm hw),
    (hostAccess_inPort ho hc h1 h2).trans (portAccess_wide _ hm hw)⟩

theorem elsewhere_refuses (ho : s.cfg.hostOrdered = true) (hw : addr < s.cfg.regBase ∨ s.cfg.regBase + 64 ≤ addr)
    (hp : addr < s.cfg.hostBmBase ∨ s.cfg.hostBmBase + s.cfg.memBytes ≤ addr) :
    hostRead s addr width = .refused .notTheBlock ∧ hostWrite s addr width v = .refused .notTheBlock :=
  ⟨hostAccess_elsewhere ho hw hp, hostAccess_elsewhere ho hw hp⟩

end

/-- Settles O41: the place of the access decides who answers, and that one refuses it by name. -/
theorem hostAccessesRefused : Obligations.HostAccessesRefused := by
  intro s ms addr width v ho hc
  rw [step_read, step_write]
  exact ⟨fun h1 h2 hbad => window_refuses ho h1 h2 hbad,
    fun h1 h2 hm => port_refuses_while_running ho hc h1 h2 hm,
    fun h1 h2 hm hw => port_refuses_wide ho hc h1 h2 hm hw, fun hw hp => elsewhere_refuses ho hw hp⟩

/-! ### The port -/

/-- A port write of an idle block stores one byte (R36). -/
theorem hostWrite_port {s : State} {a : Nat} (v : Word) (ho : s.cfg.hostOrdered = true) (hc : s.cfg.wf = true)
    (hm : s.mode = .idle) (ha : a < s.cfg.memBytes) :
    hostWrite s (s.cfg.hostBmBase + a) 1 v = .next { s with mem := s.mem.set a (v.setWidth 8) } := by
  rw [hostWrite, hostAccess_inPort ho hc (by omega) (by omega), portAccess_byte _ hm, Nat.add_sub_cancel_left]
  rfl

/-- A port read of an idle block answers its byte (R36). -/
theorem hostRead_port {s : State} {a : Nat} (ho : s.cfg.hostOrdered = true) (hc : s.cfg.wf = true)
    (hm : s.mode = .idle) (ha : a < s.cfg.memBytes) :
    hostRead s (s.cfg.hostBmBase + a) 1 = .next (s.answer ((portByte s a).setWidth 32)) := by
  rw [hostRead, hostAccess_inPort ho hc (by omega) (by omega), portAccess_byte _ hm, Nat.add_sub_cancel_left]

/-- A port read at a written address answers the byte held there (R27). -/
theorem hostRead_port_written {s : State} {a : Nat} {b : Byte} (ho : s.cfg.hostOrdered = true)
    (hc : s.cfg.wf = true) (hm : s.mode = .idle) (ha : a < s.cfg.memBytes) (hb : s.mem.get a = some b) :
    hostRead s (s.cfg.hostBmBase + a) 1 = .next (s.answer (b.setWidth 32)) := by
  rw [hostRead_port ho hc hm ha, portByte, hb]

/-- Settles O42: a port access of an idle block is one byte of `BM`, set by a write and answered by a read. -/
theorem portReadsWhatWasWritten : Obligations.PortReadsWhatWasWritten := by
  intro s ms a v ho hc hm ha
  refine ⟨⟨_, (step_write s ms _ _ v).trans (hostWrite_port (s := { s with moves := ms }) v ho hc hm ha), fun x => ?_⟩,
    fun b hb => ?_⟩
  · rw [Memory.get_set]
    simp only [eq_comm]
  · exact (step_read s ms _ _).trans (hostRead_port_written (s := { s with moves := ms }) ho hc hm ha hb)

end Sys2Proof.Machine
end

section
/-! What an engine step can do to the mode and to the result registers: every command's frame (spec/40_control.md R64,
spec/60_exceptions.md R120), and the whole-machine rules of spec/10_state.md R15 and R25. The rules name the
descriptor at `CP`, so the first part is that only a command's own encoding decodes to it (spec/30_encoding.md R50 to R54). -/

namespace Sys2Proof.Machine

/-! ### Only a command's encoding decodes to it -/

/-- The command of an opcode has that opcode, and its operands are the words after word 0 (R53). -/
theorem commandOf_eq_some {op : Nat} {w : Nat → Word} {i : Instr} (h : commandOf op w = some i) :
    (opcodeOf i).toNat = op ∧
      operandWords i = (List.range (operandWords i).length).map fun k => w (k + 1) := by
  unfold commandOf at h
  split at h <;> cases h <;> simp [opcodeOf, operandWords, List.range_succ]

/-- What a decode that succeeds says of the words: opcode and operands in place, and 0 in every other bit (R51, R54). -/
theorem decodeWords_eq_ok {c : Config} {ws : List Word} {i : Instr} (h : decodeWords c ws = .ok i) :
    i.wf c = true ∧ commandOf ((ws.getD 0 0).extractLsb' 0 8).toNat (fun k => ws.getD k 0) = some i ∧
      (ws.getD 0 0).extractLsb' 8 24 = 0 ∧
      ∀ k, (operandWords i).length < k → k ≤ 15 → ws.getD k 0 = 0 := by
  simp only [decodeWords] at h
  split at h
  · cases h
  · rename_i j hj
    split at h
    · cases h
    · rename_i hwf
      split at h
      · cases h
      · rename_i h8
        split at h
        · cases h
        · rename_i hz
          cases h
          exact ⟨by simpa using hwf, hj, by simpa using h8, fun k h1 h2 => firstNonzero_eq_none.1 hz k h1 h2⟩

/-- A word whose upper 24 bits are 0 is its low byte. -/
theorem eq_of_lowByte {x y : Word} (h : x.toNat = (y.extractLsb' 0 8).toNat) (h8 : y.extractLsb' 8 24 = 0) :
    x = y := by
  have h8' := congrArg BitVec.toNat h8
  have := y.isLt
  simp only [BitVec.extractLsb'_toNat, Nat.shiftRight_eq_div_pow] at h h8'
  apply BitVec.eq_of_toNat_eq
  simp at h h8'
  omega

theorem encodeWords_of_decodeWords {c : Config} {ws : List Word} {i : Instr} (hl : ws.length = 16)
    (h : decodeWords c ws = .ok i) : encodeWords i = ws := by
  obtain ⟨-, hcmd, h8, hz⟩ := decodeWords_eq_ok h
  obtain ⟨hop, hops⟩ := commandOf_eq_some hcmd
  have hop : opcodeOf i = ws.getD 0 0 := eq_of_lowByte hop h8
  refine List.ext_getElem (by simp [hl]) fun k hk hk' => ?_
  have hget : ws[k] = ws.getD k 0 := by simp [hk']
  rw [hget]
  cases k with
  | zero => simpa [encodeWords] using hop
  | succ k =>
    by_cases hkn : k < (operandWords i).length
    · have hword : (operandWords i)[k] = ws.getD (k + 1) 0 := by
        rw [List.getElem_of_eq hops hkn]
        simp
      simpa [encodeWords, hkn] using hword
    · have h0 := hz (k + 1) (by omega) (by omega)
      rw [h0]
      simp [encodeWords, List.getElem_append, hkn]

/-- Only the descriptor of a command decodes to it. -/
theorem eq_encode_of_decode {c : Config} {bs : List Byte} {i : Instr} (h : decode c bs = .ok i) :
    bs = encode i := by
  by_cases hl : bs.length = 64
  · rw [decode_of_length c hl] at h
    rw [encode, encodeWords_of_decodeWords (by simp) h, le32sBytes_le32s 16 hl]
  · simp [decode, hl] at h

/-! ### The frame of a command -/

/-- The result registers (R25). -/
def State.results (s : State) : Bool × Word × Word × Word × Word :=
  (s.resFound, s.resNonceLo, s.resNonceHi, s.resCountLo, s.resCountHi)

/-- A command that completes and is no nonce search keeps the result registers. -/
theorem Completes.results {i : Instr} {s t : State} (h : Completes i s t) (hs : isSearch i = false) :
    t.results = s.results := by
  rcases h with ⟨-, rfl⟩ | ⟨-, _, -, ⟨-, rfl⟩ | ⟨hs', -⟩⟩
  · rfl
  · rfl
  · simp [hs] at hs'

/-- A command that completes stores to its own spans only (R39). -/
theorem Completes.get_outside {i : Instr} {s t : State} (h : Completes i s t) {a : Nat}
    (ha : ¬inSpans (storeSpans i) a) : t.mem.get a = s.mem.get a := by
  rcases h with ⟨-, rfl⟩ | ⟨-, _, hws, ⟨-, rfl⟩ | ⟨-, _, rfl⟩⟩
  · rfl
  · exact hws.get_outside ha
  · exact hws.get_outside ha

/-- `HALT` alone ends the list: every other completion keeps the mode and `DONE` (R64, R65). -/
theorem Completes.mode {i : Instr} {s t : State} (h : Completes i s t) (hi : isHalt i = false) :
    t.mode = s.mode ∧ t.done = s.done := by
  rcases h with ⟨rfl, -⟩ | ⟨-, _, -, ⟨-, rfl⟩ | ⟨-, _, rfl⟩⟩
  · cases hi
  · exact ⟨rfl, rfl⟩
  · exact ⟨rfl, rfl⟩

/-- A completion keeps the interrupt enable, the parameters and the model's own fields. -/
theorem Completes.kept {i : Instr} {s t : State} (h : Completes i s t) :
    t.ie = s.ie ∧ t.cfg = s.cfg ∧ t.moves = s.moves ∧ t.lastRead = s.lastRead ∧ t.freeCtr = s.freeCtr ∧
      t.bmEpoch = s.bmEpoch := by
  rcases h with ⟨-, rfl⟩ | ⟨-, _, -, ⟨-, rfl⟩ | ⟨-, _, rfl⟩⟩ <;> exact ⟨rfl, rfl, rfl, rfl, rfl, rfl⟩

/-- The five result registers agree as soon as the tuples of them do. -/
theorem State.results_eq_iff {s t : State} : t.results = s.results ↔
    t.resFound = s.resFound ∧ t.resNonceLo = s.resNonceLo ∧ t.resNonceHi = s.resNonceHi ∧
      t.resCountLo = s.resCountLo ∧ t.resCountHi = s.resCountHi := by
  simp [State.results]

/-- Settles O27: a fault changes the mode, `DONE` and the report only; a completion what `Completes` says. -/
theorem commandFrame : Obligations.CommandFrame := by
  intro i s t h
  rcases exec_next h with ⟨tr, htr, rfl⟩ | ⟨hc, hcomp⟩
  · exact ⟨rfl, rfl, rfl, rfl, rfl, rfl, fun _ => ⟨rfl, rfl, rfl, rfl, rfl⟩,
      .inl ⟨by simp [checksPass, htr], rfl, rfl⟩⟩
  · obtain ⟨hie, hcfg, hmoves, hlast, hctr, hepoch⟩ := hcomp.kept
    obtain ⟨hcause, hinfo, hcp⟩ := hcomp.report
    refine ⟨hie, hcfg, hmoves, hlast, hctr, hepoch, fun hs => State.results_eq_iff.1 (hcomp.results ?_),
      .inr ⟨hc, hcp, hcause, hinfo, hcomp.mode, fun a ha => hcomp.get_outside ha⟩⟩
    have hc' : checksPass s.cfg i := hc
    simpa [hc'] using hs

/-! ### The engine's step -/

theorem eq_halt_of_isHalt {i : Instr} (h : isHalt i = true) : i = .halt := by
  cases i <;> simp_all [isHalt]

/-- An engine step keeps the mode, or ends the running list by a fault or by `HALT` (R15, R65). -/
theorem engineStep_mode {s t : State} (h : engineStep s = .next t) :
    t.mode = s.mode ∨
      (t.mode = .idle ∧ (t.errCause ≠ 0 ∨ s.mem.read s.cp.toNat 64 = some (encode .halt))) := by
  cases hm : s.mode with
  | idle =>
    obtain rfl : s = t := by simpa [engineStep, hm] using h
    exact .inl hm
  | running =>
    rcases engineStep_running hm h with ⟨tr, rfl⟩ | ⟨-, bs, i, hbs, hd, -, hc⟩
    · exact .inr ⟨rfl, .inl (Cause.code_ne_zero tr.cause)⟩
    · cases hi : isHalt i with
      | false => exact .inl ((hc.mode hi).1.trans hm)
      | true =>
        obtain rfl := eq_halt_of_isHalt hi
        rcases hc with ⟨-, rfl⟩ | ⟨hne, -⟩
        · exact .inr ⟨rfl, .inr (eq_encode_of_decode hd ▸ hbs)⟩
        · exact absurd rfl hne

/-- An engine step keeps the result registers, or completes the nonce search at `CP` (R25, R116). -/
theorem engineStep_results {s t : State} (h : engineStep s = .next t) :
    t.results = s.results ∨
      (s.mode = .running ∧ ∃ i, s.mem.read s.cp.toNat 64 = some (encode i) ∧ isSearch i = true ∧
        checksPass s.cfg i) := by
  cases hm : s.mode with
  | idle =>
    obtain rfl : s = t := by simpa [engineStep, hm] using h
    exact .inl rfl
  | running =>
    rcases engineStep_running hm h with ⟨tr, rfl⟩ | ⟨-, bs, i, hbs, hd, hck, hc⟩
    · exact .inl rfl
    · cases hi : isSearch i with
      | false => exact .inl (hc.results hi)
      | true => exact .inr ⟨rfl, i, eq_encode_of_decode hd ▸ hbs, hi, hck⟩

/-! ### The host's writes -/

/-- `CTRL` stands at offset 0x0C of the window and nowhere else (R16). -/
theorem eq_of_regAt_ctrl {off : Nat} (h : off < 64) (hr : regAt off = .ctrl) : off = 0x0C := by
  revert off
  decide

/-- Without `SRST` and `START`, a `CTRL` write keeps the mode. -/
theorem writeReg_ctrl_ie_mode (s : State) {v : Word} (h2 : v.getLsbD 2 = false) (h0 : v.getLsbD 0 = false) :
    (writeReg s v .ctrl).mode = s.mode := by rw [writeReg_ctrl_ie s h2 h0]

/-- A START write leaves the block running, started or not. -/
theorem writeReg_ctrl_start_mode (s : State) {v : Word} (h2 : v.getLsbD 2 = false) (h0 : v.getLsbD 0 = true) :
    (writeReg s v .ctrl).mode = .running := by rw [writeReg_ctrl_start s h2 h0, State.start_mode]

theorem writeReg_ctrl_results (s : State) {v : Word} (h2 : v.getLsbD 2 = false) :
    (writeReg s v .ctrl).results = s.results := by
  cases h0 : v.getLsbD 0 with
  | false => rw [writeReg_ctrl_ie s h2 h0]; rfl
  | true => simp [writeReg_ctrl_start s h2 h0, State.results]

/-- A host write is a `CTRL` write, or keeps the mode and the result registers. -/
theorem hostWrite_ctrl_or_keeps {s t : State} {addr width : Nat} {v : Word} (h : hostWrite s addr width v = .next t) :
    (addr = s.cfg.regBase + 0x0C ∧ width = 4 ∧ t = writeReg s v .ctrl) ∨
      (t.mode = s.mode ∧ t.results = s.results) := by
  rcases hostWrite_next h with ⟨hw, h1, h2, -, rfl⟩ | ⟨-, -, -, -, rfl⟩
  · by_cases hr : regAt (addr - s.cfg.regBase) = .ctrl
    · have := eq_of_regAt_ctrl (by omega) hr
      exact .inl ⟨by omega, hw, by rw [hr]⟩
    · rcases writeReg_cases s v (regAt (addr - s.cfg.regBase)) with
        ⟨hr', -⟩ | ⟨hr', -⟩ | ⟨-, heq⟩ | ⟨-, heq⟩ | ⟨-, -, -, heq⟩
      · exact absurd hr' hr
      · exact absurd hr' hr
      all_goals
        rw [heq]
        exact .inr ⟨rfl, rfl⟩
  · exact .inr ⟨rfl, rfl⟩

/-! ### The whole-machine rules -/

/-- A step that keeps the mode has nothing to answer for in R15. -/
theorem ruleHolds_of_mode_eq {s t : State} {p q : Prop} (h : t.mode = s.mode) :
    (s.mode = .idle → t.mode = .running → p) ∧ (s.mode = .running → t.mode = .idle → q) := by
  cases hm : s.mode <;> simp [h, hm]

/-- Settles O31: of the moves, only the engine's step, a reset and a `CTRL` write change the mode. -/
theorem onlyStartEntersRunning : Obligations.OnlyStartEntersRunning := by
  intro s t ht
  rcases step_next ht with ⟨hmoves, he⟩ | ⟨ms, hms, rfl⟩ | ⟨_, _, ms, -, _, rfl⟩ | ⟨_, _, v, ms, hms, hw⟩
  · rcases engineStep_mode he with hmode | ⟨hidle, hwhy⟩
    · exact ruleHolds_of_mode_eq hmode
    · exact ⟨fun _ hrun => by simp [hidle] at hrun, fun _ _ => .inr (.inr ⟨hmoves, hwhy⟩)⟩
  · exact ⟨fun _ hrun => by simp at hrun, fun _ _ => .inl ⟨ms, hms⟩⟩
  · exact ruleHolds_of_mode_eq rfl
  · rcases hostWrite_ctrl_or_keeps hw with ⟨rfl, rfl, rfl⟩ | ⟨hmode, -⟩
    · cases h2 : v.getLsbD 2 with
      | true =>
        refine ⟨fun _ hrun => ?_, fun _ _ => .inr (.inl ⟨v, ms, hms, h2⟩)⟩
        simp [writeReg_ctrl_srst _ h2] at hrun
      | false =>
        cases h0 : v.getLsbD 0 with
        | false => exact ruleHolds_of_mode_eq (writeReg_ctrl_ie_mode _ h2 h0)
        | true =>
          refine ⟨fun _ _ => ⟨v, ms, hms, h0, h2⟩, fun _ hidle => ?_⟩
          simp [writeReg_ctrl_start_mode _ h2 h0] at hidle
    · exact ruleHolds_of_mode_eq hmode

/-- Settles O32: of the moves, only a completing search and a reset change the result registers. -/
theorem onlySearchesWriteResults : Obligations.OnlySearchesWriteResults := by
  intro s t ht
  rcases step_next ht with ⟨hmoves, he⟩ | ⟨ms, hms, rfl⟩ | ⟨_, _, ms, -, _, rfl⟩ | ⟨_, _, v, ms, hms, hw⟩
  · rcases engineStep_results he with hres | ⟨hm, hsearch⟩
    · exact .inl hres
    · exact .inr (.inr (.inr ⟨hmoves, hm, hsearch⟩))
  · exact .inr (.inl ⟨ms, hms⟩)
  · exact .inl rfl
  · rcases hostWrite_ctrl_or_keeps hw with ⟨rfl, rfl, rfl⟩ | ⟨-, hres⟩
    · cases h2 : v.getLsbD 2 with
      | true => exact .inr (.inr (.inl ⟨v, ms, hms, h2⟩))
      | false => exact .inl (writeReg_ctrl_results _ h2)
    · exact .inl hres

end Sys2Proof.Machine
end

section
/-! The nonce-search commands complete (spec/45_mine.md R116 to R118): the checks that pass, the record and the register
words of a result, and that a 32-bit range has a 32-bit nonce. -/

namespace Sys2Proof.Machine

/-! ### The result of a search as bytes and words -/

/-- The record of R116, written out: the flag is one byte, and the rest of its word and the last word are 0. -/
theorem resultRecord_eq (r : SearchResult) : resultRecord r =
    leBytes 8 r.nonce.toNat ++ leBytes 8 r.count.toNat ++ [if r.found then 1 else 0] ++ zeros 7 := by
  have flag : ∀ f : Bool, leBytes 4 f.toNat ++ leBytes 4 0 = [if f then 1 else 0] ++ zeros 7 := by decide
  simp only [resultRecord, List.append_assoc, flag]

/-- The low word of a 64-bit value (R25). -/
theorem lowWord_eq (x : Word64) : x.extractLsb' 0 32 = BitVec.ofNat 32 x.toNat := by
  simp [← BitVec.toNat_inj, BitVec.extractLsb'_toNat]

/-- The high word of a 64-bit value (R25). -/
theorem highWord_eq (x : Word64) : x.extractLsb' 32 32 = BitVec.ofNat 32 (x.toNat / 2 ^ 32) := by
  simp [← BitVec.toNat_inj, BitVec.extractLsb'_toNat, Nat.shiftRight_eq_div_pow]

/-- The state a search completes with, written out. -/
theorem completeSearch_eq (res : Word) (r : SearchResult) (s : State) : completeSearch res r s = { s with
    cp := s.cp + 64
    mem := s.mem.write res.toNat
      (leBytes 8 r.nonce.toNat ++ leBytes 8 r.count.toNat ++ [if r.found then 1 else 0] ++ zeros 7)
    resFound := r.found
    resNonceLo := BitVec.ofNat 32 r.nonce.toNat
    resNonceHi := BitVec.ofNat 32 (r.nonce.toNat / 2 ^ 32)
    resCountLo := BitVec.ofNat 32 r.count.toNat
    resCountHi := BitVec.ofNat 32 (r.count.toNat / 2 ^ 32) } := by
  simp only [completeSearch, State.setResult, State.complete_one, lowWord_eq, highWord_eq, resultRecord_eq]

/-! ### The nonce lies in the range -/

theorem searchFrom_nonce_le (attempt : Nat → Bool) (left n : Nat) (count : Word64) :
    (searchFrom attempt left n count).nonce.toNat ≤ n + left := by
  induction left generalizing n count with
  | zero =>
    simp only [searchFrom]
    split
    · exact Nat.mod_le _ _
    · exact Nat.zero_le _
  | succ left ih =>
    simp only [searchFrom]
    split
    · exact (Nat.mod_le _ _).trans (Nat.le_add_right _ _)
    · have := ih (n + 1) (count + 1)
      omega

/-- A search over a range ends with a nonce up to its end (R115). -/
theorem search_nonce_le {start stop : Nat} (attempt : Nat → Bool) (h : start ≤ stop) :
    (search start stop attempt).nonce.toNat ≤ stop := by
  have := searchFrom_nonce_le attempt (stop - start) start 0
  rw [search]
  omega

/-- The nonce of a search over a 32-bit range has no high word (R25, R117). -/
theorem search_nonce_high {start stop : Word} (attempt : Nat → Bool) (h : start.toNat ≤ stop.toNat) :
    BitVec.ofNat 32 ((search start.toNat stop.toNat attempt).nonce.toNat / 2 ^ 32) = 0 := by
  rw [Nat.div_eq_of_lt ((search_nonce_le attempt h).trans_lt stop.isLt)]
  rfl

/-! ### The commands -/

/-- Only one region written, the first, so no pair of regions is forbidden (R40). -/
theorem overlap_output_inputs {r : Region} {rs : List Region} (hr : r.cls = .output)
    (hrs : ∀ q ∈ rs, q.cls = .input) :
    (r :: rs).Pairwise fun r q => ¬(r.exclusive q = true ∧ r.meets q = true) := by
  refine List.pairwise_cons.2 ⟨fun q hq => ?_, List.pairwise_of_forall_mem_list fun a ha b hb => ?_⟩
  · simp [Region.exclusive, hr, hrs q hq, RegionClass.written]
  · simp [Region.exclusive, hrs a ha, hrs b hb, RegionClass.written]

theorem commandTrap_mineSha256d {c : Config} {res hdr target start stop : Word} (h : start.toNat ≤ stop.toNat)
    (hres : res.toNat + 24 ≤ c.memBytes) (hhdr : hdr.toNat + 80 ≤ c.memBytes)
    (htarget : target.toNat + 32 ≤ c.memBytes) :
    commandTrap c (.mineSha256d res hdr target start stop) = none :=
  commandTrap_eq_none.2 ⟨by simpa [paramChecks, paramCheck] using h,
    by simp [regionsOf, region, hres, hhdr, htarget],
    overlap_output_inputs rfl (by simp [region])⟩

theorem commandTrap_minePerm {c : Config} {res data dlen diff : Word} {start stop : Word64}
    (hdlen : dlen.toNat ≤ 248) (hdiff : diff.toNat ≤ 256) (h : start.toNat ≤ stop.toNat)
    (hres : res.toNat + 24 ≤ c.memBytes) (hdata : data.toNat + dlen.toNat ≤ c.memBytes) :
    commandTrap c (.minePerm res data dlen diff start stop) = none :=
  commandTrap_eq_none.2 ⟨by simpa [paramChecks, paramCheck] using ⟨hdlen, hdiff, h⟩,
    by simp [regionsOf, region, hres, hdata],
    overlap_output_inputs rfl (by simp [region])⟩

/-- Settles O25: the checks pass, both reads succeed, and the nonce of a 32-bit range has no high word. -/
theorem mineSha256dCompletes : Obligations.MineSha256dCompletes := by
  intro s res hdr target start stop h t hle hres hhdr htarget hh ht
  refine ⟨_, rfl, ?_⟩
  rw [exec, execMineSha256d, command_of_none _ (commandTrap_mineSha256d hle hres hhdr htarget),
    withRead_of_some _ hh, withRead_of_some _ ht, completeSearch_eq, search_nonce_high _ hle]
  rfl

/-- Settles O26: the checks pass and the read succeeds. -/
theorem minePermCompletes : Obligations.MinePermCompletes := by
  intro s res data dlen diff start stop m hdlen hdiff hle hres hdata hm
  refine ⟨search start.toNat stop.toNat (attemptPerm m diff.toNat), rfl, ?_⟩
  rw [exec, execMinePerm, command_of_none _ (commandTrap_minePerm hdlen hdiff hle hres hdata), withRead_of_some _ hm,
    completeSearch_eq]

end Sys2Proof.Machine
end

section
/-! A command's results depend on its operands, the parameters and the bytes of its input regions alone (spec/10_state.md R29,
spec/20_memory.md R38, spec/45_mine.md R119). A command that completes does so by a map of states that is the same for every
two states whose parameters and input bytes agree; which bytes and registers such a map settles by itself is `UniformEffect`. -/

namespace Sys2Proof.Machine

/-! ### Writes settle the bytes they cover -/

/-- A byte that a list of writes covers does not depend on the memory they are applied to. -/
theorem Memory.get_writeAll_covered (m m' : Memory) {ws : List (Nat × List Byte)} {a : Nat}
    (h : (∃ w ∈ ws, w.1 ≤ a ∧ a < w.1 + w.2.length) ∨ m.get a = m'.get a) :
    (m.writeAll ws).get a = (m'.writeAll ws).get a := by
  induction ws generalizing m m' with
  | nil => simpa [Memory.writeAll] using h
  | cons w ws ih =>
    refine ih _ _ ?_
    by_cases hin : w.1 ≤ a ∧ a < w.1 + w.2.length
    · exact .inr (by rw [Memory.get_write, Memory.get_write, if_pos hin, if_pos hin])
    · rcases h with ⟨v, hv, hva⟩ | h
      · rcases List.mem_cons.1 hv with rfl | hv
        · exact absurd hva hin
        · exact .inl ⟨v, hv, hva⟩
      · exact .inr (by rw [Memory.get_write, Memory.get_write, if_neg hin, if_neg hin, h])

/-- These writes cover every span the command stores to. -/
def Covers (i : Instr) (ws : List (Nat × List Byte)) : Prop :=
  ∀ p ∈ storeSpans i, ∃ w ∈ ws, w.1 = p.1 ∧ w.2.length = p.2

theorem Covers.get_eq {i : Instr} {ws : List (Nat × List Byte)} (h : Covers i ws) (m m' : Memory) {a : Nat}
    (ha : inSpans (storeSpans i) a) : (m.writeAll ws).get a = (m'.writeAll ws).get a := by
  obtain ⟨p, hp, hpa⟩ := ha
  obtain ⟨w, hw, h1, h2⟩ := h p hp
  exact Memory.get_writeAll_covered m m' (.inl ⟨w, hw, by omega⟩)

/-! ### The maps by which commands complete -/

/-- A map of states whose stored bytes, and for a nonce search whose result registers, are the same from every state; and
which changes registers without looking at `BM`. -/
structure UniformEffect (i : Instr) (f : State → State) : Prop where
  stored : ∀ s u a, inSpans (storeSpans i) a → (f u).mem.get a = (f s).mem.get a
  results : isSearch i = true → ∀ s u, (f u).results = (f s).results
  registers : ∀ s m, ∃ m', f { s with mem := m } = { f s with mem := m' }

theorem UniformEffect.complete {i : Instr} {ws : List (Nat × List Byte)} (hs : isSearch i = false)
    (hw : Covers i ws := by simp [Covers, storeSpans]) : UniformEffect i (State.complete ws) where
  stored s u _ ha := hw.get_eq u.mem s.mem ha
  results h := by simp [hs] at h
  registers _ m := ⟨m.writeAll ws, rfl⟩

theorem UniformEffect.setResult {i : Instr} {ws : List (Nat × List Byte)} {r : SearchResult}
    (hw : Covers i ws := by simp [Covers, storeSpans]) : UniformEffect i fun s => (s.complete ws).setResult r where
  stored s u _ ha := hw.get_eq u.mem s.mem ha
  results _ _ _ := rfl
  registers _ m := ⟨m.writeAll ws, rfl⟩

theorem UniformEffect.halt : UniformEffect .halt fun s => s.advance.stop where
  stored _ _ _ ha := by simp [inSpans, storeSpans] at ha
  results h := by cases h
  registers _ m := ⟨m, rfl⟩

/-! ### Command bodies -/

/-- From every state with these parameters, the body reads only the command's input spans, and, if it ends in a next state,
takes a uniform map that those bytes determine. -/
def DependsOnInputs (c : Config) (i : Instr) (body : State → Result) : Prop :=
  ∀ s t, s.cfg = c → body s = .next t →
    ∃ f, UniformEffect i f ∧ t = f s ∧
      ∀ u, u.cfg = c → (∀ a, inSpans (loadSpans i) a → u.mem.get a = s.mem.get a) → body u = .next (f u)

section
variable {c : Config} {i : Instr}

theorem DependsOnInputs.next {f : State → State} {body : State → Result} (hf : UniformEffect i f)
    (h : ∀ s, s.cfg = c → body s = .next (f s)) : DependsOnInputs c i body := by
  intro s t hs ht
  cases (h s hs).symm.trans ht
  exact ⟨f, hf, rfl, fun u hu _ => h u hu⟩

/-- A snapshot read of an input span, and a body for each byte string it can give. -/
theorem DependsOnInputs.read {addr : Word} {n : Nat} {body : List Byte → State → Result}
    (h : ∀ bs, bs.length = n → DependsOnInputs c i (body bs))
    (hspan : (addr.toNat, n) ∈ loadSpans i := by simp [loadSpans]) :
    DependsOnInputs c i fun s => withRead s addr n fun bs => body bs s := by
  intro s t hs ht
  obtain ⟨bs, hbs, hlen, ht⟩ := withRead_next ht
  obtain ⟨f, hf, rfl, hu⟩ := h bs hlen s t hs ht
  refine ⟨f, hf, rfl, fun u huc hmem => ?_⟩
  have hread : u.mem.read addr.toNat n = some bs := hbs ▸ Memory.read_congr fun k hk =>
    hmem _ ⟨_, hspan, Nat.le_add_right _ _, Nat.add_lt_add_left hk _⟩
  exact (withRead_of_some _ hread).trans (hu u huc hmem)

theorem DependsOnInputs.command {body : State → Result} (hc : commandTrap c i = none)
    (h : DependsOnInputs c i body) : DependsOnInputs c i fun s => command i s fun _ => body s := by
  have hbody : ∀ s, s.cfg = c → Machine.command i s (fun _ => body s) = body s :=
    fun s hs => command_of_none _ (hs ▸ hc)
  intro s t hs ht
  obtain ⟨f, hf, rfl, hu⟩ := h s t hs ((hbody s hs).symm.trans ht)
  exact ⟨f, hf, rfl, fun u huc hmem => (hbody u huc).trans (hu u huc hmem)⟩

end

/-- Every command whose checks pass depends on its inputs alone: it reads its input spans one after the other and completes. -/
theorem exec_dependsOnInputs {c : Config} {i : Instr} (hc : commandTrap c i = none) :
    DependsOnInputs c i (exec i) := by
  cases i with
  | halt => exact .next .halt fun _ _ => rfl
  | nop => exact .next (.complete (ws := []) rfl) fun _ _ => rfl
  | sha256Iv dst => exact .command hc <| .next (.complete rfl) fun _ _ => rfl
  | sha256Compress dst state block =>
    exact .command hc <| .read fun _ _ => .read fun _ _ => .next (.complete rfl) fun _ _ => rfl
  | sha256 dst src len => exact .command hc <| .read fun _ _ => .next (.complete rfl) fun _ _ => rfl
  | sha256d dst src len =>
    exact .command hc <| .read fun _ _ => .next (.complete rfl) fun _ _ => rfl
  | sha512Iv dst => exact .command hc <| .next (.complete rfl) fun _ _ => rfl
  | sha512Compress dst state block =>
    exact .command hc <| .read fun _ _ => .read fun _ _ => .next (.complete rfl) fun _ _ => rfl
  | sha512 dst src len => exact .command hc <| .read fun _ _ => .next (.complete rfl) fun _ _ => rfl
  | hmacSha256 dst key keyLen msg msgLen =>
    exact .command hc <| .read fun _ _ => .read fun _ _ => .next (.complete rfl) fun _ _ => rfl
  | pbkdf2Sha256 dst dkLen pwd pwdLen salt saltLen iter =>
    exact .command hc <| .read fun _ _ => .read fun _ _ => .next (.complete rfl) fun _ _ => rfl
  | salsaCore dst src =>
    exact .command hc <| .read fun b _ =>
      .next (f := State.complete [(dst.toNat, Machine.salsaCore c.salsaDoubleRounds b)])
        (.complete rfl) fun _ hs => by rw [hs]
  | blockmix dst src r =>
    exact .command hc <| .read fun b _ =>
      .next (f := State.complete [(dst.toNat, Machine.blockmix c.salsaDoubleRounds r.toNat b)])
        (.complete rfl) fun _ hs => by rw [hs]
  | romix blk v n r =>
    exact .command hc <| .read fun b hb =>
      .next (f := State.complete [(v.toNat, (Machine.romix c.salsaDoubleRounds n.toNat r.toNat b).2.flatten),
          (blk.toNat, (Machine.romix c.salsaDoubleRounds n.toNat r.toNat b).1)])
        (.complete rfl (by simp [Covers, storeSpans, romix_block_length _ _ _ hb, romix_table_length _ _ _ hb,
          -List.length_flatten])) fun _ hs => by rw [hs]
  | scrypt dst dkLen pwd pwdLen salt saltLen n r p work =>
    have hp : 1 ≤ p.toNat := by
      simpa [paramChecks, paramCheck] using
        (commandTrap_eq_none.1 hc).1 (paramCheck (1 ≤ p.toNat) 9) (by simp [paramChecks])
    exact .command hc <| .read fun pw _ => .read fun sa _ =>
      .next (f := State.complete
          [(work.toNat,
            (Machine.scrypt c.salsaDoubleRounds pw sa n.toNat r.toNat p.toNat dkLen.toNat).lanes ++
            (Machine.scrypt c.salsaDoubleRounds pw sa n.toNat r.toNat p.toNat dkLen.toNat).table),
           (dst.toNat, (Machine.scrypt c.salsaDoubleRounds pw sa n.toNat r.toNat p.toNat dkLen.toNat).key)])
        (.complete rfl (by simp [Covers, storeSpans, scrypt_lanes_length, scrypt_table_length _ _ _ _ _ _ _ hp,
          Nat.mul_add])) fun _ hs => by rw [hs]
  | permIv dst => exact .command hc <| .next (.complete rfl) fun _ _ => rfl
  | permCompress dst cv block ctr blen flags =>
    exact .command hc <| .read fun _ _ => .read fun _ _ =>
      .next (.complete rfl (by simp [Covers, storeSpans, permCompress_length])) fun _ _ => rfl
  | permHash dst src len =>
    exact .command hc <| .read fun _ _ => .next (.complete rfl) fun _ _ => rfl
  | mineSha256d res hdr target start stop =>
    exact .command hc <| .read fun h _ => .read fun t _ =>
      .next (f := completeSearch res (search start.toNat stop.toNat (attemptSha256d c.targetOrder h t)))
        .setResult fun _ hs => by rw [hs]
  | minePerm res data dlen diff start stop =>
    exact .command hc <| .read fun _ _ => .next .setResult fun _ _ => rfl

/-- Settles O33: the command takes one and the same uniform map from both states. -/
theorem resultsDependOnInputsAlone : Obligations.ResultsDependOnInputsAlone := by
  intro i s t u hc ht hcfg hmem
  obtain ⟨f, hf, rfl, hu⟩ := exec_dependsOnInputs hc s t rfl ht
  refine ⟨f u, hu u hcfg hmem, hf.stored s u, fun hs => hf.results hs s u, fun hus => ?_⟩
  obtain ⟨m, hm⟩ := hf.registers u s.mem
  rw [hus] at hm
  rw [hm]

end Sys2Proof.Machine
end

section
/-! Which check a command's fault comes from (spec/20_memory.md R34, R40; spec/40_control.md R63; spec/60_exceptions.md
R121, R124): legal operand values pass the checks on values, so the first region that runs past `MEM_BYTES` is reported;
with every region in bounds, the first forbidden pair that shares a byte is. -/

namespace Sys2Proof.Machine

/-! ### Legal operand values -/

theorem one_le_toNat {w : Nat} {x : BitVec w} : 1 ≤ x.toNat ↔ x ≠ 0 := by
  rw [Nat.one_le_iff_ne_zero, ne_eq, ne_eq, ← BitVec.toNat_inj]
  rfl

/-- The checks on a command's operand values pass exactly when those values are legal (R121). -/
theorem paramChecks_ok {c : Config} {i : Instr} :
    (∀ k ∈ paramChecks c i, k.ok = true) ↔ legalValues c i := by
  have hmax : ∀ x, x ≤ 2 ^ 32 - 1 ↔ x < 2 ^ 32 := fun x => Nat.le_sub_one_iff_lt (by decide)
  cases i <;>
    simp only [paramChecks, paramCheck, optionCheck, legalValues, List.forall_mem_cons, List.not_mem_nil,
      false_imp_iff, implies_true, and_true, decide_eq_true_eq, one_le_toNat, hmax]

/-! ### Regions -/

/-- The table of R53 lists the regions the command checks, in the same order. -/
theorem regionTable_eq (i : Instr) : regionTable i = (regionsOf i).map fun r => (r.wa, r.addr, r.len) := by
  cases i <;> rfl

/-- The word of the descriptor that the table names holds the region's address (R53). -/
theorem encodeWords_regionTable (i : Instr) :
    ∀ p ∈ regionTable i, ((encodeWords i).getD p.1 0).toNat = p.2.1 := by
  cases i <;> simp [regionTable, encodeWords, operandWords, split64]

/-- The address words of a command's regions ascend (R53). -/
theorem regionTable_ascending (i : Instr) : (regionTable i).Pairwise fun p q => p.1 < q.1 := by
  cases i <;> simp [regionTable]

/-- Every command but ROMIX and SCRYPT writes at most its first region, so no pair of its regions is forbidden (R40, R53). -/
theorem regionsOf_compatible {i : Instr} (hr : ∀ blk v n r, i ≠ .romix blk v n r)
    (hs : ∀ dst dkLen pwd pwdLen salt saltLen n r p work, i ≠ .scrypt dst dkLen pwd pwdLen salt saltLen n r p work) :
    (regionsOf i).Pairwise fun r q => ¬(r.exclusive q = true ∧ r.meets q = true) := by
  cases i
  case halt => exact .nil
  case nop => exact .nil
  case romix blk v n r => exact absurd rfl (hr blk v n r)
  case scrypt dst dkLen pwd pwdLen salt saltLen n r p work =>
    exact absurd rfl (hs dst dkLen pwd pwdLen salt saltLen n r p work)
  all_goals exact overlap_output_inputs rfl (by simp [region])

/-! ### The fault of a command's checks -/

/-- Checks that pass are not reported (R124). -/
theorem firstFailed_append_of_ok {pre ks : List Check} (h : ∀ k ∈ pre, k.ok = true) :
    firstFailed (pre ++ ks) = firstFailed ks := by
  induction pre with
  | nil => rfl
  | cons k pre ih =>
    obtain ⟨hk, hpre⟩ := List.forall_mem_cons.1 h
    rw [List.cons_append, firstFailed, if_pos hk, ih hpre]

theorem firstFailed_cons_of_not_ok {k : Check} {ks : List Check} (h : k.ok = false) :
    firstFailed (k :: ks) = some ⟨k.cause, k.info⟩ := by rw [firstFailed, h]; rfl

theorem boundsChecks_ok {n : Nat} {rs : List Region} (h : ∀ r ∈ rs, r.addr + r.len ≤ n) :
    ∀ k ∈ rs.map (boundsCheck n), k.ok = true := by simpa [boundsCheck] using h

/-- With legal values, the first region out of bounds is reported (R124). -/
theorem commandTrap_of_outOfBounds {c : Config} {i : Instr} {pre post : List Region} {r : Region}
    (hv : legalValues c i) (heq : regionsOf i = pre ++ r :: post)
    (hpre : ∀ q ∈ pre, q.addr + q.len ≤ c.memBytes) (hr : c.memBytes < r.addr + r.len) :
    commandTrap c i = some ⟨.bounds, BitVec.ofNat 32 r.wa⟩ := by
  have hfails : (boundsCheck c.memBytes r).ok = false := by simpa [boundsCheck] using hr
  rw [commandTrap, commandChecks, regionChecks, firstFailed_append_of_ok (paramChecks_ok.2 hv), heq, List.map_append,
    List.append_assoc, firstFailed_append_of_ok (boundsChecks_ok hpre), List.map_cons, List.cons_append,
    firstFailed_cons_of_not_ok hfails]
  rfl

/-- With legal values and every region in bounds, what is reported is the first forbidden overlap (R63, R124). -/
theorem commandTrap_of_inBounds {c : Config} {i : Instr} (hv : legalValues c i)
    (hb : ∀ r ∈ regionsOf i, r.addr + r.len ≤ c.memBytes) :
    commandTrap c i = firstFailed (overlapChecks (regionsOf i)) := by
  rw [commandTrap, commandChecks, regionChecks, firstFailed_append_of_ok (paramChecks_ok.2 hv),
    firstFailed_append_of_ok (boundsChecks_ok hb)]

theorem overlapCheck_ok {r q : Region} :
    (overlapCheck r q).ok = true ↔ ¬(r.exclusive q = true ∧ r.meets q = true) := by
  simp only [overlapCheck, Bool.not_eq_true', Bool.and_eq_true, ← Bool.not_eq_true]

/-- Where a scratch region follows regions that may overlap each other, the first of those that meets it is reported
(R40, R63). -/
theorem firstFailed_overlapChecks_scratch {pre post : List Region} {r w : Region} (hw : w.cls = .scratch)
    (hrs : (pre ++ r :: post).Pairwise fun r q => ¬(r.exclusive q = true ∧ r.meets q = true))
    (hpre : ∀ q ∈ pre, ¬q.meets w = true) (hm : r.meets w = true) :
    firstFailed (overlapChecks (pre ++ r :: post ++ [w])) =
      some ⟨.overlap, BitVec.ofNat 32 (r.wa ||| (w.wa <<< 8))⟩ := by
  induction pre with
  | nil =>
    obtain ⟨hr, -⟩ := List.pairwise_cons.1 hrs
    have hok : ∀ k ∈ post.map (overlapCheck r), k.ok = true :=
      List.forall_mem_map.2 fun q hq => overlapCheck_ok.2 (hr q hq)
    have hfails : (overlapCheck r w).ok = false := by simp [overlapCheck, Region.exclusive, hw, hm]
    rw [List.nil_append, List.cons_append, overlapChecks, List.map_append, List.append_assoc,
      firstFailed_append_of_ok hok, List.map_singleton, List.singleton_append, firstFailed_cons_of_not_ok hfails]
    rfl
  | cons q pre ih =>
    obtain ⟨hq, hrs⟩ := List.pairwise_cons.1 hrs
    obtain ⟨hqw, hpre⟩ := List.forall_mem_cons.1 hpre
    have hok : ∀ k ∈ (pre ++ r :: post ++ [w]).map (overlapCheck q), k.ok = true := by
      refine List.forall_mem_map.2 fun x hx => overlapCheck_ok.2 ?_
      rcases List.mem_append.1 hx with hx | hx
      · exact hq x hx
      · rw [List.mem_singleton.1 hx]
        exact fun h => hqw h.2
    exact (firstFailed_append_of_ok hok).trans (ih hrs hpre)

/-- A command whose last region is scratch faults with the first region that shares a byte with it (R40, R63). -/
theorem exec_overlap {i : Instr} {s : State} {pre post : List Region} {r w : Region} {info : Word}
    (hv : legalValues s.cfg i) (hb : ∀ r ∈ regionsOf i, r.addr + r.len ≤ s.cfg.memBytes)
    (heq : regionsOf i = pre ++ r :: post ++ [w]) (hw : w.cls = .scratch)
    (hrs : (pre ++ r :: post).Pairwise fun r q => ¬(r.exclusive q = true ∧ r.meets q = true))
    (hpre : ∀ q ∈ pre, ¬∃ a, inSpans [(q.addr, q.len)] a ∧ inSpans [(w.addr, w.len)] a)
    (hm : ∃ a, inSpans [(r.addr, r.len)] a ∧ inSpans [(w.addr, w.len)] a)
    (hinfo : BitVec.ofNat 32 (r.wa ||| (w.wa <<< 8)) = info) :
    exec i s = .next (s.faulted 7 info) := by
  subst hinfo
  refine exec_trap (t := ⟨.overlap, _⟩) ((commandTrap_of_inBounds hv hb).trans ?_)
  rw [heq]
  exact firstFailed_overlapChecks_scratch hw hrs (fun q hq => mt Region.meets_iff.1 (hpre q hq)) (Region.meets_iff.2 hm)

theorem paramChecks_cause {c : Config} {i : Instr} {k : Check} (hk : k ∈ paramChecks c i) : k.cause ≠ .overlap := by
  revert k
  cases i <;> simp [paramChecks, paramCheck, optionCheck]

/-- A command whose fault is an overlap has a forbidden pair of regions that share a byte. -/
theorem not_compatible_of_overlap {c : Config} {i : Instr} {t : Trap} (h : commandTrap c i = some t)
    (ht : t.cause = .overlap) :
    ¬(regionsOf i).Pairwise fun r q => ¬(r.exclusive q = true ∧ r.meets q = true) := by
  obtain ⟨pre, k, post, heq, -, hk, rfl⟩ := firstFailed_eq_some.1 h
  have hmem : k ∈ commandChecks c i := by simp [heq]
  simp only [commandChecks, regionChecks, List.mem_append, List.mem_map] at hmem
  rw [← overlapChecks_ok]
  rcases hmem with hmem | ⟨r, -, rfl⟩ | hmem
  · exact absurd ht (paramChecks_cause hmem)
  · cases ht
  · exact fun hall => by simp [hall k hmem] at hk

/-- Settles O10: the table of R53 is the list of regions the bounds checks run over. -/
theorem firstRegionOutOfBoundsFaults : Obligations.FirstRegionOutOfBoundsFaults := by
  intro i
  refine ⟨?_, regionTable_ascending i, ?_⟩
  · rw [le32s_encode]
    exact encodeWords_regionTable i
  · intro s before wa addr len after hv htable hbefore hout
    rw [regionTable_eq, List.map_eq_append_iff] at htable
    obtain ⟨pre, rest, hregions, rfl, hrest⟩ := htable
    obtain ⟨r, post, rfl, hr, -⟩ := List.map_eq_cons_iff.1 hrest
    cases hr
    exact exec_trap (commandTrap_of_outOfBounds hv hregions
      (fun q hq => hbefore _ (List.mem_map_of_mem hq)) hout)

/-- Settles O11: the scratch region comes last, and the first region that meets it is reported; no other command has a
forbidden pair. -/
theorem overlapFaults : Obligations.OverlapFaults := by
  refine ⟨?_, ?_, ?_⟩
  · intro s blk v n r hn hr hsize hblk hv hmeet
    have hb : ∀ q ∈ regionsOf (.romix blk v n r), q.addr + q.len ≤ s.cfg.memBytes := by
      simp [regionsOf, region, hblk, hv]
    exact exec_overlap (pre := []) (post := []) ⟨hn, hr, hsize⟩ hb rfl rfl (List.pairwise_singleton _ _) (by simp)
      hmeet (by simp [region])
  · intro s dst dkLen pwd pwdLen salt saltLen n r p work size meets hdk hn hr hp hsize hdst hpwd hsalt hwork
    have hlegal : legalValues s.cfg (.scrypt dst dkLen pwd pwdLen salt saltLen n r p work) := ⟨hdk, hn, hr, hp, hsize⟩
    have hb : ∀ q ∈ regionsOf (.scrypt dst dkLen pwd pwdLen salt saltLen n r p work),
        q.addr + q.len ≤ s.cfg.memBytes := by
      simpa [regionsOf, region] using ⟨hdst, hpwd, hsalt, hwork⟩
    have hrs := overlap_output_inputs (r := region 1 dst dkLen.toNat .output)
      (rs := [region 3 pwd pwdLen.toNat .input, region 5 salt saltLen.toNat .input]) rfl (by simp [region])
    refine ⟨fun h1 => ?_, fun h1 h3 => ?_, fun h1 h3 h5 => ?_⟩
    · exact exec_overlap (pre := []) (post := [_, _]) hlegal hb rfl rfl hrs (by simp) h1 (by simp [region])
    · exact exec_overlap (pre := [_]) (post := [_]) hlegal hb rfl rfl hrs (List.forall_mem_singleton.2 h1) h3
        (by simp [region])
    · exact exec_overlap (pre := [_, _]) (post := []) hlegal hb rfl rfl hrs
        (List.forall_mem_cons.2 ⟨h1, List.forall_mem_singleton.2 h3⟩) h5 (by simp [region])
  · intro c i t h ht
    by_contra hne
    simp only [not_or, not_exists] at hne
    exact not_compatible_of_overlap h ht (regionsOf_compatible hne.1 hne.2)

end Sys2Proof.Machine
end

section
/-! Unwritten bytes of `BM` (spec/20_memory.md R49, spec/10_state.md R28; log 10, log 21): an engine's read of one is the
model's fault, in a fetch and in a command's snapshot, and nothing else stops an engine step; a port read and a soft reset
are taken all the same, with free values. -/

namespace Sys2Proof.Machine

/-- Reading fails exactly where a byte of the region is unwritten. -/
theorem Memory.read_eq_none {m : Memory} {a n : Nat} :
    Memory.read m a n = none ↔ ∃ k, k < n ∧ Memory.get m (a + k) = none := by
  rw [← Option.not_isSome_iff_eq_none, Memory.read_isSome]
  simp

/-! ### The fetch -/

/-- A fetch at an address that is not a multiple of 64 faults, whatever its bounds (R61). -/
theorem fetchTrap_misaligned {s : State} (h : s.cp.toNat % 64 ≠ 0) : fetchTrap s = some ⟨.fetchAlign, s.cp⟩ := by
  simp [fetchTrap, firstFailed, h]

theorem fetchTrap_outOfBounds {s : State} (ha : s.cp.toNat % 64 = 0) (hb : s.cfg.memBytes < s.cp.toNat + 64) :
    fetchTrap s = some ⟨.fetchBounds, s.cp⟩ := by
  simp [fetchTrap, firstFailed, ha, hb]

theorem engineStep_of_fetchTrap {s : State} {t : Trap} (hm : s.mode = .running) (h : fetchTrap s = some t) :
    engineStep s = .next (s.raise t) := by
  simp [engineStep, hm, engineRun, h]

theorem withRead_of_none {s : State} {a : Word} {n : Nat} (k : List Byte → Result)
    (h : s.mem.read a.toNat n = none) : withRead s a n k = .fault .unwrittenByte := by simp [withRead, h]

/-- Settles O8: the fetch's checks come before its read. -/
theorem fetchFaults : Obligations.FetchFaults := by
  intro s hm hn
  rw [step_of_nil hn]
  refine ⟨fun ha => engineStep_of_fetchTrap hm (fetchTrap_misaligned ha),
    fun ha hb => engineStep_of_fetchTrap hm (fetchTrap_outOfBounds ha hb), fun ha hb hk => ?_⟩
  have hf : fetchTrap s = none := fetchTrap_eq_none.2 ⟨ha, hb⟩
  simp only [engineStep, hm, engineRun, hf]
  exact withRead_of_none _ (Memory.read_eq_none.2 hk)

/-! ### A command's snapshot -/

/-- A byte of these spans is unwritten. -/
def State.Lacks (s : State) (spans : List (Nat × Nat)) : Prop := ∃ a, inSpans spans a ∧ s.mem.get a = none

theorem State.not_lacks_nil (s : State) : ¬s.Lacks [] := by simp [State.Lacks, inSpans]

theorem State.lacks_cons {s : State} {a n : Nat} {spans : List (Nat × Nat)} :
    s.Lacks ((a, n) :: spans) ↔ s.mem.read a n = none ∨ s.Lacks spans := by
  rw [Memory.read_eq_none]
  constructor
  · rintro ⟨x, ⟨p, hp, h1, h2⟩, hx⟩
    rcases List.mem_cons.1 hp with rfl | hp
    · exact .inl ⟨x - a, by omega, by rwa [Nat.add_sub_cancel' h1]⟩
    · exact .inr ⟨x, ⟨p, hp, h1, h2⟩, hx⟩
  · rintro (⟨k, hk, hx⟩ | ⟨x, ⟨p, hp, h⟩, hx⟩)
    · exact ⟨a + k, ⟨_, List.mem_cons_self, Nat.le_add_right _ _, Nat.add_lt_add_left hk _⟩, hx⟩
    · exact ⟨x, ⟨p, List.mem_cons_of_mem _ hp, h⟩, hx⟩

/-- The answer is the model's fault exactly under this condition, and no refusal. -/
def StopsExactlyIf (p : Prop) (r : Result) : Prop := (r = .fault .unwrittenByte ↔ p) ∧ ∀ q, r ≠ .refused q

theorem StopsExactlyIf.next {p : Prop} (hp : ¬p) (t : State) : StopsExactlyIf p (.next t) :=
  ⟨⟨nofun, fun h => absurd h hp⟩, nofun⟩

/-- A body that reads no more completes. -/
theorem StopsExactlyIf.done {s t : State} : StopsExactlyIf (s.Lacks []) (.next t) := .next s.not_lacks_nil t

/-- A snapshot read adds its span to those that have to be written. -/
theorem StopsExactlyIf.read {s : State} {a : Word} {n : Nat} {spans : List (Nat × Nat)} {k : List Byte → Result}
    (h : ∀ bs, StopsExactlyIf (s.Lacks spans) (k bs)) :
    StopsExactlyIf (s.Lacks ((a.toNat, n) :: spans)) (withRead s a n k) := by
  cases hr : s.mem.read a.toNat n with
  | none =>
    rw [withRead_of_none _ hr]
    exact ⟨iff_of_true rfl (State.lacks_cons.2 (.inl hr)), nofun⟩
  | some bs =>
    rw [withRead_of_some _ hr]
    refine ⟨(h bs).1.trans ?_, (h bs).2⟩
    simp [State.lacks_cons, hr]

/-- A command whose checks fail takes their fault instead, which is a next state (R120). -/
theorem StopsExactlyIf.command {i : Instr} {s : State} {p : Prop} {r : Result}
    (h : StopsExactlyIf p r) : StopsExactlyIf (checksPass s.cfg i ∧ p) (command i s fun _ => r) := by
  rcases command_cases (i := i) (s := s) (body := fun _ => r) with ⟨t, ht, heq⟩ | ⟨hc, heq⟩ <;> rw [heq]
  · exact .next (fun hp => by simp [checksPass, ht] at hp) _
  · rwa [and_iff_right (show checksPass s.cfg i from hc)]

/-- Every command reads its input spans one after the other, and then completes. -/
theorem exec_stopsExactlyIf (i : Instr) (s : State) :
    StopsExactlyIf (checksPass s.cfg i ∧ s.Lacks (loadSpans i)) (exec i s) := by
  cases i with
  | halt => exact .next (fun h => s.not_lacks_nil h.2) _
  | nop => exact .next (fun h => s.not_lacks_nil h.2) _
  | sha256Iv dst => exact .command .done
  | sha256Compress dst state block => exact .command <| .read fun _ => .read fun _ => .done
  | sha256 dst src len => exact .command <| .read fun _ => .done
  | sha256d dst src len => exact .command <| .read fun _ => .done
  | sha512Iv dst => exact .command .done
  | sha512Compress dst state block => exact .command <| .read fun _ => .read fun _ => .done
  | sha512 dst src len => exact .command <| .read fun _ => .done
  | hmacSha256 dst key keyLen msg msgLen => exact .command <| .read fun _ => .read fun _ => .done
  | pbkdf2Sha256 dst dkLen pwd pwdLen salt saltLen iter => exact .command <| .read fun _ => .read fun _ => .done
  | salsaCore dst src => exact .command <| .read fun _ => .done
  | blockmix dst src r => exact .command <| .read fun _ => .done
  | romix blk v n r => exact .command <| .read fun _ => .done
  | scrypt dst dkLen pwd pwdLen salt saltLen n r p work => exact .command <| .read fun _ => .read fun _ => .done
  | permIv dst => exact .command .done
  | permCompress dst cv block ctr blen flags => exact .command <| .read fun _ => .read fun _ => .done
  | permHash dst src len => exact .command <| .read fun _ => .done
  | mineSha256d res hdr target start stop => exact .command <| .read fun _ => .read fun _ => .done
  | minePerm res data dlen diff start stop => exact .command <| .read fun _ => .done

/-- No engine step is refused: it faults, or a command answers. -/
theorem engineStep_ne_refused (s : State) (q : Refusal) : engineStep s ≠ .refused q := by
  unfold engineStep
  split
  · nofun
  · unfold engineRun
    split
    · nofun
    · rcases withRead_cases (s := s) (a := s.cp) (n := 64) (k := fun bs => runDescriptor bs s)
        with ⟨-, heq⟩ | ⟨bs, -, -, heq⟩ <;> rw [heq]
      · nofun
      · unfold runDescriptor
        split
        · nofun
        · exact (exec_stopsExactlyIf _ s).2 q

/-- Settles O13: what a command answers is settled by its checks and its reads alone. -/
theorem onlyUnwrittenBytesStopACommand : Obligations.OnlyUnwrittenBytesStopACommand :=
  ⟨fun i s => (exec_stopsExactlyIf i s).1, fun s q hn => step_of_nil hn ▸ engineStep_ne_refused s q⟩

/-! ### The count of the occasions on which unwritten bytes may change -/

theorem engineStep_bmEpoch {s t : State} (h : engineStep s = .next t) : t.bmEpoch = s.bmEpoch := by
  rcases engineStep_next h with ⟨-, rfl⟩ | ⟨-, tr, -, rfl⟩ | ⟨-, -, bs, -, ⟨e, -, rfl⟩ | ⟨i, -, he⟩⟩
  · rfl
  · rfl
  · rfl
  · rcases exec_next he with ⟨tr, -, rfl⟩ | ⟨-, hcomp⟩
    · rfl
    · obtain ⟨-, -, -, -, -, hepoch⟩ := hcomp.kept
      exact hepoch

/-- A soft reset of a running block that fetches an unwritten byte makes every written byte free (log 10). -/
theorem softReset_of_unknown {s : State} (hm : s.mode = .running) (hi : interruptedRegions s = none) :
    softReset s = (scrambleAll s).clearRegisters := by
  simp [softReset, hm, abandon, hi]

/-- Any other soft reset keeps the count. -/
theorem softReset_bmEpoch_of_known {s : State} (h : ¬(s.mode = .running ∧ interruptedRegions s = none)) :
    (softReset s).bmEpoch = s.bmEpoch := by
  cases hm : s.mode with
  | idle => simp [softReset, hm]
  | running =>
    rcases abandon_cases s with ⟨rs, -, heq⟩ | ⟨hi, -⟩
    · simp [softReset, hm, heq]
    · exact absurd ⟨hm, hi⟩ h

/-- The fetch of an unknown command reads an unwritten byte. -/
theorem unwritten_of_unknown {s : State} (h : interruptedRegions s = none) :
    ∃ k, k < 64 ∧ s.mem.get (s.cp.toNat + k) = none := Memory.read_eq_none.1 (interruptedRegions_eq_none.1 h).2

/-- A register write changes the count only as a soft reset of a running block whose command is unknown. -/
theorem writeReg_bmEpoch (s : State) (v : Word) (r : Reg) :
    (writeReg s v r).bmEpoch = s.bmEpoch ∨
    ((writeReg s v r).bmEpoch = s.bmEpoch + 1 ∧ r = .ctrl ∧ v.getLsbD 2 = true ∧ s.mode = .running ∧
      interruptedRegions s = none) := by
  rcases writeReg_cases s v r with ⟨hr, hv, heq⟩ | ⟨-, -, heq⟩ | ⟨-, heq⟩ | ⟨-, heq⟩ | ⟨-, -, -, heq⟩ <;> rw [heq]
  · by_cases h : s.mode = .running ∧ interruptedRegions s = none
    · exact .inr ⟨by rw [softReset_of_unknown h.1 h.2]; rfl, hr, hv, h⟩
    · exact .inl (softReset_bmEpoch_of_known h)
  · left; split <;> simp
  · exact .inl rfl
  · exact .inl rfl
  · exact .inl rfl

/-- A host write changes the count only as a `CTRL` write with `SRST` (R132). -/
theorem hostWrite_bmEpoch {s t : State} {addr width : Nat} {v : Word} (h : hostWrite s addr width v = .next t) :
    t.bmEpoch = s.bmEpoch ∨
    (t.bmEpoch = s.bmEpoch + 1 ∧ addr = s.cfg.regBase + 0x0C ∧ width = 4 ∧ v.getLsbD 2 = true ∧ s.mode = .running ∧
      interruptedRegions s = none) := by
  rcases hostWrite_next h with ⟨hw, h1, h2, -, rfl⟩ | ⟨-, -, -, -, rfl⟩
  · refine (writeReg_bmEpoch s v _).imp_right ?_
    rintro ⟨hepoch, hreg, hv, hrun⟩
    have := eq_of_regAt_ctrl (by omega) hreg
    exact ⟨hepoch, by omega, hw, hv, hrun⟩
  · exact .inl rfl

/-! ### Free values -/

/-- A port read of an unwritten byte answers the free value of its address and the count (log 21). -/
theorem hostRead_port_unwritten {s : State} {a : Nat} (ho : s.cfg.hostOrdered = true) (hc : s.cfg.wf = true)
    (hm : s.mode = .idle) (ha : a < s.cfg.memBytes) (hb : s.mem.get a = none) :
    hostRead s (s.cfg.hostBmBase + a) 1 = .next (s.answer ((Config.unwrittenByte s.bmEpoch a).setWidth 32)) := by
  rw [hostRead_port ho hc hm ha, portByte, hb]

/-- Settles O43: of the moves, only a power-on reset and a soft reset of an unknown command advance the count, and the latter
redraws `BM`. -/
theorem unwrittenBytesAreFree : Obligations.UnwrittenBytesAreFree := by
  refine ⟨fun s ms a ho hc hm ha hb => ?_, fun s t h => ?_, fun s ms v ho hv hm ha hb hk => ?_⟩
  · exact (step_read s ms _ _).trans (hostRead_port_unwritten (s := { s with moves := ms }) ho hc hm ha hb)
  · rcases step_next h with ⟨-, he⟩ | ⟨ms, hmoves, rfl⟩ | ⟨a, w, ms, -, v, rfl⟩ | ⟨a, w, v, ms, hmoves, hw⟩
    · exact .inl (engineStep_bmEpoch (s := { s with moves := s.moves.tail }) he)
    · exact .inr ⟨rfl, .inl ⟨ms, hmoves⟩⟩
    · exact .inl rfl
    · refine (hostWrite_bmEpoch hw).imp_right ?_
      rintro ⟨hepoch, rfl, rfl, hv, hm, hi⟩
      exact ⟨hepoch, .inr ⟨hm, unwritten_of_unknown hi, v, ms, hmoves, hv⟩⟩
  · have hi : interruptedRegions { s with moves := ms } = none :=
      interruptedRegions_eq_none.2 ⟨fetchTrap_eq_none.2 ⟨ha, hb⟩, Memory.read_eq_none.2 hk⟩
    have hstep := step_writeWindow (ms := ms) (off := 0x0C) v ho (by decide) (by decide)
    rw [show regAt 0x0C = .ctrl from rfl, writeReg_ctrl_srst _ hv, softReset_of_unknown (by exact hm) hi] at hstep
    obtain ⟨draw, hinj, hget⟩ := Memory.get_redraw s.mem s.freeCtr
    exact ⟨_, hstep, rfl, fun a => (hget a).1, draw, hinj, fun a => (hget a).2⟩

end Sys2Proof.Machine
end

section
/-! Descriptors (spec/30_encoding.md): decoding and encoding are inverse to each other, each check of R62 reports its fault in
its order, and the assembler makes every command from its mnemonic and its numbers (R58, R59). -/

namespace Sys2Proof.Machine

/-! ### The opcode and the operand words of a command -/

/-- Every opcode lies in one of the ranges that R55 assigns. -/
theorem opcodeOf_assigned (i : Instr) :
    (0x01 ≤ (opcodeOf i).toNat ∧ (opcodeOf i).toNat ≤ 0x02) ∨ (0x10 ≤ (opcodeOf i).toNat ∧ (opcodeOf i).toNat ≤ 0x13) ∨
    (0x18 ≤ (opcodeOf i).toNat ∧ (opcodeOf i).toNat ≤ 0x1A) ∨ (0x20 ≤ (opcodeOf i).toNat ∧ (opcodeOf i).toNat ≤ 0x21) ∨
    (0x28 ≤ (opcodeOf i).toNat ∧ (opcodeOf i).toNat ≤ 0x2B) ∨ (0x30 ≤ (opcodeOf i).toNat ∧ (opcodeOf i).toNat ≤ 0x32) ∨
    (0x40 ≤ (opcodeOf i).toNat ∧ (opcodeOf i).toNat ≤ 0x41) := by
  cases i <;> simp [opcodeOf]

/-- An opcode word has nothing above its low byte (R51). -/
theorem opcodeOf_lt (i : Instr) : (opcodeOf i).toNat < 256 := by
  have := opcodeOf_assigned i
  omega

/-- The commands of the option are those of three opcodes (R56). -/
theorem needsSha512_iff (i : Instr) :
    i.needsSha512 = true ↔ 0x18 ≤ (opcodeOf i).toNat ∧ (opcodeOf i).toNat ≤ 0x1A := by
  cases i <;> simp [Instr.needsSha512, opcodeOf]

/-- A block lacks a command exactly where the command needs the option and the block is without it (R56). -/
theorem wf_eq_false_iff {c : Config} {i : Instr} :
    i.wf c = false ↔ c.hasSha512 = false ∧ 0x18 ≤ (opcodeOf i).toNat ∧ (opcodeOf i).toNat ≤ 0x1A := by
  rw [← needsSha512_iff, and_comm]
  simp [Instr.wf]

/-- An assigned opcode makes a command of as many operand words as the table of R53 gives it. -/
theorem commandOf_of_usedWordCount {op n : Nat} (w : Nat → Word) (h : usedWordCount op = some n) :
    ∃ i, commandOf op w = some i ∧ (operandWords i).length = n := by
  unfold usedWordCount at h
  split at h <;> cases h <;> exact ⟨_, rfl, rfl⟩

/-- A command's opcode and descriptor words make that command (R53). -/
theorem commandOf_encodeWords (i : Instr) :
    commandOf (opcodeOf i).toNat (fun k => (encodeWords i).getD k 0) = some i := by
  cases i <;> simp [opcodeOf, commandOf, encodeWords, operandWords, split64]

@[simp] theorem encodeWords_getD_zero (i : Instr) : (encodeWords i).getD 0 0 = opcodeOf i := rfl

/-- Every word after the operands is 0 (R54). -/
theorem encodeWords_getD_unused {i : Instr} {k : Nat} (hk : (operandWords i).length < k) :
    (encodeWords i).getD k 0 = 0 := by
  rw [encodeWords, List.getD_append_right _ _ _ _ (by simpa using hk), List.getD_eq_getElem?_getD,
    List.getElem?_getD_replicate_default_eq]

/-- The operands stand from word 1 on (R53). -/
theorem encodeWords_operands (i : Instr) :
    ((encodeWords i).drop 1).take (operandWords i).length = operandWords i := by
  simp [encodeWords]

/-! ### The checks of a decode, in the order of R62 -/

/-- The opcode is the low byte of word 0 (R51). -/
theorem toNat_lowByte (w : Word) : (w.extractLsb' 0 8).toNat = w.toNat % 256 := by
  simp [BitVec.extractLsb'_toNat]

/-- The reserved bits of word 0 are 0 exactly below 256 (R51). -/
theorem reservedBits_eq_zero_iff {w : Word} : w.extractLsb' 8 24 = 0 ↔ w.toNat < 256 := by
  have := w.isLt
  rw [← BitVec.toNat_inj, BitVec.extractLsb'_toNat, Nat.shiftRight_eq_div_pow, show (0 : BitVec 24).toNat = 0 from rfl]
  omega

/-- The first unused word that is not 0 is the one reported (R54). -/
theorem firstNonzero_eq_some {ws : List Word} {first k : Nat} (h1 : first ≤ k) (h2 : k ≤ 15) (h3 : ws.getD k 0 ≠ 0)
    (h4 : ∀ j, first ≤ j → j < k → ws.getD j 0 = 0) : firstNonzero ws first = some k := by
  rw [firstNonzero, List.find?_range_eq_some]
  refine ⟨by simpa [h1] using h3, by simp; omega, fun j hj => ?_⟩
  by_cases hf : first ≤ j
  · rw [h4 j hf hj]
    simp
  · simp [hf]

section
variable {c : Config} {ws : List Word} {i : Instr}

/-- Where the opcode is no command's of the block, it is the error (R56). -/
theorem decodeWords_of_illegal
    (h : ∀ i, commandOf ((ws.getD 0 0).toNat % 256) (fun k => ws.getD k 0) = some i → i.wf c = false) :
    decodeWords c ws = .error (.opcode ((ws.getD 0 0).extractLsb' 0 8)) := by
  rw [← toNat_lowByte] at h
  simp only [decodeWords]
  split
  · rfl
  · rename_i i hi
    rw [h i hi]
    rfl

/-- Under the opcode of a command of the block, the reserved bits are checked, and then the unused words (R51, R54). -/
theorem decodeWords_of_commandOf
    (hi : commandOf ((ws.getD 0 0).toNat % 256) (fun k => ws.getD k 0) = some i) (hwf : i.wf c = true) :
    decodeWords c ws = if 256 ≤ (ws.getD 0 0).toNat then .error (.reserved 0) else
      (firstNonzero ws ((operandWords i).length + 1)).elim (.ok i) (.error <| .reserved ·) := by
  rw [← toNat_lowByte] at hi
  have h8 : ((ws.getD 0 0).extractLsb' 8 24 != 0) = decide (256 ≤ (ws.getD 0 0).toNat) := by
    simp only [← Nat.not_lt, ← reservedBits_eq_zero_iff, bne, decide_not]
    rfl
  simp only [decodeWords, hi, hwf, h8, Bool.not_true, Bool.false_eq_true, if_false, decide_eq_true_eq]
  cases firstNonzero ws ((operandWords i).length + 1) <;> rfl

end

/-- A command that the block has decodes from its own descriptor. -/
theorem decode_encode {c : Config} {i : Instr} (h : i.wf c = true) : decode c (encode i) = .ok i := by
  have hcommand : commandOf (((encodeWords i).getD 0 0).toNat % 256) (fun k => (encodeWords i).getD k 0) = some i := by
    rw [encodeWords_getD_zero, Nat.mod_eq_of_lt (opcodeOf_lt i), commandOf_encodeWords]
  have hlow : ¬256 ≤ ((encodeWords i).getD 0 0).toNat := Nat.not_le.2 (opcodeOf_lt i)
  have hunused : firstNonzero (encodeWords i) ((operandWords i).length + 1) = none :=
    firstNonzero_eq_none.2 fun _ hk _ => encodeWords_getD_unused hk
  rw [decode_of_length c (encode_length i), le32s_encode,
    decodeWords_of_commandOf hcommand h, if_neg hlow, hunused, Option.elim_none]

/-- What decodes is a command that the block has. -/
theorem wf_of_decode {c : Config} {bs : List Byte} {i : Instr} (h : decode c bs = .ok i) : i.wf c = true := by
  obtain rfl := eq_encode_of_decode h
  rw [decode_of_length c (encode_length i)] at h
  obtain ⟨hwf, -⟩ := decodeWords_eq_ok h
  exact hwf

/-- Settles O1: the opcode and the operand words give the command back, and every other bit is 0. -/
theorem decodeOfEncode : Obligations.DecodeOfEncode := fun _ _ => decode_encode

/-- Settles O2: a decode that succeeds has checked every bit of the descriptor, and that the block has the command. -/
theorem encodeOfDecode : Obligations.EncodeOfDecode := fun _ _ _ h => ⟨eq_encode_of_decode h, wf_of_decode h⟩

/-- Settles O3: the bytes written out are the encodings of the commands. -/
theorem writtenDescriptorsDecode : Obligations.WrittenDescriptorsDecode :=
  ⟨decode_encode (i := .halt) rfl,
    decode_encode (i := .sha256 0x2000 0x1000 3) rfl,
    decode_encode (i := .romix 0x100 0x4000 16 1) rfl,
    decode_encode (i := .permCompress 0x300 0x100 0x200 0x9ABCDEF012345678 64 0x0B) rfl,
    decode_encode (i := .minePerm 0x2020 0x10C0 3 8 5 0x100001388) rfl⟩

/-! ### The step on a fetched descriptor -/

/-- Settles O4: a command's opcode lies in an assigned range, and the block lacks those of the option. -/
theorem illegalOpcodeFaults : Obligations.IllegalOpcodeFaults := by
  rintro s ws _ hf rfl hop
  have hillegal : ∀ i, commandOf ((ws.getD 0 0).toNat % 256) (fun k => ws.getD k 0) = some i → i.wf s.cfg = false := by
    intro i hi
    obtain ⟨heq, -⟩ := commandOf_eq_some hi
    have hassigned := opcodeOf_assigned i
    rw [wf_eq_false_iff]
    rw [heq] at hassigned ⊢
    by_contra hhas
    simp only [hhas, or_false] at hop
    omega
  rw [hf.step_error (decodeWords_of_illegal hillegal), State.raise_eq_faulted, ← toNat_lowByte, BitVec.ofNat_toNat]
  rfl

/-- Settles O5: each clause is one of the ways a decode under a legal opcode goes on. -/
theorem reservedBitsFault : Obligations.ReservedBitsFault := by
  intro s ws used hf hused hoption
  obtain ⟨i, hi, rfl⟩ := commandOf_of_usedWordCount (fun k => ws.getD k 0) hused
  have hwf : i.wf s.cfg = true := by
    obtain ⟨heq, -⟩ := commandOf_eq_some hi
    rw [← Bool.not_eq_false, wf_eq_false_iff, heq]
    exact hoption
  have hd := decodeWords_of_commandOf hi hwf
  refine ⟨fun h => ?_, fun k h hk hk15 hne hzero => ?_, fun h hzero => ⟨i, ?_⟩⟩
  · rw [if_pos h] at hd
    exact hf.step_error hd
  · rw [if_neg (Nat.not_le.2 h), firstNonzero_eq_some hk hk15 hne hzero] at hd
    exact hf.step_error hd
  · rw [if_neg (Nat.not_le.2 h), firstNonzero_eq_none.2 hzero] at hd
    have hlen : ws.length = 16 := by
      obtain ⟨bs, -, rfl⟩ := Option.map_eq_some_iff.1 hf.words
      simp
    obtain rfl := encodeWords_of_decodeWords hlen hd
    exact ⟨(encodeWords_operands i).symm, rfl, hf.step_ok hd⟩

/-! ### The assembler -/

/-- The number of an operand fits it. -/
@[simp] theorem asmOperand_toNat {w : Nat} (v : BitVec w) : asmOperand w v.toNat = some v := by
  simp [asmOperand, v.isLt]

@[simp] theorem asmWords_map_toNat (ws : List Word) : asmWords (ws.map (·.toNat)) = some ws := by
  induction ws with
  | nil => rfl
  | cons w ws ih => simp [asmWords, ih]

/-- Two commands have 64-bit operands; every other mnemonic takes words alone (R58). -/
theorem assembleCommand_words {m : String} (h1 : m ≠ "PERM_COMPRESS") (h2 : m ≠ "MINE_PERM") (ws : List Word) :
    assembleCommand m (ws.map (·.toNat)) = asmPlain m ws := by
  unfold assembleCommand
  split
  · exact absurd rfl h1
  · exact absurd rfl h2
  · rw [asmWords_map_toNat]

/-- The words' arm of a mnemonic makes the command that has it (R55). -/
theorem asmPlain_mnemonicOf {i : Instr} (h1 : mnemonicOf i ≠ "PERM_COMPRESS") (h2 : mnemonicOf i ≠ "MINE_PERM") :
    asmPlain (mnemonicOf i) (operandWords i) = some i := by
  cases i
  case permCompress => exact absurd rfl h1
  case minePerm => exact absurd rfl h2
  all_goals rfl

theorem assembleCommand_mnemonicOf {i : Instr} (h1 : mnemonicOf i ≠ "PERM_COMPRESS") (h2 : mnemonicOf i ≠ "MINE_PERM") :
    assembleCommand (mnemonicOf i) ((operandWords i).map (·.toNat)) = some i := by
  rw [assembleCommand_words h1 h2, asmPlain_mnemonicOf h1 h2]

theorem assembleCommand_permCompress (dst cv block : Word) (ctr : Word64) (blen flags : Word) :
    assembleCommand "PERM_COMPRESS" [dst.toNat, cv.toNat, block.toNat, ctr.toNat, blen.toNat, flags.toNat] =
      some (.permCompress dst cv block ctr blen flags) := by
  have hwords : asmWords [dst.toNat, cv.toNat, block.toNat, blen.toNat, flags.toNat] =
      some [dst, cv, block, blen, flags] := asmWords_map_toNat [dst, cv, block, blen, flags]
  simp [assembleCommand, hwords]

theorem assembleCommand_minePerm (res data dlen diff : Word) (start stop : Word64) :
    assembleCommand "MINE_PERM" [res.toNat, data.toNat, dlen.toNat, diff.toNat, start.toNat, stop.toNat] =
      some (.minePerm res data dlen diff start stop) := by
  have hwords : asmWords [res.toNat, data.toNat, dlen.toNat, diff.toNat] = some [res, data, dlen, diff] :=
    asmWords_map_toNat [res, data, dlen, diff]
  simp [assembleCommand, hwords]

/-- Settles O6: the two commands with 64-bit operands have an arm each, and every other command is a mnemonic and words. -/
theorem assemblerMakesTheCommand : Obligations.AssemblerMakesTheCommand := by
  constructor
  · intro i
    cases i with
    | permCompress dst cv block ctr blen flags => exact assembleCommand_permCompress dst cv block ctr blen flags
    | minePerm res data dlen diff start stop => exact assembleCommand_minePerm res data dlen diff start stop
    | _ => exact assembleCommand_mnemonicOf (by simp [mnemonicOf]) (by simp [mnemonicOf])
  · intro dst src len n r p work
    rw [assembleCommand_words (by simp) (by simp)]
    rfl

end Sys2Proof.Machine
end

section
/-! A command list (spec/40_control.md R60 to R69): a step runs the command at `CP`, moves `CP` past it without wrapping or
ends the list, and so the list ends before `CP` can pass the top of `BM`; a START write resumes it after a fault
(spec/60_exceptions.md R127). -/

namespace Sys2Proof.Machine

/-! ### One descriptor -/

theorem step_engine (s : State) (ms : List Move) :
    step { s with moves := .engine :: ms } = engineStep { s with moves := ms } := rfl

/-- Settles O7: with no pending move, and with an engine move taken off the list, the step is the engine's. -/
theorem stepRunsDecodedCommand : Obligations.StepRunsDecodedCommand := by
  intro s bs i hm ha hb hr hd
  have hf : fetchTrap s = none := fetchTrap_eq_none.2 ⟨ha, hb⟩
  exact ⟨fun hn => (step_of_nil hn).trans (engineStep_of_decode hm hf hr hd),
    fun ms => (step_engine s ms).trans (engineStep_of_decode (s := { s with moves := ms }) hm hf hr hd)⟩

/-- Settles O16: neither command has a check or an operand, so each is its effect by definition. -/
theorem haltAndNopComplete : Obligations.HaltAndNopComplete := fun _ => ⟨rfl, rfl⟩

/-! ### `CP` along a list -/

/-- `MEM_BYTES` is a whole number of descriptors, and no more than half the words' range (R5). -/
theorem Config.memBytes_bounds {c : Config} (h : c.wf = true) : c.memBytes % 64 = 0 ∧ c.memBytes ≤ 2 ^ 31 := by
  simp only [Config.wf, Config.memBytesOk, Bool.and_eq_true, decide_eq_true_eq, beq_iff_eq] at h
  omega

/-- `CP` moves past a descriptor that lies inside `BM` without wrapping (R66). -/
theorem toNat_cp_add {s : State} (hc : s.cfg.wf = true) (hb : s.cp.toNat + 64 ≤ s.cfg.memBytes) :
    (s.cp + 64).toNat = s.cp.toNat + 64 := by
  obtain ⟨-, hle⟩ := Config.memBytes_bounds hc
  exact BitVec.toNat_add_of_lt (show s.cp.toNat + 64 < 2 ^ 32 by omega)

/-- A running engine's step with a next state takes a fault, or completes a command and moves `CP` past its descriptor,
which lies inside `BM`. -/
theorem engineStep_cp {s t : State} (hc : s.cfg.wf = true) (hm : s.mode = .running) (h : engineStep s = .next t) :
    (∃ tr, t = s.raise tr) ∨
      (t.errCause = s.errCause ∧ t.cp.toNat = s.cp.toNat + 64 ∧ t.cp.toNat ≤ s.cfg.memBytes) := by
  rcases engineStep_running hm h with ⟨tr, rfl⟩ | ⟨hf, _, _, -, -, -, hcomp⟩
  · exact .inl ⟨tr, rfl⟩
  · obtain ⟨-, hb⟩ := fetchTrap_eq_none.1 hf
    obtain ⟨hcause, -, hcp⟩ := hcomp.report
    have hcp' : t.cp.toNat = s.cp.toNat + 64 := hcp ▸ toNat_cp_add hc hb
    exact .inr ⟨hcause, hcp', by omega⟩

/-- Settles O15: a fault keeps `CP`, a completion moves it by 64 inside `BM`, and the fetch at the top is out of bounds. -/
theorem commandPointerNeverWraps : Obligations.CommandPointerNeverWraps := by
  intro s t hc hclean hm hn h
  rw [step_of_nil hn] at h
  obtain ⟨hmod, hmax⟩ := Config.memBytes_bounds hc
  refine ⟨?_, fun htop => ?_⟩
  · rcases engineStep_cp hc hm h with ⟨tr, rfl⟩ | ⟨hcause, hcp, hle⟩
    · exact .inl ⟨Cause.code_ne_zero tr.cause, rfl⟩
    · obtain ⟨-, h0, -⟩ := hclean hm
      exact .inr ⟨hcause.trans h0, hcp, hle, hle.trans hmax⟩
  · have hf : fetchTrap s = some ⟨.fetchBounds, s.cp⟩ := fetchTrap_outOfBounds (by omega) (by omega)
    rw [engineStep_of_fetchTrap hm hf] at h
    cases h
    rfl

/-! ### The end of a list -/

theorem engineStep_moves {s t : State} (hm : s.mode = .running) (h : engineStep s = .next t) : t.moves = s.moves := by
  rcases engineStep_running hm h with ⟨tr, rfl⟩ | ⟨-, _, _, -, -, -, hcomp⟩
  · rfl
  · obtain ⟨-, -, hmoves, -⟩ := hcomp.kept
    exact hmoves

/-- A running engine's step reads an unwritten byte, ends the list, or goes on with the next descriptor inside `BM`. -/
theorem engineStep_ends_or_goes_on {s : State} (hc : s.cfg.wf = true) (hm : s.mode = .running) :
    engineStep s = .fault .unwrittenByte ∨
      ∃ t, engineStep s = .next t ∧ ((t.mode = .idle ∧ t.done = true) ∨
        (t.mode = .running ∧ t.cp.toNat = s.cp.toNat + 64 ∧ t.cp.toNat ≤ s.cfg.memBytes)) := by
  cases h : engineStep s with
  | fault f => exact .inl rfl
  | refused q => exact absurd h (engineStep_ne_refused s q)
  | next t =>
    refine .inr ⟨t, rfl, ?_⟩
    cases ht : t.mode with
    | idle =>
      obtain ⟨hdone, -⟩ := engineStep_stop hm h ht
      exact .inl ⟨rfl, hdone⟩
    | running =>
      rcases engineStep_cp hc hm h with ⟨tr, rfl⟩ | ⟨-, hcp, hle⟩
      · cases ht
      · exact .inr ⟨rfl, hcp, hle⟩

/-- The run ended with the list stopped (R65), or at an unwritten byte (R49). -/
def ListEnded (r : Result) : Prop :=
  (∃ t, r = .next t ∧ t.mode = .idle ∧ t.done = true) ∨ r = .fault .unwrittenByte

/-- `n + 1` steps end a list that has room for at most `n` more descriptors below the top of `BM`: every step that does
not end it uses one of them up. -/
theorem run_listEnded {n : Nat} {s : State} (hc : s.cfg.wf = true) (hm : s.mode = .running) (hn : s.moves = [])
    (hroom : s.cfg.memBytes < s.cp.toNat + 64 * (n + 1)) : ListEnded (core.run (n + 1) s) := by
  induction n generalizing s with
  | zero =>
    rcases engineStep_ends_or_goes_on hc hm with h | ⟨t, h, ⟨hidle, hdone⟩ | ⟨-, hcp, hle⟩⟩
    · exact .inr (run_of_fault ((step_of_nil hn).trans h) 0)
    · exact .inl ⟨t, run_of_next ((step_of_nil hn).trans h) 0, hidle, hdone⟩
    · omega
  | succ n ih =>
    rcases engineStep_ends_or_goes_on hc hm with h | ⟨t, h, ht⟩
    · exact .inr (run_of_fault ((step_of_nil hn).trans h) _)
    · have hmoves : t.moves = [] := (engineStep_moves hm h).trans hn
      have hcfg : t.cfg = s.cfg := engineStep_cfg h
      rw [run_of_next ((step_of_nil hn).trans h)]
      rcases ht with ⟨hidle, hdone⟩ | ⟨hrun, hcp, -⟩
      · exact .inl ⟨t, run_of_idle hidle hmoves _, hidle, hdone⟩
      · exact ih (hcfg ▸ hc) hrun hmoves (by rw [hcfg, hcp]; omega)

/-- Settles O14: `(MEM_BYTES - cp) / 64` is the room the list has. -/
theorem listStopsInTime : Obligations.ListStopsInTime := fun _ hc hm hn => run_listEnded hc hm hn (by omega)

/-! ### Resuming after a fault -/

/-- Settles O37: the write takes `IE` at the value it has, and starts. -/
theorem startResumesAfterFault : Obligations.StartResumesAfterFault := by
  intro s code info ho hm hclean hn
  have bits : ∀ b : Bool, (if b then 3 else 1 : Word).getLsbD 0 = true ∧ (if b then 3 else 1 : Word).getLsbD 1 = b ∧
      (if b then 3 else 1 : Word).getLsbD 2 = false := by decide
  obtain ⟨h0, h1, h2⟩ := bits s.ie
  obtain ⟨hstart, -⟩ := controlWriteStarts (s.faulted code info) [] _ ho h2
  refine (hstart h0 rfl).trans (congrArg _ ?_)
  rw [h1]
  obtain ⟨hd, hc, hi⟩ := hclean hm
  cases s
  simp_all [State.faulted]

end Sys2Proof.Machine
end

section
/-! SHA-2 (spec/41_sha2.md): the constant tables (R72, R73, R82, R83), the compression as the loop of R74 and R84, the padding
(R75, R85), the chain of blocks (R76, R85), and the commands (R77 to R80, R86 to R88, with R110's `PERM_IV`). What holds for
both word widths is proved once, for every `Sha2 w`. -/

namespace Sys2Proof.Machine

/-! ### The constant tables -/

/-- The first 80 primes, from which R72, R73, R82 and R83 take their tables. -/
def firstPrimes : List Nat :=
  [2, 3, 5, 7, 11, 13, 17, 19, 23, 29, 31, 37, 41, 43, 47, 53, 59, 61, 67, 71]
    ++ [73, 79, 83, 89, 97, 101, 103, 107, 109, 113, 127, 131, 137, 139, 149, 151, 157, 163, 167, 173]
    ++ [179, 181, 191, 193, 197, 199, 211, 223, 227, 229, 233, 239, 241, 251, 257, 263, 269, 271, 277, 281]
    ++ [283, 293, 307, 311, 313, 317, 331, 337, 347, 349, 353, 359, 367, 373, 379, 383, 389, 397, 401, 409]

theorem filter_prime_eq_firstPrimes :
    ((List.range 410).filter fun p => 2 ≤ p && (List.range p).all fun d => d < 2 || p % d != 0) = firstPrimes := by
  decide +kernel

/-- `c` is the first `w` fraction bits of the `e`-th root of `p`: with the root's whole part `r` before it, it is the root of
`p * 2^(e*w)` rounded down. The roots of the tables are below 8. -/
def FractionBits (e p : Nat) {w : Nat} (c : BitVec w) : Prop :=
  ∃ r < 8, (r * 2 ^ w + c.toNat) ^ e ≤ p * 2 ^ (e * w) ∧ p * 2 ^ (e * w) < (r * 2 ^ w + c.toNat + 1) ^ e

theorem FractionBits.exists_root {e p w : Nat} {c : BitVec w} (h : FractionBits e p c) :
    ∃ n, n ^ e ≤ p * 2 ^ (e * w) ∧ p * 2 ^ (e * w) < (n + 1) ^ e ∧ c.toNat = n % 2 ^ w := by
  obtain ⟨r, -, hle, hlt⟩ := h
  exact ⟨_, hle, hlt, by rw [Nat.mul_add_mod_self_right, Nat.mod_eq_of_lt c.isLt]⟩

theorem k256_fractionBits : ∀ k < 64, FractionBits 3 (firstPrimes.getD k 0) (k256.getD k 0) := by
  unfold FractionBits
  decide +kernel

theorem k512_fractionBits : ∀ k < 80, FractionBits 3 (firstPrimes.getD k 0) (k512.getD k 0) := by
  unfold FractionBits
  decide +kernel

theorem h256_fractionBits : ∀ k < 8, FractionBits 2 (firstPrimes.getD k 0) (h256.getD k 0) := by
  unfold FractionBits
  decide +kernel

theorem h512_fractionBits : ∀ k < 8, FractionBits 2 (firstPrimes.getD k 0) (h512.getD k 0) := by
  unfold FractionBits
  decide +kernel

/-- Settles O44: each entry, with the whole part of its root before it, is the root rounded down. -/
theorem constantTables : Obligations.ConstantTables := by
  rw [Obligations.ConstantTables, filter_prime_eq_firstPrimes]
  exact ⟨rfl, rfl, rfl, rfl, rfl, fun k hk => (k256_fractionBits k hk).exists_root,
    fun k hk => (k512_fractionBits k hk).exists_root, fun k hk => (h256_fractionBits k hk).exists_root,
    fun k hk => (h512_fractionBits k hk).exists_root⟩

/-! ### Folds as sequences -/

/-- A fold is the end of any sequence that takes one of its steps per entry. -/
theorem foldl_eq_of_steps {α β : Type} {f : β → α → β} {x : Nat → β} (l : List α)
    (step : ∀ t (ht : t < l.length), x (t + 1) = f (x t) l[t]) : l.foldl f (x 0) = x l.length := by
  induction l generalizing x with
  | nil => rfl
  | cons a l ih =>
    have hfirst : x 1 = f (x 0) a := step 0 (by simp)
    rw [List.foldl_cons, ← hfirst]
    exact ih (x := fun t => x (t + 1)) fun t ht => step (t + 1) (by simpa using ht)

/-- The pieces of a byte string by their places. -/
theorem chunks_eq_map (size count : Nat) (bs : List Byte) :
    chunks size count bs = (List.range count).map fun j => (bs.drop (size * j)).take size := by
  induction count generalizing bs with
  | zero => rfl
  | succ n ih =>
    simp [chunks, ih, List.range_succ_eq_map, Nat.mul_add, Nat.add_comm, Function.comp_def]

@[simp] theorem getElem_chunks {size count j : Nat} {bs : List Byte} (h : j < (chunks size count bs).length) :
    (chunks size count bs)[j] = (bs.drop (size * j)).take size := by
  simp [chunks_eq_map]

/-! ### The message schedule -/

section
variable {w : Nat} (S : Sha2 w)

/-- The schedule word `W[t]` by the recurrence of R74. -/
def sha2ScheduleWord (block : List Byte) (t : Nat) : BitVec w :=
  if t < 16 then beWord w ((block.drop (S.wordBytes * t)).take S.wordBytes)
  else S.smallSigma1 (sha2ScheduleWord block (t - 2)) + sha2ScheduleWord block (t - 7)
    + S.smallSigma0 (sha2ScheduleWord block (t - 15)) + sha2ScheduleWord block (t - 16)

theorem sha2ScheduleWord_of_lt (block : List Byte) {t : Nat} (h : t < 16) :
    sha2ScheduleWord S block t = beWord w ((block.drop (S.wordBytes * t)).take S.wordBytes) := by
  rw [sha2ScheduleWord, if_pos h]

theorem sha2ScheduleWord_of_le (block : List Byte) {t : Nat} (h : 16 ≤ t) :
    sha2ScheduleWord S block t = S.smallSigma1 (sha2ScheduleWord S block (t - 2)) + sha2ScheduleWord S block (t - 7)
      + S.smallSigma0 (sha2ScheduleWord S block (t - 15)) + sha2ScheduleWord S block (t - 16) := by
  rw [sha2ScheduleWord, if_neg (by omega)]

/-- The first `m` schedule words, newest first, as `sha2Extend` holds them. -/
def sha2Newest (block : List Byte) (m : Nat) : List (BitVec w) :=
  ((List.range m).map (sha2ScheduleWord S block)).reverse

theorem sha2Newest_succ (block : List Byte) (m : Nat) :
    sha2Newest S block (m + 1) = sha2ScheduleWord S block m :: sha2Newest S block m := by
  simp [sha2Newest, List.range_succ]

theorem sha2Newest_getD (block : List Byte) {m d : Nat} (h : d < m) :
    (sha2Newest S block m).getD d 0 = sha2ScheduleWord S block (m - (d + 1)) := by
  simp [sha2Newest, h, Nat.sub_sub, Nat.add_comm]

theorem sha2Newest_sixteen (block : List Byte) :
    sha2Newest S block 16 = (beWords w S.wordBytes 16 block).reverse := by
  simp only [sha2Newest, beWords, chunks_eq_map, List.map_map]
  exact congrArg _ (List.map_congr_left fun t ht => sha2ScheduleWord_of_lt S block (List.mem_range.1 ht))

theorem sha2Extend_newest (block : List Byte) (n : Nat) {m : Nat} (h : 16 ≤ m) :
    sha2Extend S n (sha2Newest S block m) = sha2Newest S block (m + n) := by
  induction n generalizing m with
  | zero => rfl
  | succ n ih =>
    rw [sha2Extend, sha2Newest_getD S block (by omega), sha2Newest_getD S block (by omega),
      sha2Newest_getD S block (by omega), sha2Newest_getD S block (by omega), ← sha2ScheduleWord_of_le S block h,
      ← sha2Newest_succ, ih (by omega), Nat.add_right_comm, Nat.add_assoc]

/-- The schedule is one word of the recurrence per round. -/
theorem sha2Schedule_eq_map (block : List Byte) (h : 16 ≤ S.consts.length) :
    sha2Schedule S block = (List.range S.consts.length).map (sha2ScheduleWord S block) := by
  rw [sha2Schedule, ← sha2Newest_sixteen, sha2Extend_newest S block _ le_rfl, Nat.add_sub_cancel' h, sha2Newest,
    List.reverse_reverse]

/-! ### The rounds -/

/-- The working variables before round `t` (R74). -/
def sha2WorkAt (H : List (BitVec w)) (block : List Byte) : Nat → Sha2Work w
  | 0 => sha2Start H
  | t + 1 => sha2Round S (sha2WorkAt H block t) (S.consts.getD t 0, sha2ScheduleWord S block t)

/-- The compression adds the chaining value to the working variables after the last round. -/
theorem sha2Compress_eq_workAt (H : List (BitVec w)) (block : List Byte) (h : 16 ≤ S.consts.length) :
    sha2Compress S H block = List.zipWith (· + ·) (sha2Words (sha2Start H))
      (sha2Words (sha2WorkAt S H block S.consts.length)) := by
  have hrounds : (S.consts.zip (sha2Schedule S block)).foldl (sha2Round S) (sha2WorkAt S H block 0) =
      sha2WorkAt S H block (S.consts.zip (sha2Schedule S block)).length := by
    refine foldl_eq_of_steps _ fun t ht => ?_
    have hconst : t < S.consts.length := by simp at ht; omega
    simp [sha2WorkAt, sha2Schedule_eq_map S block h, hconst]
  have hlength : (S.consts.zip (sha2Schedule S block)).length = S.consts.length := by
    simp [sha2Schedule_eq_map S block h]
  rw [sha2Compress, ← hlength]
  exact congrArg (fun x => List.zipWith (· + ·) (sha2Words (sha2Start H)) (sha2Words x)) hrounds

end

/-- Settles O45: the recurrence's words and the variables before each round are the spec's `W` and its loop. -/
theorem sha256CompressIsTheLoop : Obligations.Sha256CompressIsTheLoop := fun H M =>
  ⟨sha2ScheduleWord sha256Alg M, sha2WorkAt sha256Alg H M,
    fun _ ht => sha2ScheduleWord_of_lt sha256Alg M ht,
    fun _ ht _ => sha2ScheduleWord_of_le sha256Alg M ht,
    rfl, fun _ _ => ⟨_, _, rfl, rfl, rfl⟩, sha2Compress_eq_workAt sha256Alg H M (by decide)⟩

/-- Settles O46: as for SHA-256, with 80 rounds on 64-bit words. -/
theorem sha512CompressIsTheLoop : Obligations.Sha512CompressIsTheLoop := fun H M =>
  ⟨sha2ScheduleWord sha512Alg M, sha2WorkAt sha512Alg H M,
    fun _ ht => sha2ScheduleWord_of_lt sha512Alg M ht,
    fun _ ht _ => sha2ScheduleWord_of_le sha512Alg M ht,
    rfl, fun _ _ => ⟨_, _, rfl, rfl, rfl⟩, sha2Compress_eq_workAt sha512Alg H M (by decide)⟩

/-! ### The padding -/

theorem sha2Pad_length {w : Nat} (S : Sha2 w) (m : List Byte) :
    (sha2Pad S m).length = m.length + 1 + sha2PadZeros S m.length + S.lenBytes := by
  simp only [sha2Pad, List.length_append, List.length_singleton, zeros_length, beBytes_length]

/-- The zero bytes of SHA-256's padding (R75). -/
theorem sha2PadZeros_sha256 (len : Nat) : sha2PadZeros sha256Alg len = (119 - len % 64) % 64 := rfl

/-- The zero bytes of SHA-512's padding (R85). -/
theorem sha2PadZeros_sha512 (len : Nat) : sha2PadZeros sha512Alg len = (239 - len % 128) % 128 := rfl

/-- Settles O47: the number of zero bytes is the spec's residue, so the four parts add up to whole blocks. -/
theorem paddingFillsWholeBlocks : Obligations.PaddingFillsWholeBlocks := by
  intro m
  constructor
  · refine ⟨sha2PadZeros sha256Alg m.length, ?_, rfl, ?_⟩
    · rw [sha2PadZeros_sha256]; omega
    · rw [sha2Pad_length, sha2PadZeros_sha256, show sha256Alg.lenBytes = 8 from rfl]; omega
  · refine ⟨sha2PadZeros sha512Alg m.length, ?_, rfl, ?_⟩
    · rw [sha2PadZeros_sha512]; omega
    · rw [sha2Pad_length, sha2PadZeros_sha512, show sha512Alg.lenBytes = 16 from rfl]; omega

/-! ### The chain of blocks -/

/-- The chaining value before block `j` of a padded message (R76, R85). -/
def sha2ChainAt {w : Nat} (S : Sha2 w) (padded : List Byte) : Nat → List (BitVec w)
  | 0 => S.init
  | j + 1 => sha2Compress S (sha2ChainAt S padded j)
      ((padded.drop (sha2BlockBytes S * j)).take (sha2BlockBytes S))

theorem sha2Hash_eq_chainAt {w : Nat} (S : Sha2 w) (m : List Byte) : sha2Hash S m =
    beWordsBytes S.wordBytes (sha2ChainAt S (sha2Pad S m) ((sha2Pad S m).length / sha2BlockBytes S)) := by
  have hchain := foldl_eq_of_steps (f := sha2Compress S) (x := sha2ChainAt S (sha2Pad S m))
    (chunks (sha2BlockBytes S) ((sha2Pad S m).length / sha2BlockBytes S) (sha2Pad S m))
    fun j hj => by rw [getElem_chunks]; rfl
  rw [chunks_length] at hchain
  exact congrArg _ hchain

/-- Compressing state images block by block follows the chaining value: an image holds its eight words (R32, R78). -/
theorem foldl_sha256CompressImage (blocks : List (List Byte)) {H : List Word} (h : H.length = 8) :
    blocks.foldl sha256CompressImage (sha256Image H) = sha256Image (blocks.foldl (sha2Compress sha256Alg) H) := by
  induction blocks generalizing H with
  | nil => rfl
  | cons block blocks ih =>
    have hwords : beWords 32 4 8 (sha256Image H) = H := h ▸ beWords_beWordsBytes (by decide) H
    rw [List.foldl_cons, sha256CompressImage, hwords, ih (sha2Compress_length _ _ _), List.foldl_cons]

/-- Settles O48: each hash is a fold over the blocks, and so is the sequence of images. -/
theorem hashesChainTheBlocks : Obligations.HashesChainTheBlocks := fun m =>
  ⟨⟨sha2ChainAt sha256Alg (sha2Pad sha256Alg m), rfl, fun _ _ => rfl, sha2Hash_eq_chainAt sha256Alg m,
      sha256Hash_length m⟩,
    ⟨sha2ChainAt sha512Alg (sha2Pad sha512Alg m), rfl, fun _ _ => rfl, sha2Hash_eq_chainAt sha512Alg m,
      sha512Hash_length m⟩,
    (foldl_sha256CompressImage _ h256_length).symm⟩

/-! ### The commands -/

/-- A command whose values are legal and whose regions are in bounds passes its checks, unless it is one of the two with a
scratch region (R40, R63). -/
theorem commandTrap_of_no_scratch {c : Config} {i : Instr} (hv : legalValues c i)
    (hb : ∀ r ∈ regionsOf i, r.addr + r.len ≤ c.memBytes) (hr : ∀ blk v n r, i ≠ .romix blk v n r := by simp)
    (hs : ∀ dst dkLen pwd pwdLen salt saltLen n r p work,
      i ≠ .scrypt dst dkLen pwd pwdLen salt saltLen n r p work := by simp) :
    commandTrap c i = none :=
  commandTrap_eq_none.2 ⟨paramChecks_ok.2 hv, hb, regionsOf_compatible hr hs⟩

/-- Settles O17: the checks pass, and each image is the bytes of its table. -/
theorem initialValuesComplete : Obligations.InitialValuesComplete := by
  refine fun s dst => ⟨fun hdst => ?_, fun hopt hdst => ?_, fun hdst => ?_⟩
  · have hc : commandTrap s.cfg (.sha256Iv dst) = none :=
      commandTrap_of_no_scratch trivial (by simpa [regionsOf, region])
    rw [exec, execSha256Iv, command_of_none _ hc, State.complete_one]
    rfl
  · have hc : commandTrap s.cfg (.sha512Iv dst) = none :=
      commandTrap_of_no_scratch hopt (by simpa [regionsOf, region])
    rw [exec, execSha512Iv, command_of_none _ hc, State.complete_one]
    rfl
  · have hc : commandTrap s.cfg (.permIv dst) = none :=
      commandTrap_of_no_scratch trivial (by simpa [regionsOf, region])
    rw [exec, execPermIv, command_of_none _ hc, State.complete_one]
    rfl

/-- Settles O18: the checks pass and the inputs are read. -/
theorem sha256CommandsComplete : Obligations.Sha256CommandsComplete := by
  constructor
  · intro s dst state block st bl hdst hstate hblock hst hbl
    have hc : commandTrap s.cfg (.sha256Compress dst state block) = none :=
      commandTrap_of_no_scratch trivial (by simp [regionsOf, region, hdst, hstate, hblock])
    rw [exec, execSha256Compress, command_of_none _ hc, withRead_of_some _ hst, withRead_of_some _ hbl,
      State.complete_one]
    rfl
  · intro s dst src len m hdst hsrc hm
    constructor
    · have hc : commandTrap s.cfg (.sha256 dst src len) = none :=
        commandTrap_of_no_scratch trivial (by simp [regionsOf, region, hdst, hsrc])
      rw [exec, execSha256, command_of_none _ hc, withRead_of_some _ hm, State.complete_one]
    · have hc : commandTrap s.cfg (.sha256d dst src len) = none :=
        commandTrap_of_no_scratch trivial (by simp [regionsOf, region, hdst, hsrc])
      rw [exec, execSha256d, command_of_none _ hc, withRead_of_some _ hm, State.complete_one, sha256dHash]

/-- Settles O19: as for SHA-256, with the option. -/
theorem sha512CommandsComplete : Obligations.Sha512CommandsComplete := by
  constructor
  · intro s dst state block st bl hopt hdst hstate hblock hst hbl
    have hc : commandTrap s.cfg (.sha512Compress dst state block) = none :=
      commandTrap_of_no_scratch hopt (by simp [regionsOf, region, hdst, hstate, hblock])
    rw [exec, execSha512Compress, command_of_none _ hc, withRead_of_some _ hst, withRead_of_some _ hbl,
      State.complete_one]
    rfl
  · intro s dst src len m hopt hdst hsrc hm
    have hc : commandTrap s.cfg (.sha512 dst src len) = none :=
      commandTrap_of_no_scratch hopt (by simp [regionsOf, region, hdst, hsrc])
    rw [exec, execSha512, command_of_none _ hc, withRead_of_some _ hm, State.complete_one]

end Sys2Proof.Machine
end

section
/-! The keyed hash and the key expansion (spec/42_hmac_pbkdf2.md): the key block and the two passes (R90), the iterates and
their running exclusive or (R91), and the commands (R92, R93). -/

namespace Sys2Proof.Machine

/-! ### The keyed hash -/

theorem xorBytes_comm (xs ys : List Byte) : xorBytes xs ys = xorBytes ys xs :=
  List.zipWith_comm_of_comm BitVec.xor_comm

/-- `⊕` with one byte repeated acts on each byte. -/
theorem xorBytes_replicate {n : Nat} (b : Byte) {xs : List Byte} (h : xs.length = n) :
    xorBytes xs (List.replicate n b) = xs.map (· ^^^ b) := by
  subst h
  induction xs with
  | nil => rfl
  | cons x xs ih => exact congrArg (_ :: ·) ih

theorem zeros_xorBytes {n : Nat} {xs : List Byte} (h : xs.length = n) : xorBytes (zeros n) xs = xs := by
  rw [xorBytes_comm, zeros, xorBytes_replicate 0 h]
  simp

/-- A hashed key is shorter than a block, so every key fits one block and is filled up to it (R90). -/
theorem hmacKeyBlock_length (key : List Byte) : (hmacKeyBlock key).length = 64 := by
  have hfits : (if key.length > 64 then sha256Hash key else key).length ≤ 64 := by
    split
    · simp
    · omega
  rw [hmacKeyBlock, List.length_append, zeros_length, Nat.add_sub_cancel' hfits]

/-- The two passes, with the pads written out as blocks (R90). -/
theorem hmacSha256_eq_pads (key m : List Byte) : hmacSha256 key m =
    sha256Hash (xorBytes (hmacKeyBlock key) (List.replicate 64 0x5c) ++
      sha256Hash (xorBytes (hmacKeyBlock key) (List.replicate 64 0x36) ++ m)) := by
  rw [xorBytes_replicate _ (hmacKeyBlock_length key), xorBytes_replicate _ (hmacKeyBlock_length key)]
  rfl

/-! ### The key expansion -/

/-- `U_j` of block `i` (R91), with the first message of the block as `U_0`. -/
def pbkdf2Iterate (pwd salt : List Byte) (i : Nat) : Nat → List Byte
  | 0 => salt ++ beBytes 4 i
  | j + 1 => hmacSha256 pwd (pbkdf2Iterate pwd salt i j)

/-- `U_1 ⊕ … ⊕ U_j` of block `i` (R91); no bit is set where there is no iterate yet. -/
def pbkdf2Sum (pwd salt : List Byte) (i : Nat) : Nat → List Byte
  | 0 => zeros 32
  | j + 1 => xorBytes (pbkdf2Sum pwd salt i j) (pbkdf2Iterate pwd salt i (j + 1))

theorem pbkdf2Sum_one (pwd salt : List Byte) (i : Nat) : pbkdf2Sum pwd salt i 1 = pbkdf2Iterate pwd salt i 1 :=
  zeros_xorBytes (hmacSha256_length _ _)

/-- The loop goes on from iterate `j` to iterate `j + n`. -/
theorem pbkdf2Loop_iterate (pwd salt : List Byte) (i n j : Nat) :
    pbkdf2Loop pwd n (pbkdf2Iterate pwd salt i j) (pbkdf2Sum pwd salt i j) = pbkdf2Sum pwd salt i (j + n) := by
  induction n generalizing j with
  | zero => rfl
  | succ n ih => exact (ih (j + 1)).trans (congrArg _ (Nat.succ_add_eq_add_succ j n))

/-- Block `i` is the sum of its iterates (R91). -/
theorem pbkdf2Block_eq_sum (pwd salt : List Byte) {c : Nat} (i : Nat) (hc : 1 ≤ c) :
    pbkdf2Block pwd salt c i = pbkdf2Sum pwd salt i c := by
  have hloop := pbkdf2Loop_iterate pwd salt i (c - 1) 1
  rw [pbkdf2Sum_one, Nat.add_sub_cancel' hc] at hloop
  exact hloop

/-- Settles O49: the key block is the spec's `K0`, and each block of the key the sum of its iterates. -/
theorem keyedHashesAreTheConstructions : Obligations.KeyedHashesAreTheConstructions := by
  constructor
  · intro K m
    exact ⟨if K.length > 64 then sha256Hash K else K, hmacKeyBlock K, fun h => if_pos h, fun h => if_neg h.not_gt, rfl,
      hmacKeyBlock_length K, hmacSha256_eq_pads K m⟩
  · intro P S c dkLen hc _
    refine ⟨pbkdf2Iterate P S, pbkdf2Sum P S, fun i => ⟨rfl, pbkdf2Sum_one P S i⟩, fun _ _ _ => ⟨rfl, rfl⟩, ?_,
      pbkdf2Sha256_length P S c dkLen⟩
    simp only [pbkdf2Sha256, pbkdf2Block_eq_sum P S _ hc]

/-! ### The commands -/

/-- Settles O20: the checks pass and both inputs are read. -/
theorem keyedHashCommandsComplete : Obligations.KeyedHashCommandsComplete := by
  constructor
  · intro s dst key keyLen msg msgLen k m hdst hkey hmsg hk hm
    have hc : commandTrap s.cfg (.hmacSha256 dst key keyLen msg msgLen) = none :=
      commandTrap_of_no_scratch trivial (by simp [regionsOf, region, hdst, hkey, hmsg])
    rw [exec, execHmacSha256, command_of_none _ hc, withRead_of_some _ hk, withRead_of_some _ hm, State.complete_one]
  · intro s dst dkLen pwd pwdLen salt saltLen iter p sa hdkLen hiter hdst hpwd hsalt hp hsa
    have hc : commandTrap s.cfg (.pbkdf2Sha256 dst dkLen pwd pwdLen salt saltLen iter) = none :=
      commandTrap_of_no_scratch ⟨hdkLen, hiter⟩ (by simp [regionsOf, region, hdst, hpwd, hsalt])
    rw [exec, execPbkdf2Sha256, command_of_none _ hc, withRead_of_some _ hp, withRead_of_some _ hsa,
      State.complete_one]

end Sys2Proof.Machine
end

section
/-! The memory-hard key derivation (spec/43_scrypt_mix.md): the stream-cipher core's quarter-round and loop (R94, R95),
BlockMix's chain and the places of its outputs (R96), ROMix's two phases (R97, R98), the lanes of scrypt (R99), and the
commands (R100 to R103). -/

namespace Sys2Proof.Machine

/-! ### The stream-cipher core -/

/-- The word a step of the quarter-round assigns (R94). -/
theorem salsaStep_getD_same {t p q n : Nat} {x : List Word} (h : t < x.length) :
    (salsaStep t p q n x).getD t 0 = x.getD t 0 ^^^ (x.getD p 0 + x.getD q 0).rotateLeft n := by
  simp [salsaStep, h]

/-- A step of the quarter-round changes no other word (R94). -/
theorem salsaStep_getD_of_ne {t p q n k : Nat} {x : List Word} (h : k ≠ t) :
    (salsaStep t p q n x).getD k 0 = x.getD k 0 := by
  simp [salsaStep, List.getElem?_set_ne h.symm]

/-- Settles O50: each word is read after the step that assigns it, and no later step changes it. -/
theorem salsaQuarterRound : Obligations.SalsaQuarterRound := by
  intro x a b c d hx ha hb hc hd hab hac had hbc hbd hcd
  refine ⟨_, rfl, (salsaQr_length a b c d x).trans hx, ?_, ?_, ?_, ?_, fun k hka hkb hkc hkd => ?_⟩
  all_goals simp only [salsaQr, salsaStep_getD_same, salsaStep_getD_of_ne, salsaStep_length, ne_eq, not_false_eq_true,
    *, hab.symm, hac.symm, had.symm, hbc.symm, hbd.symm, hcd.symm]

theorem salsaRounds_eq_iterate (n : Nat) (x : List Word) : salsaRounds n x = salsaDoubleRound^[n] x := by
  induction n generalizing x with
  | zero => rfl
  | succ n ih => exact ih _

/-- The all-zero words are a fixed point of the double round, so of any number of them (R100). -/
theorem salsaRounds_zero (n : Nat) : salsaRounds n (List.replicate 16 0) = List.replicate 16 0 := by
  rw [salsaRounds_eq_iterate]
  exact Function.iterate_fixed (by decide) n

theorem salsaCore_zeros (rounds : Nat) : salsaCore rounds (zeros 64) = zeros 64 := by
  have hwords : le32s 16 (zeros 64) = List.replicate 16 0 := by decide
  rw [salsaCore, hwords, salsaRounds_zero]
  decide

/-- Settles O51: the states between the double rounds are the iterates of `salsaDoubleRound`. -/
theorem salsaCoreIsTheLoop : Obligations.SalsaCoreIsTheLoop := by
  refine ⟨fun rounds b => ⟨fun k => salsaDoubleRound^[k] (le32s 16 b), rfl,
    fun k => Function.iterate_succ_apply' salsaDoubleRound k _, ?_⟩, salsaCore_zeros⟩
  rw [salsaCore, salsaRounds_eq_iterate]
  rfl

/-! ### BlockMix -/

theorem getElem?_evens {α : Type} (l : List α) (i : Nat) : (evens l)[i]? = l[2 * i]? := by
  fun_induction evens l generalizing i with
  | case1 => rfl
  | case2 a => cases i <;> rfl
  | case3 a b l ih =>
    cases i with
    | zero => rfl
    | succ i => exact ih i

theorem getElem?_odds {α : Type} (l : List α) (i : Nat) : (odds l)[i]? = l[2 * i + 1]? := by
  rw [odds, getElem?_evens, List.getElem?_tail]

/-- The even entries fill the first half and the odd ones the second. -/
theorem getElem?_evens_append_odds {α : Type} {l : List α} {r i : Nat} (hl : l.length = 2 * r) (hi : i < r) :
    (evens l ++ odds l)[i]? = l[2 * i]? ∧ (evens l ++ odds l)[r + i]? = l[2 * i + 1]? := by
  have hevens : (evens l).length = r := by rw [evens_length]; omega
  constructor
  · rw [List.getElem?_append_left (by omega), getElem?_evens]
  · rw [List.getElem?_append_right (by omega), hevens, Nat.add_sub_cancel_left, getElem?_odds]

/-- The chain's outputs are any sequence that takes one step of the core per sub-block (R96). -/
theorem blockmixChain_eq_of_steps {rounds : Nat} {x : Nat → List Byte} (bs : List (List Byte))
    (step : ∀ i (hi : i < bs.length), x (i + 1) = salsaCore rounds (xorBytes (x i) bs[i])) :
    blockmixChain rounds (x 0) bs = (List.range bs.length).map fun i => x (i + 1) := by
  induction bs generalizing x with
  | nil => rfl
  | cons b bs ih =>
    have hfirst : x 1 = salsaCore rounds (xorBytes (x 0) b) := step 0 (by simp)
    have hrest := ih (x := fun i => x (i + 1)) fun i hi => step (i + 1) (by simpa using hi)
    simp only [blockmixChain, ← hfirst, hrest, List.length_cons, List.range_succ_eq_map, List.map_cons, List.map_map]
    rfl

/-- The chain value before sub-block `i` (R96): the last sub-block at first, then the output before. -/
def blockmixValue (rounds r : Nat) (b : List Byte) : Nat → List Byte
  | 0 => (b.drop (64 * (2 * r - 1))).take 64
  | i + 1 => salsaCore rounds (xorBytes (blockmixValue rounds r b i) ((b.drop (64 * i)).take 64))

/-- The outputs of BlockMix's chain, in the order they are made (R96). -/
def blockmixOutputs (rounds r : Nat) (b : List Byte) : List (List Byte) :=
  (List.range (2 * r)).map fun i => blockmixValue rounds r b (i + 1)

theorem blockmixOutputs_piece_length (rounds r : Nat) (b : List Byte) :
    ∀ y ∈ blockmixOutputs rounds r b, y.length = 64 := by
  simp [blockmixOutputs, blockmixValue]

theorem getElem?_blockmixOutputs (rounds : Nat) {r i : Nat} (b : List Byte) (hi : i < 2 * r) :
    (blockmixOutputs rounds r b)[i]? = some (blockmixValue rounds r b (i + 1)) := by
  simp [blockmixOutputs, hi]

theorem blockmix_eq_outputs (rounds : Nat) {r : Nat} (b : List Byte) (hr : 1 ≤ r) :
    blockmix rounds r b = (evens (blockmixOutputs rounds r b) ++ odds (blockmixOutputs rounds r b)).flatten := by
  have hlast : (chunks 64 (2 * r) b).getD (2 * r - 1) [] = blockmixValue rounds r b 0 := by
    rw [List.getD_eq_getElem _ _ (by rw [chunks_length]; omega), getElem_chunks]
    rfl
  have hchain := blockmixChain_eq_of_steps (rounds := rounds) (x := blockmixValue rounds r b) (chunks 64 (2 * r) b)
    fun i hi => by rw [getElem_chunks]; rfl
  rw [chunks_length] at hchain
  simp only [blockmix, hlast, hchain]
  rfl

/-- A piece of a byte string joined from pieces of one length. -/
theorem take_drop_flatten {n i : Nat} {l : List (List Byte)} {y : List Byte} (h : ∀ z ∈ l, z.length = n)
    (hy : l[i]? = some y) : (l.flatten.drop (n * i)).take n = y := by
  induction l generalizing i with
  | nil => simp at hy
  | cons z l ih =>
    obtain ⟨hz, hl⟩ := List.forall_mem_cons.1 h
    cases i with
    | zero =>
      cases hy
      exact List.take_left' hz
    | succ i =>
      rw [List.flatten_cons, Nat.mul_succ, Nat.add_comm, ← List.drop_drop, List.drop_left' hz]
      exact ih hl hy

/-- Settles O52: position `i` of the first half is entry `2i` of the chain, of the second half entry `2i + 1`. -/
theorem blockmixInterleaves : Obligations.BlockmixInterleaves := by
  intro rounds r B hr _
  refine ⟨fun i => blockmixValue rounds r B (i + 1), rfl, fun _ _ => rfl, fun i hi => ?_, blockmix_length rounds r B⟩
  have hpiece : ∀ y ∈ evens (blockmixOutputs rounds r B) ++ odds (blockmixOutputs rounds r B), y.length = 64 := by
    refine fun y hy => blockmixOutputs_piece_length rounds r B y ?_
    exact (List.mem_append.1 hy).elim mem_evens fun h => List.mem_of_mem_tail (mem_evens h)
  obtain ⟨hfirst, hsecond⟩ := getElem?_evens_append_odds (l := blockmixOutputs rounds r B) (by simp [blockmixOutputs]) hi
  rw [blockmix_eq_outputs rounds B hr]
  exact ⟨take_drop_flatten hpiece (hfirst.trans (getElem?_blockmixOutputs rounds B (by omega))),
    take_drop_flatten hpiece (hsecond.trans (getElem?_blockmixOutputs rounds B (by omega)))⟩

/-! ### ROMix -/

/-- The fill makes the successive BlockMix outputs from the block itself (R98). -/
theorem romixFill_eq_iterates (rounds r n : Nat) (x : List Byte) : romixFill rounds r n x =
    ((List.range n).map fun i => (blockmix rounds r)^[i] x, (blockmix rounds r)^[n] x) := by
  induction n generalizing x with
  | zero => rfl
  | succ n ih =>
    simp only [romixFill, ih, List.range_succ_eq_map, List.map_cons, List.map_map]
    rfl

/-- The mix ends in any sequence that takes its steps (R98). -/
theorem romixMix_eq_of_steps {rounds r n : Nat} {table : List (List Byte)} {x : Nat → List Byte}
    (step : ∀ i, x (i + 1) = blockmix rounds r (xorBytes (x i) (table.getD (integerify r (x i) % n) []))) (k : Nat) :
    romixMix rounds r n table k (x 0) = x k := by
  induction k generalizing x with
  | zero => rfl
  | succ k ih =>
    rw [romixMix, ← step 0]
    exact ih (x := fun i => x (i + 1)) fun i => step (i + 1)

/-- The block before iteration `i` of ROMix's second phase (R98). -/
def romixBlock (rounds n r : Nat) (b : List Byte) : Nat → List Byte
  | 0 => (blockmix rounds r)^[n] b
  | i + 1 => blockmix rounds r (xorBytes (romixBlock rounds n r b i)
      ((blockmix rounds r)^[integerify r (romixBlock rounds n r b i) % n] b))

theorem romix_eq_block (rounds : Nat) {n : Nat} (r : Nat) (b : List Byte) (hn : 1 ≤ n) : romix rounds n r b =
    (romixBlock rounds n r b n, (List.range n).map fun i => (blockmix rounds r)^[i] b) := by
  simp only [romix, romixFill_eq_iterates]
  refine congrArg (·, _) (romixMix_eq_of_steps (x := romixBlock rounds n r b) (fun i => ?_) n)
  have hentry := Nat.mod_lt (integerify r (romixBlock rounds n r b i)) hn
  rw [List.getD_eq_getElem _ _ (by simpa using hentry), List.getElem_map, List.getElem_range]
  rfl

/-- Settles O53: the table is the iterates of BlockMix, and every selected index lies in it. -/
theorem romixFillsThenMixes : Obligations.RomixFillsThenMixes := fun rounds N r B hN =>
  ⟨fun i => (blockmix rounds r)^[i] B, romixBlock rounds N r B, rfl,
    fun i => Function.iterate_succ_apply' (blockmix rounds r) i B, rfl, fun _ => rfl, romix_eq_block rounds r B hN⟩

/-! ### The derivation -/

/-- Lane `i` of the first expansion (R99). -/
def scryptLane (r : Nat) (b : List Byte) (i : Nat) : List Byte := (b.drop (128 * r * i)).take (128 * r)

/-- The derivation by its lanes; with at least one lane, the table kept is the last one's (R99). -/
theorem scrypt_eq_lanes (rounds : Nat) (pwd salt : List Byte) (n r dkLen : Nat) {p : Nat} {b b' : List Byte}
    (hp : 1 ≤ p) (hb : b = pbkdf2Sha256 pwd salt 1 (128 * r * p))
    (hb' : b' = (List.range p).flatMap fun i => (romix rounds n r (scryptLane r b i)).1) :
    scrypt rounds pwd salt n r p dkLen =
      { key := pbkdf2Sha256 pwd b' 1 dkLen
        lanes := b'
        table := (romix rounds n r (scryptLane r b (p - 1))).2.flatten } := by
  subst hb'
  obtain ⟨q, rfl⟩ := Nat.exists_eq_add_of_le' hp
  have hlanes : (chunks (128 * r) (q + 1) b).map (romix rounds n r) =
      (List.range (q + 1)).map fun i => romix rounds n r (scryptLane r b i) := by
    rw [chunks_eq_map, List.map_map]
    rfl
  have hlast : ((List.range (q + 1)).map fun i => romix rounds n r (scryptLane r b i)).getLastD ([], []) =
      romix rounds n r (scryptLane r b q) := by
    rw [List.range_succ, List.map_append, List.map_singleton, List.getLastD_concat]
  simp only [scrypt, ← hb, hlanes, hlast, List.flatMap_map, Nat.add_sub_cancel]

/-- Settles O54: the lanes are the pieces of the first expansion, in order, and every length is the block's. -/
theorem scryptMixesEveryLane : Obligations.ScryptMixesEveryLane := by
  intro rounds N r p dkLen P S _ _ hp _
  have heq := scrypt_eq_lanes rounds P S N r dkLen hp rfl rfl
  have hlanes := scrypt_lanes_length rounds P S N r p dkLen
  have htable := scrypt_table_length rounds P S N r p dkLen hp
  rw [heq] at hlanes htable
  exact ⟨_, _, scryptLane r _, rfl, fun _ => rfl, rfl, heq, hlanes, htable⟩

/-! ### The commands -/

/-- A command whose last region is scratch passes its checks when that region shares no byte with the others (R40, R63). -/
theorem commandTrap_of_scratch_apart {c : Config} {i : Instr} {rs : List Region} {w : Region} (hv : legalValues c i)
    (hb : ∀ r ∈ regionsOf i, r.addr + r.len ≤ c.memBytes) (heq : regionsOf i = rs ++ [w])
    (hrs : rs.Pairwise fun r q => ¬(r.exclusive q = true ∧ r.meets q = true))
    (hw : ∀ a, inSpans [(w.addr, w.len)] a → ¬inSpans (rs.map fun q => (q.addr, q.len)) a) :
    commandTrap c i = none := by
  refine commandTrap_eq_none.2 ⟨paramChecks_ok.2 hv, hb, ?_⟩
  rw [heq, List.pairwise_append]
  refine ⟨hrs, List.pairwise_singleton _ _, fun q hq => List.forall_mem_singleton.2 fun ⟨_, hmeets⟩ => ?_⟩
  obtain ⟨a, ⟨span, hspan, hin⟩, ha⟩ := Region.meets_iff.1 hmeets
  rw [List.mem_singleton.1 hspan] at hin
  exact hw a ha ⟨_, List.mem_map_of_mem hq, hin⟩

/-- Settles O21: the checks pass and the input is read. -/
theorem salsaAndBlockmixComplete : Obligations.SalsaAndBlockmixComplete := by
  constructor
  · intro s dst src b hdst hsrc hb
    have hc : commandTrap s.cfg (.salsaCore dst src) = none :=
      commandTrap_of_no_scratch trivial (by simp [regionsOf, region, hdst, hsrc])
    rw [exec, execSalsaCore, command_of_none _ hc, withRead_of_some _ hb, State.complete_one]
  · intro s dst src r b hr hsize hdst hsrc hb
    have hc : commandTrap s.cfg (.blockmix dst src r) = none :=
      commandTrap_of_no_scratch ⟨hr, hsize⟩ (by simp [regionsOf, region, hdst, hsrc])
    rw [exec, execBlockmix, command_of_none _ hc, withRead_of_some _ hb, State.complete_one]

/-- Settles O22: block and table share no byte, so the checks pass; the table is written before the block. -/
theorem romixCompletes : Obligations.RomixCompletes := by
  intro s blk v n r b hn hr hsize hblk hv hapart hb
  have hc : commandTrap s.cfg (.romix blk v n r) = none :=
    commandTrap_of_scratch_apart (rs := [region 1 blk (128 * r.toNat) .inout]) ⟨hn, hr, hsize⟩
      (by simp [regionsOf, region, hblk, hv]) rfl (List.pairwise_singleton _ _)
      fun a ha hin => hapart a ⟨hin, ha⟩
  rw [exec, execRomix, command_of_none _ hc, withRead_of_some _ hb]
  exact congrArg Host.Outcome.next (State.complete_two s v.toNat blk.toNat _ _)

/-- Settles O23: the scratch region shares no byte with the others, so the checks pass; the scratch content is written
before the key. -/
theorem scryptCompletes : Obligations.ScryptCompletes := by
  intro s dst dkLen pwd pwdLen salt saltLen n r p work pw sa size out hdk hn hr hp hsize hdst hpwd hsalt hwork hapart
    hpw hsa
  have hc : commandTrap s.cfg (.scrypt dst dkLen pwd pwdLen salt saltLen n r p work) = none := by
    refine commandTrap_of_scratch_apart (rs := [region 1 dst dkLen.toNat .output, region 3 pwd pwdLen.toNat .input,
      region 5 salt saltLen.toNat .input]) ⟨hdk, hn, hr, hp, hsize⟩ ?_ rfl ?_ hapart
    · simpa [regionsOf, region] using ⟨hdst, hpwd, hsalt, hwork⟩
    · exact overlap_output_inputs rfl (by simp [region])
  rw [exec, execScrypt, command_of_none _ hc, withRead_of_some _ hpw, withRead_of_some _ hsa]
  exact congrArg Host.Outcome.next (State.complete_two s work.toNat dst.toNat _ _)

end Sys2Proof.Machine
end

section
/-! The permutation hash (spec/44_perm.md): the mixing function's eight assignments (R106), the compression as seven rounds on
the permuted schedule (R107, R108), the linear chain of blocks (R105, R109), and the commands (R111, R112). -/

namespace Sys2Proof.Machine

/-! ### The mixing function -/

/-- Four words of a state assigned at once (R106). -/
def setFour (a b c d : Nat) (x y z w : Word) (v : List Word) : List Word :=
  (((v.set a x).set b y).set c z).set d w

@[simp] theorem setFour_length (a b c d : Nat) (x y z w : Word) (v : List Word) :
    (setFour a b c d x y z w v).length = v.length := by
  simp [setFour]

section
variable {a b c d : Nat} (hab : a ≠ b) (hac : a ≠ c) (had : a ≠ d) (hbc : b ≠ c) (hbd : b ≠ d) (hcd : c ≠ d)
include hab hac had hbc hbd hcd

/-- Assigning the four words again leaves nothing of the first assignment. -/
theorem setFour_setFour (x y z w x' y' z' w' : Word) (v : List Word) :
    setFour a b c d x' y' z' w' (setFour a b c d x y z w v) = setFour a b c d x' y' z' w' v := by
  simp only [setFour, List.set_comm _ _ had.symm, List.set_comm _ _ hbd.symm, List.set_comm _ _ hcd.symm,
    List.set_comm _ _ hac.symm, List.set_comm _ _ hbc.symm, List.set_comm _ _ hab.symm, List.set_set]

variable {v : List Word} (ha : a < v.length) (hb : b < v.length) (hc : c < v.length) (hd : d < v.length)
include ha hb hc hd

/-- What each of the four words holds once they are assigned. -/
theorem setFour_getD (x y z w : Word) :
    (setFour a b c d x y z w v).getD a 0 = x ∧ (setFour a b c d x y z w v).getD b 0 = y ∧
    (setFour a b c d x y z w v).getD c 0 = z ∧ (setFour a b c d x y z w v).getD d 0 = w := by
  simp [setFour, *, hab.symm, hac.symm, had.symm, hbc.symm, hbd.symm, hcd.symm]

/-- Half of the mixing function: the four words it assigns, each from those before it (R106). -/
theorem permGHalf_eq_setFour (m : Word) (p q : Nat) {xa xb xc xd a1 b1 c1 d1 : Word} (hxa : v.getD a 0 = xa)
    (hxb : v.getD b 0 = xb) (hxc : v.getD c 0 = xc) (hxd : v.getD d 0 = xd)
    (ha1 : xa + xb + m = a1) (hd1 : (xd ^^^ a1).rotateRight p = d1) (hc1 : xc + d1 = c1)
    (hb1 : (xb ^^^ c1).rotateRight q = b1) :
    permGHalf a b c d m p q v = setFour a b c d a1 b1 c1 d1 v := by
  subst xa xb xc xd a1 d1 c1 b1
  rw [setFour, List.set_comm _ _ hcd, List.set_comm _ _ hbd, List.set_comm _ _ hbc]
  simp [permGHalf, *, hbc.symm, hbd.symm, hcd.symm]

end

/-- Settles O55: the second half reads the four words the first half assigned. -/
theorem permMixingFunction : Obligations.PermMixingFunction := by
  intro v a b c d mx my hv ha hb hc hd hab hac had hbc hbd hcd
  rw [← hv] at ha hb hc hd
  refine ⟨_, _, _, _, _, _, _, _, rfl, rfl, rfl, rfl, rfl, rfl, rfl, rfl, ?_⟩
  obtain ⟨hxa, hxb, hxc, hxd⟩ := setFour_getD hab hac had hbc hbd hcd ha hb hc hd _ _ _ _
  rw [permG, permGHalf_eq_setFour hab hac had hbc hbd hcd ha hb hc hd mx 16 12 rfl rfl rfl rfl rfl rfl rfl rfl,
    permGHalf_eq_setFour hab hac had hbc hbd hcd (by simpa) (by simpa) (by simpa) (by simpa) my 8 7 hxa hxb hxc hxd
      rfl rfl rfl rfl, setFour_setFour hab hac had hbc hbd hcd]
  rfl

/-! ### The compression -/

/-- Entry `k` of row `r` of the schedule by the recurrence of R107. -/
def permScheduleEntry : Nat → Nat → Nat
  | 0, k => k
  | r + 1, k => permScheduleEntry r (permPositions.getD k 0)

/-- The table holds seven rows of the recurrence (R107). -/
theorem permSched_eq_map :
    permSched = (List.range 7).map fun r => (List.range 16).map (permScheduleEntry r) := by decide

/-- A round reads sixteen message words (R108). -/
theorem permRound_congr {w w' : Nat → Word} (h : ∀ k < 16, w k = w' k) (v : List Word) :
    permRound w v = permRound w' v := by
  simp [permRound, h]

/-- The state before round `r` (R108). -/
def permStateAt (m v : List Word) : Nat → List Word
  | 0 => v
  | r + 1 => permRound (fun k => m.getD (permScheduleEntry r k) 0) (permStateAt m v r)

theorem permRounds_eq_stateAt (m v : List Word) : permRounds m v = permStateAt m v 7 := by
  refine foldl_eq_of_steps (x := permStateAt m v) permSched fun r hr => permRound_congr (fun k hk => ?_) _
  simp [permSched_eq_map, hk]

/-- The state before the first round (R108). -/
def permStart (cv : List Word) (ctr : Word64) (blen flags : Word) : List Word :=
  cv.take 8 ++ permIv.take 4 ++ [ctr.extractLsb' 0 32, ctr.extractLsb' 32 32, blen, flags]

theorem permStart_eq {cv : List Word} (hcv : cv.length = 8) (ctr : Word64) (blen flags : Word) :
    permStart cv ctr blen flags = cv ++ [0x6a09e667, 0xbb67ae85, 0x3c6ef372, 0xa54ff53a, ctr.setWidth 32,
      (ctr >>> 32).setWidth 32, blen, flags] := by
  have hlow : ctr.extractLsb' 0 32 = ctr.setWidth 32 := rfl
  have hhigh : ctr.extractLsb' 32 32 = (ctr >>> 32).setWidth 32 := by
    ext i hi
    simp
  rw [permStart, List.take_of_length_le hcv.le, hlow, hhigh, List.append_assoc]
  rfl

/-- The two halves of the output, from the state after the last round (R108). -/
theorem permCompress_eq_stateAt (cv m : List Word) (ctr : Word64) (blen flags : Word) {v : List Word}
    (hv : permStateAt m (permStart cv ctr blen flags) 7 = v) :
    permCompress cv m ctr blen flags =
      List.zipWith (· ^^^ ·) (v.take 8) (v.drop 8) ++ List.zipWith (· ^^^ ·) (v.drop 8) cv := by
  rw [permCompress, ← permStart, permRounds_eq_stateAt, hv]

theorem getD_zipWith_xor {xs ys : List Word} {i : Nat} (hx : i < xs.length) (hy : i < ys.length) :
    (List.zipWith (· ^^^ ·) xs ys).getD i 0 = xs.getD i 0 ^^^ ys.getD i 0 := by
  simp [hx, hy]

/-- Settles O56: the rows of the table are those of the recurrence, and each word of the output is read from its half. -/
theorem permCompressIsTheLoop : Obligations.PermCompressIsTheLoop := by
  intro cv m ctr blen flags hcv _
  generalize hv : permStateAt m (permStart cv ctr blen flags) 7 = v
  have hlen : v.length = 16 := by
    rw [← hv, ← permRounds_eq_stateAt, permRounds_length, permStart_eq hcv, List.length_append, hcv]
    rfl
  refine ⟨permScheduleEntry, permStateAt m (permStart cv ctr blen flags), fun _ => rfl, fun _ _ => rfl,
    permStart_eq hcv ctr blen flags, fun _ _ => rfl, permCompress_length hcv m ctr blen flags, fun i hi => ?_⟩
  rw [permCompress_eq_stateAt cv m ctr blen flags hv, hv]
  constructor
  · rw [List.getD_append _ _ _ _ (by simp [hlen, hi]), getD_zipWith_xor (by simp [hlen, hi]) (by simp [hlen, hi])]
    simp [hi, Nat.add_comm]
  · rw [List.getD_append_right _ _ _ _ (by simp [hlen])]
    have hat : i + 8 - (List.zipWith (· ^^^ ·) (v.take 8) (v.drop 8)).length = i := by simp [hlen]
    rw [hat, getD_zipWith_xor (by simp [hlen, hi]) (by simp [hcv, hi])]
    simp [Nat.add_comm]

/-! ### The chain of blocks -/

/-- The chain ends in any sequence that takes one of its steps per block (R109). -/
theorem permChain_eq_of_steps {x : Nat → List Word} {m : List Byte} {n : Nat} {first : Bool}
    (step : ∀ k < n, x (k + 1) = permBlock (x k) ((m.drop (64 * k)).take 64) (first && k == 0) (k + 1 == n)) :
    permChain n first (x 0) m = x n := by
  induction n generalizing x m first with
  | zero => rfl
  | succ n ih =>
    have hfirst : x 1 = permBlock (x 0) (m.take 64) first (n == 0) := by simpa using step 0 (by simp)
    rw [permChain, ← hfirst]
    refine ih (x := fun k => x (k + 1)) fun k hk => ?_
    have hrest : (m.drop 64).drop (64 * k) = m.drop (64 * (k + 1)) := by
      rw [List.drop_drop, Nat.mul_succ, Nat.add_comm]
    rw [hrest]
    simpa using step (k + 1) (by omega)

/-- The flag word as a sum: the flags are different bits (R105). -/
theorem permFlags_eq_ofNat (first last : Bool) :
    permFlags first last = BitVec.ofNat 32 ((if first then 1 else 0) + (if last then 2 + 8 else 0)) := by
  cases first <;> cases last <;> rfl

/-- The chaining value before block `k` of a message of `n` blocks (R109). -/
def permChainAt (m : List Byte) (n : Nat) : Nat → List Word
  | 0 => permIv
  | k + 1 => permBlock (permChainAt m n k) ((m.drop (64 * k)).take 64) (k == 0) (k + 1 == n)

/-- Settles O57: the chaining values before each block are the spec's, and the flags of a block add up. -/
theorem permHashIsALinearChain : Obligations.PermHashIsALinearChain := by
  intro M
  refine ⟨permBlockCount M.length, permChainAt M (permBlockCount M.length), rfl, rfl, fun k hk => ?_, ?_,
    permHash_length M⟩
  · simp only [permChainAt, permBlock, permFlags_eq_ofNat, beq_iff_eq]
  · exact congrArg le32sBytes
      (permChain_eq_of_steps (x := permChainAt M (permBlockCount M.length)) fun k _ => by simp [permChainAt])

/-! ### The commands -/

/-- Settles O24: the checks pass and the inputs are read. -/
theorem permCommandsComplete : Obligations.PermCommandsComplete := by
  constructor
  · intro s dst cv block ctr blen flags c b hdst hcv hblock hc hb
    have htrap : commandTrap s.cfg (.permCompress dst cv block ctr blen flags) = none :=
      commandTrap_of_no_scratch trivial (by simp [regionsOf, region, hdst, hcv, hblock])
    rw [exec, execPermCompress, command_of_none _ htrap, withRead_of_some _ hc, withRead_of_some _ hb,
      State.complete_one]
  · intro s dst src len m hdst hsrc hm
    have htrap : commandTrap s.cfg (.permHash dst src len) = none :=
      commandTrap_of_no_scratch trivial (by simp [regionsOf, region, hdst, hsrc])
    rw [exec, execPermHash, command_of_none _ htrap, withRead_of_some _ hm, State.complete_one]

end Sys2Proof.Machine
end

section
/-! The nonce search's predicates and its loop (spec/45_mine.md): a digest against a target as numbers (R113), the leading
zeros as a bit length (R114), and the smallest nonce with its count of attempts (R115, R119). -/

namespace Sys2Proof.Machine

/-! ### Byte strings as big-endian numbers -/

theorem leNat_append (xs ys : List Byte) : leNat (xs ++ ys) = leNat xs + 256 ^ xs.length * leNat ys := by
  induction xs with
  | nil => simp [leNat]
  | cons x xs ih =>
    simp only [List.cons_append, leNat, ih, List.length_cons, pow_succ]
    ring

@[simp] theorem beNat_reverse (bs : List Byte) : beNat bs.reverse = leNat bs := by simp [beNat]

theorem beNat_cons (b : Byte) (bs : List Byte) : beNat (b :: bs) = b.toNat * 256 ^ bs.length + beNat bs := by
  simp only [beNat, List.reverse_cons, leNat_append, List.length_reverse, leNat]
  ring

theorem beNat_lt (bs : List Byte) : beNat bs < 256 ^ bs.length := by
  simpa [beNat] using leNat_lt bs.reverse

theorem beNat_eq_zero {bs : List Byte} : beNat bs = 0 ↔ bs = zeros bs.length := by
  induction bs with
  | nil => simp [beNat, leNat, zeros]
  | cons b bs ih => simp [beNat_cons, ih, zeros, List.replicate_succ, ← BitVec.toNat_inj]

/-- A smaller first byte makes the smaller number, whatever bytes follow. -/
theorem beNat_cons_lt {b c : Byte} {bs cs : List Byte} (hl : bs.length = cs.length) (h : b.toNat < c.toNat) :
    beNat (b :: bs) < beNat (c :: cs) := by
  rw [beNat_cons, beNat_cons, ← hl]
  calc b.toNat * 256 ^ bs.length + beNat bs
      < (b.toNat + 1) * 256 ^ bs.length := by rw [Nat.succ_mul]; exact Nat.add_lt_add_left (beNat_lt bs) _
    _ ≤ c.toNat * 256 ^ bs.length := Nat.mul_le_mul_right _ h
    _ ≤ _ := Nat.le_add_right _ _

/-! ### Meeting a target: the scan, the first unequal byte and the numbers obey one recursion -/

/-- Two byte strings are equal, or at the first place where they differ the first one's byte is smaller (R113). -/
def EqualOrFirstSmaller (d t : List Byte) : Prop :=
  d = t ∨ ∃ j, j < d.length ∧ (∀ l, l < j → d.getD l 0 = t.getD l 0) ∧ (d.getD j 0).toNat < (t.getD j 0).toNat

section
variable {b c : Byte} {bs cs : List Byte}

theorem targetScan_cons :
    targetScan (b :: bs) (c :: cs) = true ↔ b.toNat < c.toNat ∨ b = c ∧ targetScan bs cs = true := by
  obtain h | h | h := lt_trichotomy b.toNat c.toNat
  · simp [targetScan, h]
  · simp [targetScan, BitVec.eq_of_toNat_eq h]
  · have hne : b ≠ c := by rintro rfl; exact lt_irrefl _ h
    simp [targetScan, h, h.not_gt, hne]

theorem equalOrFirstSmaller_cons :
    EqualOrFirstSmaller (b :: bs) (c :: cs) ↔ b.toNat < c.toNat ∨ b = c ∧ EqualOrFirstSmaller bs cs := by
  simp only [EqualOrFirstSmaller, List.length_cons, Nat.exists_lt_succ_left, Nat.forall_lt_succ_left]
  by_cases h : b = c <;> simp [h]

theorem beNat_cons_le_cons (hl : bs.length = cs.length) :
    beNat (b :: bs) ≤ beNat (c :: cs) ↔ b.toNat < c.toNat ∨ b = c ∧ beNat bs ≤ beNat cs := by
  obtain h | h | h := lt_trichotomy b.toNat c.toNat
  · simp [h, (beNat_cons_lt hl h).le]
  · simp [BitVec.eq_of_toNat_eq h, beNat_cons, hl]
  · have hne : b ≠ c := by rintro rfl; exact lt_irrefl _ h
    simp [h.not_gt, hne, beNat_cons_lt hl.symm h]

end

theorem targetScan_iff_equalOrFirstSmaller {d t : List Byte} (h : d.length = t.length) :
    targetScan d t = true ↔ EqualOrFirstSmaller d t := by
  induction d generalizing t with
  | nil => simp [List.length_eq_zero_iff.1 h.symm, targetScan, EqualOrFirstSmaller]
  | cons b bs ih =>
    obtain ⟨c, cs, rfl⟩ := List.exists_cons_of_length_eq_add_one h.symm
    rw [targetScan_cons, equalOrFirstSmaller_cons, ih (Nat.succ.inj h)]

theorem targetScan_iff_beNat_le {d t : List Byte} (h : d.length = t.length) :
    targetScan d t = true ↔ beNat d ≤ beNat t := by
  induction d generalizing t with
  | nil => simp [List.length_eq_zero_iff.1 h.symm, targetScan]
  | cons b bs ih =>
    obtain ⟨c, cs, rfl⟩ := List.exists_cons_of_length_eq_add_one h.symm
    rw [targetScan_cons, beNat_cons_le_cons (Nat.succ.inj h), ih (Nat.succ.inj h)]

/-- On reversed strings, the first unequal byte is the last one: it has only equal bytes after it. -/
theorem equalOrFirstSmaller_reverse {d t : List Byte} (h : d.length = t.length) :
    EqualOrFirstSmaller d.reverse t.reverse ↔
      d = t ∨ ∃ j, j < d.length ∧ (∀ l, j < l → l < d.length → d.getD l 0 = t.getD l 0) ∧
        (d.getD j 0).toNat < (t.getD j 0).toNat := by
  have at_mirror {j} (hj : j < d.length) : d.reverse.getD j 0 = d.getD (d.length - 1 - j) 0 ∧
      t.reverse.getD j 0 = t.getD (d.length - 1 - j) 0 :=
    ⟨congrFun (List.getD_reverse j hj) 0, h ▸ congrFun (List.getD_reverse j (h ▸ hj)) 0⟩
  simp only [EqualOrFirstSmaller, List.reverse_inj, List.length_reverse]
  refine or_congr_right ⟨fun ⟨j, hj, heq, hlt⟩ => ⟨d.length - 1 - j, by omega, fun l h1 h2 => ?_, ?_⟩,
    fun ⟨j, hj, heq, hlt⟩ => ⟨d.length - 1 - j, by omega, fun l hl => ?_, ?_⟩⟩
  · have := heq (d.length - 1 - l) (by omega)
    rwa [(at_mirror (by omega)).1, (at_mirror (by omega)).2, Nat.sub_sub_self (by omega)] at this
  · rwa [(at_mirror hj).1, (at_mirror hj).2] at hlt
  · rw [(at_mirror (by omega)).1, (at_mirror (by omega)).2]
    exact heq _ (by omega) (by omega)
  · rwa [(at_mirror (by omega)).1, (at_mirror (by omega)).2, Nat.sub_sub_self (by omega)]

/-- Settles O58: the scan, the first unequal byte and the comparison of the numbers obey one recursion; the other target order
is the scan of the reversed strings. -/
theorem targetIsANumberComparison : Obligations.TargetIsANumberComparison := by
  intro d t hd ht
  have h : d.length = t.length := hd.trans ht.symm
  have hr : d.reverse.length = t.reverse.length := by simpa using h
  simp only [← hd]
  exact ⟨targetScan_iff_equalOrFirstSmaller h,
    (targetScan_iff_equalOrFirstSmaller hr).trans (equalOrFirstSmaller_reverse h),
    targetScan_iff_beNat_le h, by simpa [meetsTarget] using targetScan_iff_beNat_le hr⟩

/-! ### Leading zeros -/

/-- A number shifted right by `n` bits is `n` bits shorter. -/
theorem size_div_two_pow (x n : Nat) : Nat.size (x / 2 ^ n) = Nat.size x - n :=
  eq_of_forall_ge_iff fun m => by
    rw [Nat.size_le, Nat.div_lt_iff_lt_mul (by positivity), ← pow_add, ← Nat.size_le, Nat.sub_le_iff_le_add]

theorem size_beNat_le (d : List Byte) : Nat.size (beNat d) ≤ 8 * d.length := by
  rw [Nat.size_le, pow_mul]
  exact beNat_lt d

/-- The bits before the last `8 * d.length` are the first byte's. -/
theorem size_beNat_cons (b : Byte) (d : List Byte) :
    Nat.size (beNat (b :: d)) - 8 * d.length = Nat.size b.toNat := by
  rw [← size_div_two_pow, show 2 ^ (8 * d.length) = 256 ^ d.length from pow_mul 2 8 _, beNat_cons, Nat.mul_comm,
    Nat.mul_add_div (by positivity), Nat.div_eq_of_lt (beNat_lt d), Nat.add_zero]

theorem leadingZeros_singleton : ∀ b : Byte, leadingZeros [b] = 8 - Nat.size b.toNat := by decide +kernel

/-- The count goes on to the following bytes only after eight zeros. -/
theorem leadingZeros_cons (b : Byte) (d : List Byte) :
    leadingZeros (b :: d) = if leadingZeros [b] = 8 then 8 + leadingZeros d else leadingZeros [b] := by
  have hl : (bitsMsbFirst b).length = 8 := by simp [bitsMsbFirst]
  simp only [leadingZeros, List.flatMap_cons, List.flatMap_nil, List.append_nil, List.takeWhile_append, hl]
  split <;> simp [hl]

theorem leadingZeros_eq (d : List Byte) : leadingZeros d = 8 * d.length - Nat.size (beNat d) := by
  induction d with
  | nil => rfl
  | cons b d ih =>
    rw [leadingZeros_cons, leadingZeros_singleton, List.length_cons]
    obtain rfl | hb := eq_or_ne b 0
    · have hzero : beNat (0 :: d) = beNat d := by simp [beNat_cons]
      have hle := size_beNat_le d
      rw [if_pos (by simp), ih, hzero]
      omega
    · have hpos : 0 < Nat.size b.toNat := Nat.size_pos.2 (one_le_toNat.2 hb)
      have hsize := size_beNat_cons b d
      rw [if_neg (by omega)]
      omega

/-- Settles O59: the leading zeros are what the bit length leaves of 256 bits, and only the number 0 has no bits. -/
theorem difficultyCountsLeadingZeros : Obligations.DifficultyCountsLeadingZeros := by
  intro d k hd
  have hz : leadingZeros d = 256 - Nat.size (beNat d) := by rw [leadingZeros_eq, hd]
  have full : 256 ≤ leadingZeros d ↔ d = zeros 32 := by
    rw [hz, ← hd, ← beNat_eq_zero, ← Nat.size_eq_zero]
    omega
  exact ⟨hz, decide_eq_true_iff, by simp [meetsDifficulty], decide_eq_true_iff.trans full⟩

/-! ### The search loop -/

section
variable {attempt : Nat → Bool}

/-- Failed attempts only move the loop on (R115). -/
theorem searchFrom_skip {n k : Nat} (left : Nat) (count : Word64) (h : ∀ m, n ≤ m → m < n + k → attempt m = false) :
    searchFrom attempt (left + k) n count = searchFrom attempt left (n + k) (count + BitVec.ofNat 64 k) := by
  induction k generalizing n count with
  | zero => simp
  | succ k ih =>
    rw [← Nat.add_assoc, searchFrom, if_neg (by simp [h n le_rfl (by omega)]),
      ih (count + 1) fun m h1 h2 => h m (by omega) (by omega)]
    congr 1
    · omega
    · rw [BitVec.add_assoc, Nat.add_comm k, BitVec.ofNat_add]
      rfl

theorem searchFrom_of_success {n : Nat} (left : Nat) (count : Word64) (h : attempt n = true) :
    searchFrom attempt left n count = ⟨true, BitVec.ofNat 64 n, count + 1⟩ := by
  cases left <;> simp [searchFrom, h]

/-- The smallest nonce that succeeds is found, and counted with the failures before it (R115). -/
theorem search_of_first {start stop n : Nat} (h1 : start ≤ n) (h2 : n ≤ stop) (hn : attempt n = true)
    (hm : ∀ m, start ≤ m → m < n → attempt m = false) :
    search start stop attempt = ⟨true, BitVec.ofNat 64 n, BitVec.ofNat 64 (n - start + 1)⟩ := by
  obtain ⟨k, rfl⟩ := Nat.exists_eq_add_of_le h1
  obtain ⟨left, rfl⟩ := Nat.exists_eq_add_of_le h2
  rw [search, show start + k + left - start = left + k by omega, searchFrom_skip left 0 hm,
    searchFrom_of_success left _ hn]
  simp [BitVec.ofNat_add]

/-- An exhausted range counts every nonce in it (R115). -/
theorem search_of_none {start stop : Nat} (h : start ≤ stop) (hf : ∀ n, start ≤ n → n ≤ stop → attempt n = false) :
    search start stop attempt = ⟨false, 0, BitVec.ofNat 64 (stop - start + 1)⟩ := by
  obtain ⟨k, rfl⟩ := Nat.exists_eq_add_of_le h
  rw [search, Nat.add_sub_cancel_left, ← Nat.zero_add k, searchFrom_skip 0 0 fun m h1 h2 => hf m h1 h2.le, searchFrom,
    if_neg (by simp [hf _ h le_rfl])]
  simp [BitVec.ofNat_add]

/-- A range has a smallest nonce that succeeds, or none. -/
theorem exists_first_or_none (attempt : Nat → Bool) (start stop : Nat) :
    (∃ n, start ≤ n ∧ n ≤ stop ∧ attempt n = true ∧ ∀ m, start ≤ m → m < n → attempt m = false) ∨
      ∀ n, start ≤ n → n ≤ stop → attempt n = false := by
  by_cases h : ∃ n, start ≤ n ∧ n ≤ stop ∧ attempt n = true
  · obtain ⟨h1, h2, hn⟩ := Nat.find_spec h
    exact .inl ⟨Nat.find h, h1, h2, hn, fun m hm hlt =>
      Bool.eq_false_iff.2 fun ht => Nat.find_min h hlt ⟨hm, hlt.le.trans h2, ht⟩⟩
  · exact .inr fun n h1 h2 => Bool.eq_false_iff.2 fun ht => h ⟨n, h1, h2, ht⟩

/-- A search that finds nothing has failed at every nonce. -/
theorem attempt_of_search_not_found {start stop : Nat} (h : (search start stop attempt).found = false) :
    ∀ n, start ≤ n → n ≤ stop → attempt n = false := by
  obtain ⟨n, h1, h2, hn, hm⟩ | hf := exists_first_or_none attempt start stop
  · simp [search_of_first h1 h2 hn hm] at h
  · exact hf

section
variable {start mid stop : Nat} (h1 : start ≤ mid) (h2 : mid < stop)
include h1 h2

/-- A nonce found in the first part of a range is the range's (R119). -/
theorem search_split_of_found (h : (search start mid attempt).found = true) :
    search start stop attempt = search start mid attempt := by
  obtain ⟨n, hs, hn, ht, hm⟩ | hf := exists_first_or_none attempt start mid
  · rw [search_of_first hs hn ht hm, search_of_first hs (hn.trans h2.le) ht hm]
  · simp [search_of_none h1 hf] at h

/-- With nothing in the first part of a range, the search of the second part goes on from its count (R119). -/
theorem search_split_of_not_found (h : (search start mid attempt).found = false) :
    search start stop attempt =
      { found := (search (mid + 1) stop attempt).found
        nonce := (search (mid + 1) stop attempt).nonce
        count := (search start mid attempt).count + (search (mid + 1) stop attempt).count } := by
  have hf := attempt_of_search_not_found h
  rw [search_of_none h1 hf]
  obtain ⟨n, hs, hn, ht, hm⟩ | hf' := exists_first_or_none attempt (mid + 1) stop
  · rw [search_of_first hs hn ht hm, search_of_first (by omega) hn ht fun m hl hlt => ?_, ← BitVec.ofNat_add]
    · congr 2
      omega
    · exact (le_or_gt m mid).elim (hf m hl) fun hlt' => hm m hlt' hlt
  · rw [search_of_none h2 hf', search_of_none (h1.trans h2.le) fun m hl hle => ?_, ← BitVec.ofNat_add]
    · congr 2
      omega
    · exact (le_or_gt m mid).elim (hf m hl) fun hlt' => hf' m hlt' hle

end
end

/-- Settles O60: the failures before a nonce only move the loop on, and both parts of a range find its first success or none. -/
theorem searchFindsTheSmallestNonce : Obligations.SearchFindsTheSmallestNonce := fun _ _ _ hle _ =>
  ⟨fun _ h1 h2 hn hm => search_of_first h1 h2 hn hm, search_of_none hle,
    fun _ h1 h2 => ⟨search_split_of_found h1 h2, search_split_of_not_found h1 h2⟩⟩

end Sys2Proof.Machine
end

section
/-! The exceptions of the engine (spec/60_exceptions.md): the conditions of `ERR_PARAM`, the first that holds being
reported (R121, R124), and what a fault leaves as it was (R120, R126). -/

namespace Sys2Proof.Machine

/-! ### Operand values -/

/-- A command faults with the first of its checks on operand values that fails, whatever its regions are (R124). -/
theorem exec_paramFault {i : Instr} {s : State} {pre post : List Check} {p : Prop} [Decidable p] {word : Word}
    (heq : paramChecks s.cfg i = pre ++ paramCheck (decide p) word :: post) (hpre : ∀ k ∈ pre, k.ok = true)
    (hp : ¬p) : exec i s = .next (s.faulted 5 word) := by
  refine exec_trap (t := ⟨.param, word⟩) ?_
  rw [commandTrap, commandChecks, heq, List.append_assoc, firstFailed_append_of_ok hpre, List.cons_append,
    firstFailed_cons_of_not_ok (decide_eq_false hp)]
  rfl

@[simp] theorem paramCheck_ok (ok : Bool) (word : Word) : (paramCheck ok word).ok = ok := rfl

/-- The check that a count is at least 1 fails on a count of 0. -/
theorem not_one_le_toNat_zero {w : Nat} : ¬1 ≤ (0 : BitVec w).toNat := by simp

/-- Settles O9: `pre` lists the checks before the one that fails, and the hypotheses of each clause pass them. -/
theorem parameterFaults : Obligations.ParameterFaults := by
  intro s
  refine ⟨?_, ?_, ?_, ?_, ?_, ?_⟩
  · intro dst dkLen pwd pwdLen salt saltLen iter
    refine ⟨?_, ?_⟩
    · rintro rfl
      exact exec_paramFault (pre := []) rfl (by simp) not_one_le_toNat_zero
    · rintro hdk rfl
      exact exec_paramFault (pre := [_]) rfl (by simpa [one_le_toNat] using hdk) not_one_le_toNat_zero
  · rintro dst src r (rfl | hsize)
    · exact exec_paramFault (pre := []) rfl (by simp) not_one_le_toNat_zero
    · have hr : 1 ≤ r.toNat := by omega
      exact exec_paramFault (pre := [_]) rfl (by simp [hr]) (by omega)
  · intro blk v n r
    refine ⟨?_, ?_, fun hsize => ?_⟩
    · rintro rfl
      exact exec_paramFault (pre := []) rfl (by simp) not_one_le_toNat_zero
    · rintro hn rfl
      exact exec_paramFault (pre := [_]) rfl (by simpa [one_le_toNat] using hn) not_one_le_toNat_zero
    · have hn : n ≠ 0 := by rintro rfl; simp at hsize
      have hr : r ≠ 0 := by rintro rfl; simp at hsize
      exact exec_paramFault (pre := [_, _]) rfl (by simpa [one_le_toNat] using ⟨hn, hr⟩) (by omega)
  · intro dst dkLen pwd pwdLen salt saltLen n r p work
    refine ⟨?_, ?_, ?_, ?_, fun hdk hn hr hp hsize => ?_⟩
    · rintro rfl
      exact exec_paramFault (pre := []) rfl (by simp) not_one_le_toNat_zero
    · rintro hdk rfl
      exact exec_paramFault (pre := [_]) rfl (by simpa [one_le_toNat] using hdk) not_one_le_toNat_zero
    · rintro hdk hn rfl
      exact exec_paramFault (pre := [_, _]) rfl (by simpa [one_le_toNat] using ⟨hdk, hn⟩) not_one_le_toNat_zero
    · rintro hdk hn hr rfl
      exact exec_paramFault (pre := [_, _, _]) rfl (by simpa [one_le_toNat] using ⟨hdk, hn, hr⟩)
        not_one_le_toNat_zero
    · exact exec_paramFault (pre := [_, _, _, _]) rfl (by simpa [one_le_toNat] using ⟨hdk, hn, hr, hp⟩) (by omega)
  · intro res hdr target start stop hrange
    exact exec_paramFault (pre := []) rfl (by simp) (Nat.not_le.2 hrange)
  · intro res data dlen diff start stop
    refine ⟨fun hlen => ?_, fun hlen hdiff => ?_, fun hlen hdiff hrange => ?_⟩
    · exact exec_paramFault (pre := []) rfl (by simp) (Nat.not_le.2 hlen)
    · exact exec_paramFault (pre := [_]) rfl (by simp [hlen]) (Nat.not_le.2 hdiff)
    · exact exec_paramFault (pre := [_, _]) rfl (by simp [hlen, hdiff]) (Nat.not_le.2 hrange)

/-! ### What a fault leaves -/

/-- After a fault `STATUS` reads `DONE` and `ERR` (R22, R126). -/
theorem State.raise_statusWord (t : Trap) (s : State) : (s.raise t).statusWord = 6 := by
  have hcause : (s.raise t).errCause ≠ 0 := Cause.code_ne_zero t.cause
  rw [State.statusWord_eq, if_neg hcause]
  rfl

/-- Settles O12: a completion keeps the report, which a running list has at 0, so a step that leaves a cause
took a fault. -/
theorem engineFaultIsPrecise : Obligations.EngineFaultIsPrecise := by
  intro s t hclean hm hn h hcause
  rw [step_of_nil hn] at h
  rcases engineStep_running hm h with ⟨tr, rfl⟩ | ⟨-, _, _, -, -, -, hcomp⟩
  · obtain ⟨hlow, hhigh⟩ := Cause.code_bounds tr.cause
    exact ⟨hlow, hhigh, State.raise_eq_faulted tr s, State.raise_statusWord tr s⟩
  · obtain ⟨hkept, -⟩ := hcomp.report
    obtain ⟨-, h0, -⟩ := hclean hm
    exact absurd (hkept.trans h0) hcause

end Sys2Proof.Machine
end

section
/-! A soft reset of a running list (spec/70_reset_and_hazards.md R132, R133; log 4, log 10): the regions of the command at
`CP` are drawn afresh, each byte of them at a count of its own, and a descriptor that would fault has no such regions. -/

namespace Sys2Proof.Machine

/-! ### The regions an interrupted command leaves free -/

/-- A fetch that faults writes nothing (R120). -/
theorem interruptedRegions_of_fetchTrap {s : State} {t : Trap} (h : fetchTrap s = some t) :
    interruptedRegions s = some [] := by
  simp [interruptedRegions, h]

/-- A descriptor that is no command writes nothing, wherever it is. -/
theorem interruptedRegions_of_decode_error {s : State} {bs : List Byte} {e : DecodeError}
    (hr : s.mem.read s.cp.toNat 64 = some bs) (hd : decode s.cfg bs = .error e) : interruptedRegions s = some [] := by
  cases hf : fetchTrap s with
  | some t => exact interruptedRegions_of_fetchTrap hf
  | none => simp [interruptedRegions, hf, hr, hd]

/-- A command whose checks fail writes nothing, wherever it is. -/
theorem interruptedRegions_of_not_checksPass {s : State} {bs : List Byte} {i : Instr}
    (hr : s.mem.read s.cp.toNat 64 = some bs) (hd : decode s.cfg bs = .ok i) (hc : ¬checksPass s.cfg i) :
    interruptedRegions s = some [] := by
  obtain ⟨t, ht⟩ := Option.ne_none_iff_exists'.1 hc
  cases hf : fetchTrap s with
  | some t => exact interruptedRegions_of_fetchTrap hf
  | none => simp [interruptedRegions, hf, hr, hd, ht]

theorem interruptedRegions_of_checksPass {s : State} {bs : List Byte} {i : Instr} (hf : fetchTrap s = none)
    (hr : s.mem.read s.cp.toNat 64 = some bs) (hd : decode s.cfg bs = .ok i) (hc : checksPass s.cfg i) :
    interruptedRegions s = some (writtenRegions i) := by
  have ht : commandTrap s.cfg i = none := hc
  simp [interruptedRegions, hf, hr, hd, ht]

/-! ### Scrambled bytes -/

/-- An address lies in one of these regions. -/
def inRegions (rs : List Region) (a : Nat) : Prop := ∃ r ∈ rs, r.addr ≤ a ∧ a < r.addr + r.len

theorem not_inRegions_nil (a : Nat) : ¬inRegions [] a := by simp [inRegions]

theorem inRegions_cons {r : Region} {rs : List Region} {a : Nat} :
    inRegions (r :: rs) a ↔ (r.addr ≤ a ∧ a < r.addr + r.len) ∨ inRegions rs a := by simp [inRegions]

/-- The bytes a command stores to are those of its written regions. -/
theorem inSpans_storeSpans {i : Instr} {a : Nat} : inSpans (storeSpans i) a ↔ inRegions (writtenRegions i) a := by
  constructor
  · rintro ⟨p, hp, ha⟩
    obtain ⟨r, hr, rfl⟩ := mem_storeSpans.1 hp
    exact ⟨r, hr, ha⟩
  · rintro ⟨r, hr, ha⟩
    exact ⟨_, mem_storeSpans.2 ⟨r, hr, rfl⟩, ha⟩

/-- The bytes of one region take the next free values. -/
def State.drawRegion (r : Region) (s : State) : State :=
  { s with mem := s.mem.write r.addr (freeBytes s.freeCtr r.len), freeCtr := s.freeCtr + r.len }

theorem scramble_cons (r : Region) (rs : List Region) (s : State) :
    scramble (r :: rs) s = scramble rs (s.drawRegion r) := rfl

theorem State.drawRegion_freeCtr (r : Region) (s : State) : (s.drawRegion r).freeCtr = s.freeCtr + r.len := rfl

/-- A byte of a drawn region takes the value its offset draws. -/
theorem State.drawRegion_get (s : State) {r : Region} {a : Nat} (h : r.addr ≤ a ∧ a < r.addr + r.len) :
    (s.drawRegion r).mem.get a = some (Config.freeByte (s.freeCtr + (a - r.addr))) := by
  have hk : a - r.addr < r.len := by omega
  rw [State.drawRegion, Memory.get_write, freeBytes_length, if_pos h]
  simp [freeBytes, hk]

theorem freeCtr_le_scramble (rs : List Region) (s : State) : s.freeCtr ≤ (scramble rs s).freeCtr := by
  induction rs generalizing s with
  | nil => exact le_rfl
  | cons r rs ih => exact (Nat.le_add_right _ _).trans (ih (s.drawRegion r))

/-- Scrambling draws each byte of the regions at a count of its own. Where regions overlap, the last that holds a byte has
drawn it, and its draws come after those of the regions before it. -/
theorem scramble_get_inside (rs : List Region) (s : State) :
    ∃ draw : Nat → Nat,
      (∀ a b, inRegions rs a → inRegions rs b → draw a = draw b → a = b) ∧
      ∀ a, inRegions rs a → s.freeCtr ≤ draw a ∧ draw a < (scramble rs s).freeCtr ∧
        (scramble rs s).mem.get a = some (Config.freeByte (draw a)) := by
  classical
  induction rs generalizing s with
  | nil => exact ⟨id, fun _ _ _ _ h => h, fun a ha => absurd ha (not_inRegions_nil a)⟩
  | cons r rs ih =>
    obtain ⟨draw, hinj, hget⟩ := ih (s.drawRegion r)
    rw [State.drawRegion_freeCtr, ← scramble_cons] at hget
    have hctr : s.freeCtr + r.len ≤ (scramble (r :: rs) s).freeCtr := freeCtr_le_scramble rs (s.drawRegion r)
    have hlate : ∀ a, inRegions rs a → s.freeCtr + r.len ≤ draw a := fun a ha => (hget a ha).1
    have hhead : ∀ a, inRegions (r :: rs) a → ¬inRegions rs a → r.addr ≤ a ∧ a < r.addr + r.len :=
      fun a ha h => (inRegions_cons.1 ha).resolve_right h
    refine ⟨fun a => if inRegions rs a then draw a else s.freeCtr + (a - r.addr), fun a b ha hb h => ?_, fun a ha => ?_⟩
    · dsimp only at h
      split at h <;> split at h
      case isTrue.isTrue h1 h2 => exact hinj a b h1 h2 h
      case isTrue.isFalse h1 h2 =>
        have := hlate a h1
        have := hhead b hb h2
        omega
      case isFalse.isTrue h1 h2 =>
        have := hhead a ha h1
        have := hlate b h2
        omega
      case isFalse.isFalse h1 h2 =>
        have := hhead a ha h1
        have := hhead b hb h2
        omega
    · dsimp only
      split
      case isTrue h1 =>
        obtain ⟨hlo, hhi, hbyte⟩ := hget a h1
        exact ⟨le_trans (Nat.le_add_right _ _) hlo, hhi, hbyte⟩
      case isFalse h1 =>
        have hr := hhead a ha h1
        refine ⟨Nat.le_add_right _ _, lt_of_lt_of_le (by omega) hctr, ?_⟩
        rw [scramble_cons, scramble_get_outside fun q hq hqa => h1 ⟨q, hq, hqa⟩]
        exact s.drawRegion_get hr

/-! ### The soft reset -/

/-- A soft reset of a running block whose command is known scrambles the regions of that command alone (R133). -/
theorem softReset_of_known {s : State} {rs : List Region} (hm : s.mode = .running)
    (hi : interruptedRegions s = some rs) : softReset s = (scramble rs s).clearRegisters := by
  simp [softReset, hm, abandon, hi]

/-- A `CTRL` write with `SRST` while a known command runs scrambles the regions of that command and clears the registers. -/
theorem step_softReset_of_known {s : State} {ms : List Move} {v : Word} {rs : List Region}
    (ho : s.cfg.hostOrdered = true) (hv : v.getLsbD 2 = true) (hm : s.mode = .running)
    (hi : interruptedRegions s = some rs) :
    step { s with moves := .write (s.cfg.regBase + 0x0C) 4 v :: ms }
      = .next (scramble rs { s with moves := ms }).clearRegisters := by
  have hreset : writeReg { s with moves := ms } v .ctrl = (scramble rs { s with moves := ms }).clearRegisters :=
    (writeReg_ctrl_srst _ hv).trans (softReset_of_known (s := { s with moves := ms }) hm hi)
  exact (step_writeWindow v ho (by decide) (by decide)).trans (congrArg _ hreset)

/-- Settles O39: the reset scrambles the written regions of the command at `CP`, and none where its descriptor would fault. -/
theorem interruptedRegionsAreFree : Obligations.InterruptedRegionsAreFree := by
  intro s ms v ho hv hm
  refine ⟨fun i ha hb hr hwf hc => ?_, fun hfault => ?_⟩
  · have hi : interruptedRegions s = some (writtenRegions i) :=
      interruptedRegions_of_checksPass (fetchTrap_eq_none.2 ⟨ha, hb⟩) hr (decode_encode hwf) hc
    simp only [inSpans_storeSpans]
    exact ⟨_, step_softReset_of_known ho hv hm hi,
      fun a ha => scramble_get_outside fun r hr hra => ha ⟨r, hr, hra⟩,
      scramble_get_inside (writtenRegions i) { s with moves := ms }⟩
  · have hi : interruptedRegions s = some [] := by
      rcases hfault with ha | hb | ⟨bs, e, hr, hd⟩ | ⟨bs, i, hr, hd, hc⟩
      · exact interruptedRegions_of_fetchTrap (fetchTrap_misaligned ha)
      · by_cases ha : s.cp.toNat % 64 = 0
        · exact interruptedRegions_of_fetchTrap (fetchTrap_outOfBounds ha hb)
        · exact interruptedRegions_of_fetchTrap (fetchTrap_misaligned ha)
      · exact interruptedRegions_of_decode_error hr hd
      · exact interruptedRegions_of_not_checksPass hr hd hc
    exact ⟨_, step_softReset_of_known ho hv hm hi, rfl⟩

end Sys2Proof.Machine
end
